-- ==== Sys2Proof/Word.lean ====
section
/-! DEFINITION. The block's units: bytes, 32-bit register words and 12-bit window offsets. -/

namespace Sys2Proof

/-- One byte: a number in [0, 255] (00_scope.md R6). -/
abbrev Byte := BitVec 8

/-- One 32-bit register value, unsigned (00_scope.md R5, 10_state.md R20). -/
abbrev Word := BitVec 32

/-- A host-visible offset into the 4 KiB window, 0x000 to 0xFFF (20_memory.md R50). -/
abbrev Offset := BitVec 12

end Sys2Proof
end

