-- ==== Sys2Proof/Config.lean ====
section
/-! DEFINITION. The parameters the spec leaves to the platform or names as replaceable, as plain data, and the free
values: constants with no body that nothing in Lean can evaluate. -/

namespace Sys2Proof

/-- Which 256-bit hash the block holds (00_scope.md R4): SHA-256, as the spec fixes it, or any other function, named by
a number and wholly unknown (log 4). -/
inductive HashChoice where
  | sha256
  | other (which : Nat)
  deriving DecidableEq, Repr

/-- The parameters of 00_scope.md section 3 (log 3). No step changes them. -/
structure Config where
  /-- BUF_CAP (00_scope.md R3). -/
  bufCap : Nat
  /-- C32X_BASE, the host address of offset 0x000 (20_memory.md R50). -/
  base : Nat
  /-- IRQ_ROUTE, the host's own number for the input the IRQ line drives (60_exceptions.md R216). -/
  irqRoute : Nat
  /-- HASH256 (00_scope.md R4). -/
  hash : HashChoice
  /-- VMAP, pairs of a c32 version and a b58 version (46_cross_base.md R170). -/
  vmap : List (Nat × Nat)
  deriving DecidableEq, Repr

/-- The default table of 46_cross_base.md R170 (log 6). -/
def Config.defaultVmap : List (Nat × Nat) := [(22, 0), (20, 5), (26, 111), (21, 196)]

/-- The parameters State.reset carries. DESIGN CHOICE (log 3, unsafe for a claim that rests on them): BUF_CAP is the 256
of the spec's vectors, base and route are 0. HASH256 and VMAP are the spec's own defaults. -/
def Config.default : Config :=
  { bufCap := 256, base := 0, irqRoute := 0, hash := .sha256, vmap := Config.defaultVmap }

/-- The constraints the spec puts on the parameters: 64 ≤ BUF_CAP ≤ 1024 (00_scope.md R3), a 4 KiB aligned base
(20_memory.md R50), and VMAP a bijection between c32 versions and b58 versions (46_cross_base.md R170; log 18). -/
def Config.wf (c : Config) : Bool :=
  decide (64 ≤ c.bufCap) && decide (c.bufCap ≤ 1024) && decide (c.base % 4096 = 0) &&
    decide ((c.vmap.map Prod.fst).Nodup) && decide ((c.vmap.map Prod.snd).Nodup) &&
    c.vmap.all (fun p => decide (p.1 ≤ 31) && decide (p.2 ≤ 255))

/-- FREE VALUE (log 4): the hash of a block whose HASH256 is not SHA-256, 32 bytes for every byte sequence. -/
opaque Config.otherHash : Nat → List Byte → Vector Byte 32

/-- FREE VALUE (log 7): the byte the n-th read of an OUT byte that holds no defined value returns
(10_state.md R36, 20_memory.md R55). -/
opaque Config.anyByte : Nat → Byte

/-- FREE VALUE (log 8): what IN[i] holds, after the given number of resets, until the host writes it
(10_state.md R35, 70_reset_and_hazards.md R233). -/
opaque Config.unwrittenIn : Nat → Nat → Byte

end Sys2Proof
end

