-- ==== Sys2Proof/Syntax.lean ====
section
/-! DEFINITION. Syntax: the twenty commands, the raw fields of a command word, the registers' names, the error kinds,
and the events that reach the block (host accesses, the engine's turn, the RESET input). -/

namespace Sys2Proof

/-- The two alphabets (00_scope.md section 1; 41_alphabet.md R110, R111). -/
inductive Alph where
  | c32
  | b58
  deriving DecidableEq, Repr

/-- The commands: one constructor for each row of spec/opcode_table.json (30_encoding.md R76). The two XCONV rows
carry their free bit TVEN (30_encoding.md R73). -/
inductive Instr where
  | radixToDigits
  | radixToBytes
  | alphaSymAtC32
  | alphaSymAtB58
  | alphaIndexOfC32
  | alphaIndexOfB58
  | alphaNormalizeC32
  | checksum
  | plainEncodeC32
  | plainEncodeB58
  | plainDecodeC32
  | plainDecodeB58
  | checkEncodeC32
  | checkEncodeB58
  | checkDecodeC32
  | checkDecodeB58
  | addrEncode
  | addrDecode
  | xconvC32ToB58 (tven : Bool)
  | xconvB58ToC32 (tven : Bool)
  deriving DecidableEq, Repr

/-- The fields of a command word, before any check (30_encoding.md R70): OP bits 5:0, reserved bits 7:6, ALPH bit 8,
TVEN bit 9, reserved bits 31:10. -/
structure CmdFields where
  op : BitVec 6
  rsvLow : BitVec 2
  alph : Bool
  tven : Bool
  rsvHigh : BitVec 22
  deriving DecidableEq, Repr

/-- The eleven registers (10_state.md R20). -/
inductive Reg where
  | id
  | cap
  | ctrl
  | cmd
  | status
  | errcode
  | argA
  | argB
  | inLen
  | outLen
  | outVal
  deriving DecidableEq, Repr

/-- The eleven error kinds of a completed command (60_exceptions.md R200). -/
inductive ErrKind where
  | invalidHex
  | invalidSymbol
  | invalidVersion
  | invalidPayloadLength
  | missingPrefix
  | checksumMismatch
  | tooShort
  | noEquivalentVersion
  | badCommand
  | badArgument
  | capacityExceeded
  deriving DecidableEq, Repr

/-- One host access (00_scope.md R6): `bytes` is its width in bytes, `off` its offset in the window. An 8-bit write
carries its byte in bits 7:0 of `data`. -/
inductive Access where
  | read (bytes : Nat) (off : Offset)
  | write (bytes : Nat) (off : Offset) (data : Word)
  deriving DecidableEq, Repr

/-- What can happen next (00_scope.md R1; 70_reset_and_hazards.md R230): a host access, the engine's turn to complete
the command in flight, or a change of the RESET input. -/
inductive Event where
  | access (a : Access)
  | engine
  | assertReset
  | releaseReset
  deriving DecidableEq, Repr

end Sys2Proof
end

