-- ==== Sys2Proof/Machine/State.lean ====
section
/-! DEFINITION. The state of the block as plain data, its value right after reset, and the reasons a step can stop. -/

namespace Sys2Proof.Machine

/-- The engine's sequencing state (10_state.md R40). STATUS.BUSY = (PHASE = BUSY). -/
inductive Phase where
  | idle
  | busy
  deriving DecidableEq, Repr

/-- SNAP, the operands a command computes from, taken when it is accepted (10_state.md R40). The IN bytes need no
copy, because host writes to IN are dropped while BUSY. -/
structure Snapshot where
  word : Word
  argA : Word
  argB : Word
  inLen : Word
  deriving DecidableEq, Repr

/-- A buffer's bytes that hold a defined value, by offset, in rising order. An offset that is not listed holds none. -/
abbrev Memory := List Host.Cell

/-- The state of the block. -/
structure State where
  /-- CTRL bit 0, IE (10_state.md R23). -/
  ie : Bool
  /-- CMD, the command word last accepted (10_state.md R24). -/
  cmd : Word
  /-- STATUS.DONE (10_state.md R26). -/
  done : Bool
  /-- STATUS.OVERRUN (10_state.md R28). -/
  overrun : Bool
  /-- ERRCODE bits 3:0 (10_state.md R29). -/
  errcode : BitVec 4
  /-- ARG_A (10_state.md R30). -/
  argA : Word
  /-- ARG_B (10_state.md R31). -/
  argB : Word
  /-- IN_LEN (10_state.md R32). -/
  inLen : Word
  /-- OUT_LEN (10_state.md R33). -/
  outLen : Word
  /-- OUT_VAL (10_state.md R34). -/
  outVal : Word
  /-- The IN bytes written since reset (10_state.md R35, R41): IN_WRITTEN[i] = 1 exactly when i is listed (log 15). -/
  inBuf : Memory
  /-- The OUT bytes a success defined; every other OUT byte is "any value" (10_state.md R36; log 7). -/
  outBuf : Memory
  /-- PHASE (10_state.md R40). -/
  phase : Phase
  /-- SNAP (10_state.md R40). -/
  snap : Snapshot
  /-- The RESET input is asserted (70_reset_and_hazards.md R230; log 12). -/
  resetAsserted : Bool
  /-- The MODEL's own: how many resets have been released (log 8). -/
  epoch : Nat
  /-- The MODEL's own: how many "any value" bytes reads have drawn (log 7). -/
  drawn : Nat
  /-- The MODEL's own: the block's answer to the last host read, zero-extended (log 10). -/
  readData : Option Word
  /-- The MODEL's own: what arrives next, in order (log 1). -/
  inbox : List Event
  /-- The parameters, which no step changes (log 3). -/
  cfg : Config
  deriving DecidableEq, Repr

/-- The block right after reset (70_reset_and_hazards.md R231). SNAP is unspecified there; its zeros, `epoch`, `drawn`
and the parameters are the model's choice (logs 3, 7, 8, 9). -/
def State.reset : State :=
  { ie := false
    cmd := 0
    done := false
    overrun := false
    errcode := 0
    argA := 0
    argB := 0
    inLen := 0
    outLen := 0
    outVal := 0
    inBuf := []
    outBuf := []
    phase := .idle
    snap := { word := 0, argA := 0, argB := 0, inLen := 0 }
    resetAsserted := false
    epoch := 0
    drawn := 0
    readData := none
    inbox := []
    cfg := Config.default }

/-- Why the machine faults. -/
inductive Fault where
  /-- A completing command that reads IN[0..IN_LEN) meets a byte never written since reset: the spec's own model fault
  (70_reset_and_hazards.md R233). Raised by every command but ALPHA.SYMAT. Safe: the hardware goes on with an
  unspecified byte. -/
  | unwrittenInput
  deriving DecidableEq, Repr

/-- Why a step has no next state. -/
inductive Refusal where
  /-- exec's arm has no meaning for this instruction yet. Safe. No arm raises it in this model. -/
  | notModelled (mnemonic : String)
  /-- A host access of a width or alignment the block does not admit; the block answers with a bus error and changes
  nothing (20_memory.md R53, 60_exceptions.md R219). Raised by the host port. Safe. -/
  | busError
  /-- A host access while RESET is asserted: no step exists until RESET is released (70_reset_and_hazards.md R230).
  Raised by the host port. Safe. -/
  | accessInReset
  deriving DecidableEq, Repr

/-- What one step answers. -/
abbrev Result := Host.Outcome State Fault Refusal

end Sys2Proof.Machine
end

