-- ==== Sys2Proof/Machine/Flags.lean ====
section
/-! DEFINITION. The registers as the host reads them, STATUS and its flags, the error codes, and the IRQ line. -/

namespace Sys2Proof.Machine

/-- The code of an error kind (60_exceptions.md R200). Code 0 is success; 12 to 15 are never written. -/
def errCode : ErrKind → BitVec 4
  | .invalidHex => 1
  | .invalidSymbol => 2
  | .invalidVersion => 3
  | .invalidPayloadLength => 4
  | .missingPrefix => 5
  | .checksumMismatch => 6
  | .tooShort => 7
  | .noEquivalentVersion => 8
  | .badCommand => 9
  | .badArgument => 10
  | .capacityExceeded => 11

/-- STATUS.BUSY (10_state.md R40). -/
def State.busy (s : State) : Bool := s.phase == .busy

/-- STATUS.ERR, a view of ERRCODE (10_state.md R27). -/
def State.err (s : State) : Bool := s.errcode != 0

/-- STATUS as a word: BUSY, DONE, ERR, OVERRUN from bit 0; bits 31:4 are zero (10_state.md R25). -/
def State.status (s : State) : Word :=
  (0 : BitVec 28) ++ BitVec.ofBool s.overrun ++ BitVec.ofBool s.err ++ BitVec.ofBool s.done ++ BitVec.ofBool s.busy

/-- The IRQ line: CTRL.IE ∧ STATUS.DONE, at every moment (60_exceptions.md R216). -/
def State.irq (s : State) : Bool := s.ie && s.done

/-- The host's input that the high IRQ line drives, if it is high (60_exceptions.md R216, IRQ_ROUTE). -/
def State.irqAt (s : State) : Option Nat := if s.irq then some s.cfg.irqRoute else none

/-- The value of ID (10_state.md R21). -/
def idValue : Word := 0x58323343

/-- A register's value as a host read returns it (10_state.md R20-R34). -/
def State.regRead (s : State) : Reg → Word
  | .id => idValue
  | .cap => BitVec.ofNat 32 s.cfg.bufCap
  | .ctrl => (BitVec.ofBool s.ie).setWidth 32
  | .cmd => s.cmd
  | .status => s.status
  | .errcode => s.errcode.setWidth 32
  | .argA => s.argA
  | .argB => s.argB
  | .inLen => s.inLen
  | .outLen => s.outLen
  | .outVal => s.outVal

end Sys2Proof.Machine
end

