-- ==== Sys2Proof/Machine/Operands.lean ====
section
/-! DEFINITION. The buffers as lists of defined bytes in one canonical form, and a command's operands: the bytes
IN[0..IN_LEN) and the register values of the snapshot (30_encoding.md R75). -/

namespace Sys2Proof.Machine

/-- What an offset that is not listed reads as: no defined value. For IN that is "unwritten since reset"
(70_reset_and_hazards.md R233), for OUT "any value" (10_state.md R36). -/
def Memory.unlisted : Option Byte := none

/-- The defined byte at an offset. -/
def Memory.read (m : Memory) (i : Nat) : Option Byte :=
  match m with
  | [] => Memory.unlisted
  | (j, b) :: rest => if i = j then some b else Memory.read rest i

/-- The buffer with one byte written, its offsets still rising. -/
def Memory.write (m : Memory) (i : Nat) (b : Byte) : Memory :=
  match m with
  | [] => [(i, b)]
  | (j, c) :: rest =>
    if i < j then (i, b) :: (j, c) :: rest
    else if i = j then (i, b) :: rest
    else (j, c) :: Memory.write rest i b

/-- The buffer that holds the bytes of a list from offset `i` on, and nothing else. -/
def Memory.ofBytesFrom (i : Nat) : List Byte → Memory
  | [] => []
  | b :: bs => (i, b) :: Memory.ofBytesFrom (i + 1) bs

/-- The buffer that holds a list at offsets 0, 1, … and nothing else. -/
def Memory.ofBytes (bs : List Byte) : Memory := Memory.ofBytesFrom 0 bs

/-- The offsets rise strictly from at least `i`. -/
def Memory.risingFrom (i : Nat) : Memory → Bool
  | [] => true
  | (j, _) :: rest => decide (i ≤ j) && Memory.risingFrom (j + 1) rest

/-- The canonical form: strictly rising offsets. (No listed byte equals what an unlisted offset reads as, because that
is no byte at all.) -/
def Memory.wf (m : Memory) : Bool := Memory.risingFrom 0 m

/-- IN_WRITTEN[i] (10_state.md R41). -/
def State.inWritten (s : State) (i : Nat) : Bool := (s.inBuf.read i).isSome

/-- The list IN[i..i+n), if the host has written every byte of it. -/
def Memory.readRange (m : Memory) (i : Nat) : Nat → Option (List Byte)
  | 0 => some []
  | n + 1 =>
    match m.read i, m.readRange (i + 1) n with
    | some b, some bs => some (b :: bs)
    | _, _ => none

/-- A digit or code as one byte. -/
def byteOf (n : Nat) : Byte := BitVec.ofNat 8 n

/-- A list of digits, one byte each (40_radix.md R104). -/
def bytesOf (ns : List Nat) : List Byte := ns.map byteOf

/-- A list of bytes as numbers. -/
def natsOf (bs : List Byte) : List Nat := bs.map BitVec.toNat

end Sys2Proof.Machine
end

