-- ==== Sys2Proof/Machine/Ops.lean ====
section
/-! DEFINITION. The operations every command shares: the start of a command, its completion with a result or with an
error (the block's one way of reporting an exception; there is no trap to enter or return from, 60_exceptions.md R218),
the acknowledge, the execution frame of 60_exceptions.md R214, and reset. -/

namespace Sys2Proof.Machine

/-- A command's own computation F_w (60_exceptions.md R214): a pure function of the parameters, the snapshot and the
bytes IN[0..IN_LEN) (00_scope.md R2), which returns (out, val) or raises one error kind. -/
abbrev Body := Config → Snapshot → List Byte → Except ErrKind (List Byte × Word)

/-- The list has more than `n` elements. It looks at no more than n + 1 of them, so a result padded far beyond the
buffer (a large ARG_B) is recognised without being built. -/
def exceeds : Nat → List Byte → Bool
  | _, [] => false
  | 0, _ :: _ => true
  | n + 1, _ :: rest => exceeds n rest

/-- Start (60_exceptions.md R212): the block accepts the word `w`. Every OUT byte is "any value" from here on. -/
def State.start (s : State) (w : Word) : State :=
  { s with
    cmd := w
    snap := { word := w, argA := s.argA, argB := s.argB, inLen := s.inLen }
    errcode := 0
    outLen := 0
    outVal := 0
    outBuf := []
    done := false
    phase := .busy }

/-- Completion with success (60_exceptions.md R213). -/
def State.completeOk (s : State) (out : List Byte) (val : Word) : State :=
  { s with
    outBuf := Memory.ofBytes out
    outLen := BitVec.ofNat 32 out.length
    outVal := val
    errcode := 0
    phase := .idle
    done := true }

/-- Completion with an error (60_exceptions.md R213): the block's exception entry. The OUT bytes are "any value". -/
def State.completeErr (s : State) (k : ErrKind) : State :=
  { s with
    outBuf := []
    outLen := 0
    outVal := 0
    errcode := errCode k
    phase := .idle
    done := true }

/-- What the host writes to STATUS (10_state.md R25): bits 1 and 3 clear DONE and OVERRUN where they are 1, and the
other bits are ignored. Bit 1 is the acknowledge (60_exceptions.md R215), the one end of a reported error. -/
def State.writeStatus (s : State) (v : Word) : State :=
  { s with
    done := s.done && !v.getLsbD 1
    overrun := s.overrun && !v.getLsbD 3 }

/-- Completion with what the command's computation gave, after the output capacity check (60_exceptions.md R214). -/
def State.finish (s : State) (r : Except ErrKind (List Byte × Word)) : State :=
  match r with
  | .error k => s.completeErr k
  | .ok (out, val) => if exceeds s.cfg.bufCap out then s.completeErr .capacityExceeded else s.completeOk out val

/-- Execution of a command that reads IN[0..IN_LEN) (60_exceptions.md R214): the input capacity check, the model fault
on a byte never written (70_reset_and_hazards.md R233), then the command's own computation. -/
def runReading (F : Body) (s : State) : Result :=
  if s.snap.inLen.toNat > s.cfg.bufCap then .next (s.completeErr .capacityExceeded)
  else
    match s.inBuf.readRange 0 s.snap.inLen.toNat with
    | none => .fault .unwrittenInput
    | some bs => .next (s.finish (F s.cfg s.snap bs))

/-- Execution of a command that reads no IN byte, ALPHA.SYMAT: the input capacity check still comes first
(60_exceptions.md R211). -/
def runNotReading (F : Body) (s : State) : Result :=
  if s.snap.inLen.toNat > s.cfg.bufCap then .next (s.completeErr .capacityExceeded)
  else .next (s.finish (F s.cfg s.snap []))

/-- The state RESET's release leaves (70_reset_and_hazards.md R230, R231): every piece of the spec's state at its reset
value. The parameters stay, and so do the model's own records of what is outside the block (logs 1, 7, 8, 10). -/
def State.afterReset (s : State) : State :=
  { State.reset with
    cfg := s.cfg
    inbox := s.inbox
    readData := s.readData
    drawn := s.drawn
    epoch := s.epoch + 1 }

end Sys2Proof.Machine
end

