-- ==== Sys2Proof/Machine/Sha256.lean ====
section
/-! DEFINITION. SHA-256, the function the spec fixes for HASH256 (00_scope.md R4). The spec names it "as in FIPS 180-4"
and marks it general knowledge; its text is PRESUMED, taken from that standard (log 4). -/

namespace Sys2Proof.Machine

/-- The eight working variables or hash words of SHA-256. -/
structure ShaWords where
  a : Word
  b : Word
  c : Word
  d : Word
  e : Word
  f : Word
  g : Word
  h : Word
  deriving DecidableEq, Repr

/-- The round constants: the first 32 fractional bits of the cube roots of the first 64 primes. -/
def shaK : List Word :=
  [0x428a2f98, 0x71374491, 0xb5c0fbcf, 0xe9b5dba5, 0x3956c25b, 0x59f111f1, 0x923f82a4, 0xab1c5ed5]
    ++ [0xd807aa98, 0x12835b01, 0x243185be, 0x550c7dc3, 0x72be5d74, 0x80deb1fe, 0x9bdc06a7, 0xc19bf174]
    ++ [0xe49b69c1, 0xefbe4786, 0x0fc19dc6, 0x240ca1cc, 0x2de92c6f, 0x4a7484aa, 0x5cb0a9dc, 0x76f988da]
    ++ [0x983e5152, 0xa831c66d, 0xb00327c8, 0xbf597fc7, 0xc6e00bf3, 0xd5a79147, 0x06ca6351, 0x14292967]
    ++ [0x27b70a85, 0x2e1b2138, 0x4d2c6dfc, 0x53380d13, 0x650a7354, 0x766a0abb, 0x81c2c92e, 0x92722c85]
    ++ [0xa2bfe8a1, 0xa81a664b, 0xc24b8b70, 0xc76c51a3, 0xd192e819, 0xd6990624, 0xf40e3585, 0x106aa070]
    ++ [0x19a4c116, 0x1e376c08, 0x2748774c, 0x34b0bcb5, 0x391c0cb3, 0x4ed8aa4a, 0x5b9cca4f, 0x682e6ff3]
    ++ [0x748f82ee, 0x78a5636f, 0x84c87814, 0x8cc70208, 0x90befffa, 0xa4506ceb, 0xbef9a3f7, 0xc67178f2]

/-- The initial hash value: the first 32 fractional bits of the square roots of the first 8 primes. -/
def shaInit : ShaWords :=
  ⟨0x6a09e667, 0xbb67ae85, 0x3c6ef372, 0xa54ff53a,
    0x510e527f, 0x9b05688c, 0x1f83d9ab, 0x5be0cd19⟩

/-- Rotation right by `n` of 0 to 31 places. -/
def shaRotr (x : Word) (n : Nat) : Word := (x >>> n) ||| (x <<< (32 - n))

/-- Σ0. -/
def shaBig0 (x : Word) : Word := shaRotr x 2 ^^^ shaRotr x 13 ^^^ shaRotr x 22

/-- Σ1. -/
def shaBig1 (x : Word) : Word := shaRotr x 6 ^^^ shaRotr x 11 ^^^ shaRotr x 25

/-- σ0. -/
def shaSmall0 (x : Word) : Word := shaRotr x 7 ^^^ shaRotr x 18 ^^^ (x >>> 3)

/-- σ1. -/
def shaSmall1 (x : Word) : Word := shaRotr x 17 ^^^ shaRotr x 19 ^^^ (x >>> 10)

/-- Ch. -/
def shaCh (x y z : Word) : Word := (x &&& y) ^^^ (~~~x &&& z)

/-- Maj. -/
def shaMaj (x y z : Word) : Word := (x &&& y) ^^^ (x &&& z) ^^^ (y &&& z)

/-- The message with its 1 bit, its zeros and its length in bits as 64 bits, most significant byte first. -/
def shaPad (m : List Byte) : List Byte :=
  m ++ [(0x80 : Byte)] ++ List.replicate ((119 - m.length % 64) % 64) (0 : Byte) ++
    [56, 48, 40, 32, 24, 16, 8, 0].map (fun k => BitVec.ofNat 8 ((8 * m.length) >>> k))

/-- Bytes as 32-bit words, most significant byte first. -/
def shaParse : List Byte → List Word
  | b0 :: b1 :: b2 :: b3 :: rest => (b0 ++ b1 ++ b2 ++ b3 : Word) :: shaParse rest
  | _ => []

/-- The message schedule, `n` words longer; the list holds the newest word first. -/
def shaSchedule : Nat → List Word → List Word
  | 0, w => w
  | n + 1, w =>
    shaSchedule n ((shaSmall1 (w.getD 1 0) + w.getD 6 0 + shaSmall0 (w.getD 14 0) + w.getD 15 0) :: w)

/-- One round, with its constant and its schedule word. -/
def shaRound (s : ShaWords) (kw : Word × Word) : ShaWords :=
  let t1 := s.h + shaBig1 s.e + shaCh s.e s.f s.g + kw.1 + kw.2
  let t2 := shaBig0 s.a + shaMaj s.a s.b s.c
  ⟨t1 + t2, s.a, s.b, s.c, s.d + t1, s.e, s.f, s.g⟩

/-- The hash value after one block of sixteen words. -/
def shaBlock (s : ShaWords) (block : List Word) : ShaWords :=
  let r := (shaK.zip (shaSchedule 48 block.reverse).reverse).foldl shaRound s
  ⟨s.a + r.a, s.b + r.b, s.c + r.c, s.d + r.d, s.e + r.e, s.f + r.f, s.g + r.g, s.h + r.h⟩

/-- The hash value after `n` blocks. -/
def shaBlocks : Nat → List Word → ShaWords → ShaWords
  | 0, _, s => s
  | n + 1, ws, s => shaBlocks n (ws.drop 16) (shaBlock s (ws.take 16))

/-- The four bytes of a word, most significant first. -/
def shaWordBytes (w : Word) : List Byte :=
  [w.extractLsb' 24 8, w.extractLsb' 16 8, w.extractLsb' 8 8, w.extractLsb' 0 8]

/-- The 32 bytes of a hash value. -/
def shaDigest (s : ShaWords) : Vector Byte 32 :=
  ⟨(shaWordBytes s.a ++ shaWordBytes s.b ++ shaWordBytes s.c ++ shaWordBytes s.d ++
    shaWordBytes s.e ++ shaWordBytes s.f ++ shaWordBytes s.g ++ shaWordBytes s.h).toArray, rfl⟩

/-- SHA-256 of a byte sequence. -/
def sha256 (m : List Byte) : Vector Byte 32 :=
  let ws := shaParse (shaPad m)
  shaDigest (shaBlocks (ws.length / 16) ws shaInit)

end Sys2Proof.Machine
end

