-- ==== Sys2Proof/Machine/Checksum.lean ====
section
/-! DEFINITION. ChecksumEngine (43_checksum.md): HASH256, the 4-byte checksum, and the command CHECKSUM. -/

namespace Sys2Proof.Machine

/-- HASH256, the parameter of 00_scope.md R4: SHA-256, or another total function to 32 bytes of which nothing is known
(log 4). -/
def hash256 (c : Config) (bs : List Byte) : Vector Byte 32 :=
  match c.hash with
  | .sha256 => sha256 bs
  | .other which => Config.otherHash which bs

/-- checksum: bytes 0 to 3 of HASH256 of the 32 raw bytes of HASH256 (43_checksum.md R140). -/
def checksum (c : Config) (bs : List Byte) : List Byte :=
  let h := hash256 c (hash256 c bs).toList
  [h[0], h[1], h[2], h[3]]

/-- CHECKSUM's computation (43_checksum.md R141). -/
def checksumBody : Body := fun c _ bs => .ok (checksum c bs, 0)

/-- CHECKSUM (43_checksum.md R141). -/
def execChecksum (s : State) : Result := runReading checksumBody s

end Sys2Proof.Machine
end

