-- ==== Sys2Proof/Machine/Radix.lean ====
section
/-! DEFINITION. ByteRadixConverter (40_radix.md): numbers to digits and back, and the commands RADIX.TODIGITS and
RADIX.TOBYTES. -/

namespace Sys2Proof.Machine

/-- The number of leading zero elements (40_radix.md R100). -/
def lz : List Nat → Nat
  | 0 :: rest => lz rest + 1
  | _ => 0

/-- The number a most-significant-first digit list denotes, by repeated multiply-add (40_radix.md R101). -/
def natOf (xs : List Nat) (R : Nat) : Nat := xs.foldl (fun v d => v * R + d) 0

/-- Repeated division, the digits of `v` put before `acc`. The fuel bounds the number of divisions. -/
def digitsLoop (R : Nat) : Nat → Nat → List Nat → List Nat
  | 0, _, acc => acc
  | fuel + 1, v, acc => if v = 0 then acc else digitsLoop R fuel (v / R) (v % R :: acc)

/-- The minimal most-significant-first digit list of `v`; empty for 0 (40_radix.md R101). A value is never more than
itself divisions away from 0, so it is fuel enough. -/
def digitsOf (v R : Nat) : List Nat := digitsLoop R v v []

/-- The digits in radix `dst` of the list `xs` of digits in radix `src`, leading zeros kept one for one: the common
form of 40_radix.md R102 and R103. -/
def reradix (src dst : Nat) (xs : List Nat) : List Nat :=
  List.replicate (lz xs) 0 ++ digitsOf (natOf (xs.drop (lz xs)) src) dst

/-- toDigits (40_radix.md R102; 90_conflicts.md C1). -/
def toDigits (bs : List Byte) (R : Nat) : List Nat := reradix 256 R (natsOf bs)

/-- toBytes (40_radix.md R103). -/
def toBytes (ds : List Nat) (R : Nat) : List Byte := bytesOf (reradix R 256 ds)

/-- The radix test of both commands (40_radix.md R104, R105). -/
def badRadix (R : Nat) : Bool := decide (R < 2) || decide (R > 256)

/-- RADIX.TODIGITS's computation (40_radix.md R104). -/
def radixToDigitsBody : Body := fun _ n bs =>
  if badRadix n.argA.toNat then .error .badArgument
  else .ok (bytesOf (toDigits bs n.argA.toNat), 0)

/-- RADIX.TOBYTES's computation (40_radix.md R105). -/
def radixToBytesBody : Body := fun _ n ds =>
  if badRadix n.argA.toNat then .error .badArgument
  else if ds.any (fun d => decide (d.toNat ≥ n.argA.toNat)) then .error .badArgument
  else .ok (toBytes (natsOf ds) n.argA.toNat, 0)

/-- RADIX.TODIGITS (40_radix.md R104). -/
def execRadixToDigits (s : State) : Result := runReading radixToDigitsBody s

/-- RADIX.TOBYTES (40_radix.md R105). -/
def execRadixToBytes (s : State) : Result := runReading radixToBytesBody s

end Sys2Proof.Machine
end

