-- ==== Sys2Proof/Machine/Alphabet.lean ====
section
/-! DEFINITION. Alphabet and normalization (41_alphabet.md): the two symbol tables, symbolAt, norm32, the two lookups,
and the ALPHA commands. -/

namespace Sys2Proof.Machine

/-- The c32 symbol table (41_alphabet.md R110; log 5). -/
def c32Table : List Byte :=
  [0x30, 0x31, 0x32, 0x33, 0x34, 0x35, 0x36, 0x37]  -- 0 1 2 3 4 5 6 7
    ++ [0x38, 0x39, 0x41, 0x42, 0x43, 0x44, 0x45, 0x46]  -- 8 9 A B C D E F
    ++ [0x47, 0x48, 0x4A, 0x4B, 0x4D, 0x4E, 0x50, 0x51]  -- G H J K M N P Q
    ++ [0x52, 0x53, 0x54, 0x56, 0x57, 0x58, 0x59, 0x5A]  -- R S T V W X Y Z

/-- The b58 symbol table (41_alphabet.md R111; log 5). -/
def b58Table : List Byte :=
  [0x31, 0x32, 0x33, 0x34, 0x35, 0x36, 0x37, 0x38]  -- 1 2 3 4 5 6 7 8
    ++ [0x39, 0x41, 0x42, 0x43, 0x44, 0x45, 0x46, 0x47]  -- 9 A B C D E F G
    ++ [0x48, 0x4A, 0x4B, 0x4C, 0x4D, 0x4E, 0x50, 0x51]  -- H J K L M N P Q
    ++ [0x52, 0x53, 0x54, 0x55, 0x56, 0x57, 0x58, 0x59]  -- R S T U V W X Y
    ++ [0x5A, 0x61, 0x62, 0x63, 0x64, 0x65, 0x66, 0x67]  -- Z a b c d e f g
    ++ [0x68, 0x69, 0x6A, 0x6B, 0x6D, 0x6E, 0x6F, 0x70]  -- h i j k m n o p
    ++ [0x71, 0x72, 0x73, 0x74, 0x75, 0x76, 0x77, 0x78]  -- q r s t u v w x
    ++ [0x79, 0x7A]  -- y z

/-- The symbols of an alphabet, by index. -/
def tableOf : Alph → List Byte
  | .c32 => c32Table
  | .b58 => b58Table

/-- The radix of an alphabet (41_alphabet.md R110, R111). -/
def radixOf : Alph → Nat
  | .c32 => 32
  | .b58 => 58

/-- symbolAt (41_alphabet.md R112). Inside a codec the index is always in range; ALPHA.SYMAT checks it first. -/
def symbolAt (alph : Alph) (i : Nat) : Byte := (tableOf alph).getD i 0

/-- norm32, the c32 homoglyph normalization of one byte (41_alphabet.md R113). -/
def norm32 (c : Byte) : Byte :=
  if c = 0x49 ∨ c = 0x69 ∨ c = 0x4C ∨ c = 0x6C then 0x31
  else if c = 0x4F ∨ c = 0x6F then 0x30
  else if 0x61 ≤ c ∧ c ≤ 0x7A then c - 0x20
  else c

/-- The index of a byte in a symbol table. -/
def findSymbol (table : List Byte) (c : Byte) : Option Nat := table.findIdx? (fun x => x == c)

/-- indexOf32: normalize, then search (41_alphabet.md R114). `none` stands for the raise of InvalidSymbol. -/
def indexOf32 (c : Byte) : Option Nat := findSymbol c32Table (norm32 c)

/-- indexOf58: search without normalization (41_alphabet.md R115). -/
def indexOf58 (c : Byte) : Option Nat := findSymbol b58Table c

/-- The lookup of an alphabet. -/
def indexOf : Alph → Byte → Option Nat
  | .c32 => indexOf32
  | .b58 => indexOf58

/-- The indexes of a whole text, or InvalidSymbol if any byte of it has none (42_plain_codec.md R133). -/
def indexAll (alph : Alph) : List Byte → Except ErrKind (List Nat)
  | [] => .ok []
  | c :: rest =>
    match indexOf alph c, indexAll alph rest with
    | some d, .ok ds => .ok (d :: ds)
    | _, _ => .error .invalidSymbol

/-- ALPHA.SYMAT's computation (41_alphabet.md R116, R117). -/
def alphaSymAtBody (alph : Alph) : Body := fun _ n _ =>
  if n.argA.toNat ≥ radixOf alph then .error .badArgument
  else .ok ([symbolAt alph n.argA.toNat], 0)

/-- ALPHA.INDEXOF's computation (41_alphabet.md R118, R119). -/
def alphaIndexOfBody (alph : Alph) : Body := fun _ _ bs =>
  match bs with
  | [c] =>
    match indexOf alph c with
    | some v => .ok ([], BitVec.ofNat 32 v)
    | none => .error .invalidSymbol
  | _ => .error .badArgument

/-- ALPHA.NORMALIZE's computation (41_alphabet.md R120). -/
def alphaNormalizeBody : Body := fun _ _ t => .ok (t.map norm32, 0)

/-- ALPHA.SYMAT.C32 (41_alphabet.md R116). -/
def execAlphaSymAtC32 (s : State) : Result := runNotReading (alphaSymAtBody .c32) s

/-- ALPHA.SYMAT.B58 (41_alphabet.md R117). -/
def execAlphaSymAtB58 (s : State) : Result := runNotReading (alphaSymAtBody .b58) s

/-- ALPHA.INDEXOF.C32 (41_alphabet.md R118). -/
def execAlphaIndexOfC32 (s : State) : Result := runReading (alphaIndexOfBody .c32) s

/-- ALPHA.INDEXOF.B58 (41_alphabet.md R119). -/
def execAlphaIndexOfB58 (s : State) : Result := runReading (alphaIndexOfBody .b58) s

/-- ALPHA.NORMALIZE.C32 (41_alphabet.md R120). -/
def execAlphaNormalizeC32 (s : State) : Result := runReading alphaNormalizeBody s

end Sys2Proof.Machine
end

