-- ==== Sys2Proof/Machine/PlainCodec.lean ====
section
/-! DEFINITION. PlainCodec (42_plain_codec.md): hex texts, plainEnc, plainDec, and the PLAIN commands. -/

namespace Sys2Proof.Machine

/-- hexval (42_plain_codec.md R130). -/
def hexval (c : Byte) : Option Nat :=
  if 0x30 ≤ c ∧ c ≤ 0x39 then some (c.toNat - 0x30)
  else if 0x61 ≤ c ∧ c ≤ 0x66 then some (c.toNat - 0x57)
  else if 0x41 ≤ c ∧ c ≤ 0x46 then some (c.toNat - 0x37)
  else none

/-- The values of a text's characters, or InvalidHex if any is no hex digit. -/
def hexvals : List Byte → Except ErrKind (List Nat)
  | [] => .ok []
  | c :: rest =>
    match hexval c, hexvals rest with
    | some v, .ok vs => .ok (v :: vs)
    | _, _ => .error .invalidHex

/-- Pairs of nibbles as bytes, high nibble first (20_memory.md R61). -/
def nibblePairs : List Nat → List Byte
  | hi :: lo :: rest => byteOf (16 * hi + lo) :: nibblePairs rest
  | _ => []

/-- A '0' before a text of odd length (42_plain_codec.md R130). -/
def evenNibbles (vs : List Nat) : List Nat := if vs.length % 2 = 1 then 0 :: vs else vs

/-- hexParse (42_plain_codec.md R130). The zero nibble is put before the values, where the spec puts the character
'0' before the text; its value is 0. -/
def hexParse (t : List Byte) : Except ErrKind (List Byte) :=
  match hexvals t with
  | .ok vs => .ok (nibblePairs (evenNibbles vs))
  | .error k => .error k

/-- The lowercase hex digit of a nibble (42_plain_codec.md R131). -/
def hexDigit (n : Nat) : Byte := if n < 10 then byteOf (0x30 + n) else byteOf (0x57 + n)

/-- hexRender (42_plain_codec.md R131). -/
def hexRender : List Byte → List Byte
  | [] => []
  | b :: rest => hexDigit (b.toNat / 16) :: hexDigit (b.toNat % 16) :: hexRender rest

/-- `x` put before the list until it has at least `m` elements: a floor, never a truncation (42_plain_codec.md R132,
R133; 93_implementation_defined.md S2). -/
def padFront (m : Nat) (x : Byte) (xs : List Byte) : List Byte := List.replicate (m - xs.length) x ++ xs

/-- The symbols of a digit list. -/
def symbolsOf (alph : Alph) (ds : List Nat) : List Byte := ds.map (symbolAt alph)

/-- plainEnc (42_plain_codec.md R132). -/
def plainEnc (alph : Alph) (bs : List Byte) (m : Nat) : List Byte :=
  padFront m (symbolAt alph 0) (symbolsOf alph (toDigits bs (radixOf alph)))

/-- plainDec (42_plain_codec.md R133). -/
def plainDec (alph : Alph) (t : List Byte) (m : Nat) : Except ErrKind (List Byte) :=
  match indexAll alph t with
  | .ok ds => .ok (padFront m 0 (toBytes ds (radixOf alph)))
  | .error k => .error k

/-- PLAIN.ENCODE's computation (42_plain_codec.md R134, R135). -/
def plainEncodeBody (alph : Alph) : Body := fun _ n h =>
  match hexParse h with
  | .ok bs => .ok (plainEnc alph bs n.argB.toNat, 0)
  | .error k => .error k

/-- PLAIN.DECODE's computation (42_plain_codec.md R136, R137). -/
def plainDecodeBody (alph : Alph) : Body := fun _ n t =>
  match plainDec alph t n.argB.toNat with
  | .ok bs => .ok (hexRender bs, 0)
  | .error k => .error k

/-- PLAIN.ENCODE.C32 (42_plain_codec.md R134). -/
def execPlainEncodeC32 (s : State) : Result := runReading (plainEncodeBody .c32) s

/-- PLAIN.ENCODE.B58 (42_plain_codec.md R135). -/
def execPlainEncodeB58 (s : State) : Result := runReading (plainEncodeBody .b58) s

/-- PLAIN.DECODE.C32 (42_plain_codec.md R136). -/
def execPlainDecodeC32 (s : State) : Result := runReading (plainDecodeBody .c32) s

/-- PLAIN.DECODE.B58 (42_plain_codec.md R137). -/
def execPlainDecodeB58 (s : State) : Result := runReading (plainDecodeBody .b58) s

end Sys2Proof.Machine
end

