-- ==== Sys2Proof/Machine/CheckCodec.lean ====
section
/-! DEFINITION. CheckCodec (44_check_codec.md): version, payload and checksum in either alphabet, and the CHECK
commands. -/

namespace Sys2Proof.Machine

/-- checkEncC32 (44_check_codec.md R151): the version is one symbol, before the encoded payload and checksum. -/
def checkEncC32 (c : Config) (v : Nat) (h : List Byte) : Except ErrKind (List Byte) :=
  if v > 31 then .error .invalidVersion
  else
    match hexParse h with
    | .error k => .error k
    | .ok p => .ok (symbolAt .c32 v :: plainEnc .c32 (p ++ checksum c (byteOf v :: p)) 0)

/-- checkEncB58 (44_check_codec.md R152): the version is one byte, converted with the rest. -/
def checkEncB58 (c : Config) (v : Nat) (h : List Byte) : Except ErrKind (List Byte) :=
  if v > 255 then .error .invalidVersion
  else
    match hexParse h with
    | .error k => .error k
    | .ok p => .ok (plainEnc .b58 (byteOf v :: p ++ checksum c (byteOf v :: p)) 0)

/-- The last check of both decoders (44_check_codec.md R153, R154): `body` is the payload and its 4 checksum bytes. -/
def splitCheck (c : Config) (v : Nat) (body : List Byte) : Except ErrKind (Nat × List Byte) :=
  let p := body.take (body.length - 4)
  if checksum c (byteOf v :: p) ≠ body.drop (body.length - 4) then .error .checksumMismatch
  else .ok (v, p)

/-- checkDecC32 (44_check_codec.md R153): InvalidSymbol over the whole text, then TooShort, then ChecksumMismatch. -/
def checkDecC32 (c : Config) (t : List Byte) : Except ErrKind (Nat × List Byte) :=
  match indexAll .c32 (t.map norm32) with
  | .error k => .error k
  | .ok [] => .error .tooShort
  | .ok (v :: ds) =>
    let bs := toBytes ds 32
    if bs.length < 4 then .error .tooShort else splitCheck c v bs

/-- checkDecB58 (44_check_codec.md R154). -/
def checkDecB58 (c : Config) (t : List Byte) : Except ErrKind (Nat × List Byte) :=
  match indexAll .b58 t with
  | .error k => .error k
  | .ok ds =>
    let bs := toBytes ds 58
    if bs.length < 5 then .error .tooShort else splitCheck c (bs.headD 0).toNat bs.tail

/-- What a decoding command returns: the payload as hex text and the version (44_check_codec.md R157). -/
def decodedResult (r : Except ErrKind (Nat × List Byte)) : Except ErrKind (List Byte × Word) :=
  match r with
  | .error k => .error k
  | .ok (v, p) => .ok (hexRender p, BitVec.ofNat 32 v)

/-- What an encoding command returns: its text, and 0 in OUT_VAL (44_check_codec.md R155). -/
def encodedResult (r : Except ErrKind (List Byte)) : Except ErrKind (List Byte × Word) :=
  match r with
  | .error k => .error k
  | .ok t => .ok (t, 0)

/-- CHECK.ENCODE.C32's computation (44_check_codec.md R155). -/
def checkEncodeC32Body : Body := fun c n h => encodedResult (checkEncC32 c n.argA.toNat h)

/-- CHECK.ENCODE.B58's computation (44_check_codec.md R156). -/
def checkEncodeB58Body : Body := fun c n h => encodedResult (checkEncB58 c n.argA.toNat h)

/-- CHECK.DECODE.C32's computation (44_check_codec.md R157). -/
def checkDecodeC32Body : Body := fun c _ t => decodedResult (checkDecC32 c t)

/-- CHECK.DECODE.B58's computation (44_check_codec.md R158). -/
def checkDecodeB58Body : Body := fun c _ t => decodedResult (checkDecB58 c t)

/-- CHECK.ENCODE.C32 (44_check_codec.md R155). -/
def execCheckEncodeC32 (s : State) : Result := runReading checkEncodeC32Body s

/-- CHECK.ENCODE.B58 (44_check_codec.md R156). -/
def execCheckEncodeB58 (s : State) : Result := runReading checkEncodeB58Body s

/-- CHECK.DECODE.C32 (44_check_codec.md R157). -/
def execCheckDecodeC32 (s : State) : Result := runReading checkDecodeC32Body s

/-- CHECK.DECODE.B58 (44_check_codec.md R158). -/
def execCheckDecodeB58 (s : State) : Result := runReading checkDecodeB58Body s

end Sys2Proof.Machine
end

