-- ==== Sys2Proof/Machine/AddressCodec.lean ====
section
/-! DEFINITION. AddressCodec (45_address_codec.md): the c32 check encoding of a 20-byte payload with the prefix `S`, and
the ADDR commands. -/

namespace Sys2Proof.Machine

/-- The prefix symbol `S` (45_address_codec.md R160). -/
def addrPrefix : Byte := 0x53

/-- addrEnc (45_address_codec.md R161): the length test counts characters and comes first. -/
def addrEnc (c : Config) (v : Nat) (h : List Byte) : Except ErrKind (List Byte) :=
  if h.length + h.length % 2 ≠ 40 then .error .invalidPayloadLength
  else
    match checkEncC32 c v h with
    | .error k => .error k
    | .ok t => .ok (addrPrefix :: t)

/-- addrDec (45_address_codec.md R162): the prefix is compared byte for byte, the rest is normalized. -/
def addrDec (c : Config) (t : List Byte) : Except ErrKind (Nat × List Byte) :=
  match t with
  | [] => .error .missingPrefix
  | x :: rest =>
    if x ≠ addrPrefix then .error .missingPrefix
    else
      match checkDecC32 c rest with
      | .error k => .error k
      | .ok (v, p) => if p.length ≠ 20 then .error .invalidPayloadLength else .ok (v, p)

/-- ADDR.ENCODE's computation (45_address_codec.md R163). -/
def addrEncodeBody : Body := fun c n h => encodedResult (addrEnc c n.argA.toNat h)

/-- ADDR.DECODE's computation (45_address_codec.md R164). -/
def addrDecodeBody : Body := fun c _ t => decodedResult (addrDec c t)

/-- ADDR.ENCODE (45_address_codec.md R163). -/
def execAddrEncode (s : State) : Result := runReading addrEncodeBody s

/-- ADDR.DECODE (45_address_codec.md R164). -/
def execAddrDecode (s : State) : Result := runReading addrDecodeBody s

end Sys2Proof.Machine
end

