-- ==== Sys2Proof/Machine/CrossBase.lean ====
section
/-! DEFINITION. CrossBaseConverter (46_cross_base.md): the version correspondence table, the target version, and the
XCONV commands. -/

namespace Sys2Proof.Machine

/-- The b58 version VMAP pairs with a c32 version (46_cross_base.md R170; log 19). -/
def vmapToB58 (vmap : List (Nat × Nat)) (v : Nat) : Option Nat :=
  match vmap with
  | [] => none
  | (c, b) :: rest => if c = v then some b else vmapToB58 rest v

/-- The c32 version VMAP pairs with a b58 version (46_cross_base.md R170; log 19). -/
def vmapToC32 (vmap : List (Nat × Nat)) (v : Nat) : Option Nat :=
  match vmap with
  | [] => none
  | (c, b) :: rest => if b = v then some c else vmapToC32 rest v

/-- resolve (46_cross_base.md R171): the explicit target version if TVEN is set, else the table's entry. -/
def resolve (tven : Bool) (explicit : Nat) (entry : Option Nat) : Except ErrKind Nat :=
  if tven then .ok explicit
  else
    match entry with
    | some v => .ok v
    | none => .error .noEquivalentVersion

/-- The text and the resolved target version (46_cross_base.md R172, R173; 92_eei_decisions.md D37). -/
def convertedResult (tv : Nat) (r : Except ErrKind (List Byte)) : Except ErrKind (List Byte × Word) :=
  match r with
  | .error k => .error k
  | .ok t => .ok (t, BitVec.ofNat 32 tv)

/-- XCONV.C32TOB58's computation (46_cross_base.md R172). -/
def xconvC32ToB58Body (tven : Bool) : Body := fun c n t =>
  match addrDec c t with
  | .error k => .error k
  | .ok (v, p) =>
    match resolve tven n.argA.toNat (vmapToB58 c.vmap v) with
    | .error k => .error k
    | .ok tv => convertedResult tv (checkEncB58 c tv (hexRender p))

/-- XCONV.B58TOC32's computation (46_cross_base.md R173; 90_conflicts.md C2). -/
def xconvB58ToC32Body (tven : Bool) : Body := fun c n t =>
  match checkDecB58 c t with
  | .error k => .error k
  | .ok (v, p) =>
    match resolve tven n.argA.toNat (vmapToC32 c.vmap v) with
    | .error k => .error k
    | .ok tv => convertedResult tv (addrEnc c tv (hexRender p))

/-- XCONV.C32TOB58 (46_cross_base.md R172). -/
def execXconvC32ToB58 (tven : Bool) (s : State) : Result := runReading (xconvC32ToB58Body tven) s

/-- XCONV.B58TOC32 (46_cross_base.md R173). -/
def execXconvB58ToC32 (tven : Bool) (s : State) : Result := runReading (xconvB58ToC32Body tven) s

end Sys2Proof.Machine
end

