-- ==== Sys2Proof/Machine/Dispatch.lean ====
section
/-! DEFINITION. What each command does: one arm per constructor, one call of its meaning. -/

namespace Sys2Proof.Machine

/-- The completion of the command in flight, once its word is decoded (60_exceptions.md R213, R214). -/
def exec (i : Instr) (s : State) : Host.Outcome State Fault Refusal :=
  match i with
  | .radixToDigits => Sys2Proof.Machine.execRadixToDigits s
  | .radixToBytes => Sys2Proof.Machine.execRadixToBytes s
  | .alphaSymAtC32 => Sys2Proof.Machine.execAlphaSymAtC32 s
  | .alphaSymAtB58 => Sys2Proof.Machine.execAlphaSymAtB58 s
  | .alphaIndexOfC32 => Sys2Proof.Machine.execAlphaIndexOfC32 s
  | .alphaIndexOfB58 => Sys2Proof.Machine.execAlphaIndexOfB58 s
  | .alphaNormalizeC32 => Sys2Proof.Machine.execAlphaNormalizeC32 s
  | .checksum => Sys2Proof.Machine.execChecksum s
  | .plainEncodeC32 => Sys2Proof.Machine.execPlainEncodeC32 s
  | .plainEncodeB58 => Sys2Proof.Machine.execPlainEncodeB58 s
  | .plainDecodeC32 => Sys2Proof.Machine.execPlainDecodeC32 s
  | .plainDecodeB58 => Sys2Proof.Machine.execPlainDecodeB58 s
  | .checkEncodeC32 => Sys2Proof.Machine.execCheckEncodeC32 s
  | .checkEncodeB58 => Sys2Proof.Machine.execCheckEncodeB58 s
  | .checkDecodeC32 => Sys2Proof.Machine.execCheckDecodeC32 s
  | .checkDecodeB58 => Sys2Proof.Machine.execCheckDecodeB58 s
  | .addrEncode => Sys2Proof.Machine.execAddrEncode s
  | .addrDecode => Sys2Proof.Machine.execAddrDecode s
  | .xconvC32ToB58 tven => Sys2Proof.Machine.execXconvC32ToB58 tven s
  | .xconvB58ToC32 tven => Sys2Proof.Machine.execXconvB58ToC32 tven s

end Sys2Proof.Machine
end

