-- ==== Sys2Proof/WellFormed.lean ====
section
/-! DEFINITION. Which command-word fields are well formed: the four conditions of `legal` in 30_encoding.md R77, one
check each. A term of `Instr` has no ill-formed value; the raw fields do. -/

namespace Sys2Proof

/-- The OP values R77 lists. -/
def CmdFields.opAssigned (f : CmdFields) : Bool :=
  f.op.toNat ∈ [0x01, 0x02, 0x03, 0x04, 0x05, 0x06, 0x08, 0x09, 0x0A, 0x0B, 0x0C, 0x0D, 0x10, 0x11]

/-- Reserved bits 31:10 and 7:6 are clear (30_encoding.md R74). -/
def CmdFields.reservedClear (f : CmdFields) : Bool :=
  f.rsvHigh == 0 && f.rsvLow == 0

/-- ALPH only on the per-alphabet commands (30_encoding.md R72). -/
def CmdFields.alphAllowed (f : CmdFields) : Bool :=
  !f.alph || decide (f.op.toNat ∈ [0x03, 0x04, 0x08, 0x09, 0x0A, 0x0B])

/-- TVEN only on the XCONV commands (30_encoding.md R73). -/
def CmdFields.tvenAllowed (f : CmdFields) : Bool :=
  !f.tven || decide (f.op.toNat ∈ [0x10, 0x11])

/-- The fields of a legal command word (30_encoding.md R77). -/
def CmdFields.wf (f : CmdFields) : Bool :=
  f.opAssigned && f.reservedClear && f.alphAllowed && f.tvenAllowed

end Sys2Proof
end

