-- ==== Sys2Proof/Decode.lean ====
section
/-! DEFINITION. Command words to commands and back (30_encoding.md R70-R78): the decoder, total on every word and
rejecting by name, the encoder, and the opcode map as a table of masks and match values. -/

namespace Sys2Proof

/-- Why a word is no command (30_encoding.md R77). Every one of them completes with BadCommand. -/
inductive DecodeError where
  /-- A bit of 31:10 or 7:6 is set (R74). -/
  | reservedBit
  /-- OP is one of 0x00, 0x07, 0x0E, 0x0F, 0x12-0x3F (R77). -/
  | reservedOp
  /-- ALPH = 1 on a command without a choice of alphabet (R72). -/
  | alphNotAllowed
  /-- TVEN = 1 outside XCONV (R73). -/
  | tvenNotAllowed
  deriving DecidableEq, Repr

/-- The fields of a word (30_encoding.md R70). -/
def unpack (w : Word) : CmdFields :=
  { op := w.extractLsb' 0 6
    rsvLow := w.extractLsb' 6 2
    alph := w.getLsbD 8
    tven := w.getLsbD 9
    rsvHigh := w.extractLsb' 10 22 }

/-- The word with the given fields (30_encoding.md R70). -/
def pack (f : CmdFields) : Word :=
  f.rsvHigh ++ BitVec.ofBool f.tven ++ BitVec.ofBool f.alph ++ f.rsvLow ++ f.op

/-- A command with neither option: ALPH and TVEN must be 0. -/
def decodePlain (i : Instr) (f : CmdFields) : Except DecodeError Instr :=
  if f.alph then .error .alphNotAllowed
  else if f.tven then .error .tvenNotAllowed
  else .ok i

/-- A per-alphabet command: ALPH chooses between its two rows (30_encoding.md R72). -/
def decodePerAlph (c32 b58 : Instr) (f : CmdFields) : Except DecodeError Instr :=
  if f.tven then .error .tvenNotAllowed
  else .ok (if f.alph then b58 else c32)

/-- An XCONV command: TVEN is free, ALPH must be 0 (30_encoding.md R73). -/
def decodeXconv (i : Bool → Instr) (f : CmdFields) : Except DecodeError Instr :=
  if f.alph then .error .alphNotAllowed
  else .ok (i f.tven)

/-- The opcode map, by fields (30_encoding.md R76, R77). -/
def decodeFields (f : CmdFields) : Except DecodeError Instr :=
  if f.rsvHigh ≠ 0 ∨ f.rsvLow ≠ 0 then .error .reservedBit
  else
    match f.op.toNat with
    | 0x01 => decodePlain .radixToDigits f
    | 0x02 => decodePlain .radixToBytes f
    | 0x03 => decodePerAlph .alphaSymAtC32 .alphaSymAtB58 f
    | 0x04 => decodePerAlph .alphaIndexOfC32 .alphaIndexOfB58 f
    | 0x05 => decodePlain .alphaNormalizeC32 f
    | 0x06 => decodePlain .checksum f
    | 0x08 => decodePerAlph .plainEncodeC32 .plainEncodeB58 f
    | 0x09 => decodePerAlph .plainDecodeC32 .plainDecodeB58 f
    | 0x0A => decodePerAlph .checkEncodeC32 .checkEncodeB58 f
    | 0x0B => decodePerAlph .checkDecodeC32 .checkDecodeB58 f
    | 0x0C => decodePlain .addrEncode f
    | 0x0D => decodePlain .addrDecode f
    | 0x10 => decodeXconv .xconvC32ToB58 f
    | 0x11 => decodeXconv .xconvB58ToC32 f
    | _ => .error .reservedOp

/-- The command a word stands for, or why it stands for none. -/
def decode (w : Word) : Except DecodeError Instr := decodeFields (unpack w)

/-- A command's fields: the columns OP, ALPH and TVEN of 30_encoding.md R76. -/
def fieldsOf : Instr → CmdFields
  | .radixToDigits => ⟨0x01, 0, false, false, 0⟩
  | .radixToBytes => ⟨0x02, 0, false, false, 0⟩
  | .alphaSymAtC32 => ⟨0x03, 0, false, false, 0⟩
  | .alphaSymAtB58 => ⟨0x03, 0, true, false, 0⟩
  | .alphaIndexOfC32 => ⟨0x04, 0, false, false, 0⟩
  | .alphaIndexOfB58 => ⟨0x04, 0, true, false, 0⟩
  | .alphaNormalizeC32 => ⟨0x05, 0, false, false, 0⟩
  | .checksum => ⟨0x06, 0, false, false, 0⟩
  | .plainEncodeC32 => ⟨0x08, 0, false, false, 0⟩
  | .plainEncodeB58 => ⟨0x08, 0, true, false, 0⟩
  | .plainDecodeC32 => ⟨0x09, 0, false, false, 0⟩
  | .plainDecodeB58 => ⟨0x09, 0, true, false, 0⟩
  | .checkEncodeC32 => ⟨0x0A, 0, false, false, 0⟩
  | .checkEncodeB58 => ⟨0x0A, 0, true, false, 0⟩
  | .checkDecodeC32 => ⟨0x0B, 0, false, false, 0⟩
  | .checkDecodeB58 => ⟨0x0B, 0, true, false, 0⟩
  | .addrEncode => ⟨0x0C, 0, false, false, 0⟩
  | .addrDecode => ⟨0x0D, 0, false, false, 0⟩
  | .xconvC32ToB58 tven => ⟨0x10, 0, false, tven, 0⟩
  | .xconvB58ToC32 tven => ⟨0x11, 0, false, tven, 0⟩

/-- The command word of a command: every `Instr` is well formed, so every one has a word. -/
def encode (i : Instr) : Word := pack (fieldsOf i)

/-- A row of the opcode map in its machine-readable form: a word selects it when (w AND mask) = pattern, and then
stands for one of `commands` (30_encoding.md R76). -/
structure OpcodeRow where
  mnemonic : String
  pattern : Word
  mask : Word
  commands : List Instr
  deriving DecidableEq, Repr

/-- The opcode map of 30_encoding.md R76, row for row. -/
def opcodeTable : List OpcodeRow :=
  [ ⟨"RADIX.TODIGITS", 0x00000001, 0xFFFFFFFF, [.radixToDigits]⟩,
    ⟨"RADIX.TOBYTES", 0x00000002, 0xFFFFFFFF, [.radixToBytes]⟩,
    ⟨"ALPHA.SYMAT.C32", 0x00000003, 0xFFFFFFFF, [.alphaSymAtC32]⟩,
    ⟨"ALPHA.SYMAT.B58", 0x00000103, 0xFFFFFFFF, [.alphaSymAtB58]⟩,
    ⟨"ALPHA.INDEXOF.C32", 0x00000004, 0xFFFFFFFF, [.alphaIndexOfC32]⟩,
    ⟨"ALPHA.INDEXOF.B58", 0x00000104, 0xFFFFFFFF, [.alphaIndexOfB58]⟩,
    ⟨"ALPHA.NORMALIZE.C32", 0x00000005, 0xFFFFFFFF, [.alphaNormalizeC32]⟩,
    ⟨"CHECKSUM", 0x00000006, 0xFFFFFFFF, [.checksum]⟩,
    ⟨"PLAIN.ENCODE.C32", 0x00000008, 0xFFFFFFFF, [.plainEncodeC32]⟩,
    ⟨"PLAIN.ENCODE.B58", 0x00000108, 0xFFFFFFFF, [.plainEncodeB58]⟩ ] ++
  [ ⟨"PLAIN.DECODE.C32", 0x00000009, 0xFFFFFFFF, [.plainDecodeC32]⟩,
    ⟨"PLAIN.DECODE.B58", 0x00000109, 0xFFFFFFFF, [.plainDecodeB58]⟩,
    ⟨"CHECK.ENCODE.C32", 0x0000000A, 0xFFFFFFFF, [.checkEncodeC32]⟩,
    ⟨"CHECK.ENCODE.B58", 0x0000010A, 0xFFFFFFFF, [.checkEncodeB58]⟩,
    ⟨"CHECK.DECODE.C32", 0x0000000B, 0xFFFFFFFF, [.checkDecodeC32]⟩,
    ⟨"CHECK.DECODE.B58", 0x0000010B, 0xFFFFFFFF, [.checkDecodeB58]⟩,
    ⟨"ADDR.ENCODE", 0x0000000C, 0xFFFFFFFF, [.addrEncode]⟩,
    ⟨"ADDR.DECODE", 0x0000000D, 0xFFFFFFFF, [.addrDecode]⟩,
    ⟨"XCONV.C32TOB58", 0x00000010, 0xFFFFFDFF, [.xconvC32ToB58 false, .xconvC32ToB58 true]⟩,
    ⟨"XCONV.B58TOC32", 0x00000011, 0xFFFFFDFF, [.xconvB58ToC32 false, .xconvB58ToC32 true]⟩ ]

/-- Byte `k` of a word in the block's lane order: byte 0 is bits 7:0 (20_memory.md R54). -/
def laneByte (w : Word) (k : Nat) : Byte := w.extractLsb' (8 * k) 8

/-- The word of four bytes in lane order (20_memory.md R54). -/
def wordOfLanes (b0 b1 b2 b3 : Byte) : Word := b3 ++ b2 ++ b1 ++ b0

/-- The decoder on the bytes of a command word, lowest offset first; it returns the command and the bytes after it.
Fewer than four bytes are no command: every command is one 32-bit word (30_encoding.md R70). -/
def decodeBytes : List Byte → Option (Except DecodeError Instr × List Byte)
  | b0 :: b1 :: b2 :: b3 :: rest => some (decode (wordOfLanes b0 b1 b2 b3), rest)
  | _ => none

/-- The 32-bit word of the host's numbering: bits at and above `nbits` are 0. -/
def tableWord (nbits w : Nat) : Word := BitVec.ofNat 32 (w % 2 ^ nbits)

/-- The command the decoder reads from a table word laid out in its four bytes. -/
def decodeTableWord (nbits w : Nat) : Option Instr :=
  let v := tableWord nbits w
  match decodeBytes [laneByte v 0, laneByte v 1, laneByte v 2, laneByte v 3] with
  | some (.ok i, _) => some i
  | _ => none

end Sys2Proof
end

