-- ==== Sys2Proof/Machine/Port.lean ====
section
/-! DEFINITION. The host port (20_memory.md): which accesses the block admits, the window map, and what reads and
writes do. -/

namespace Sys2Proof.Machine

/-- The offset of a register (10_state.md R20). -/
def regOffset : Reg → Offset
  | .id => 0x000
  | .cap => 0x004
  | .ctrl => 0x008
  | .cmd => 0x00C
  | .status => 0x010
  | .errcode => 0x014
  | .argA => 0x018
  | .argB => 0x01C
  | .inLen => 0x020
  | .outLen => 0x024
  | .outVal => 0x028

/-- All registers, in the order of their offsets. -/
def allRegs : List Reg := [.id, .cap, .ctrl, .cmd, .status, .errcode, .argA, .argB, .inLen, .outLen, .outVal]

/-- The register at an offset, if there is one; every other offset of the register region is reserved. -/
def regAt (off : Offset) : Option Reg := allRegs.find? (fun r => regOffset r == off)

/-- Where an offset lies in the window map (20_memory.md R51). Buffer regions carry the index into their buffer. -/
inductive Region where
  | registers
  | inWindow (i : Nat)
  | outWindow (i : Nat)
  | reserved
  deriving DecidableEq, Repr

/-- The window map (20_memory.md R51). -/
def regionOf (off : Offset) : Region :=
  if off.toNat < 0x400 then .registers
  else if off.toNat < 0x800 then .inWindow (off.toNat - 0x400)
  else if off.toNat < 0xC00 then .outWindow (off.toNat - 0x800)
  else .reserved

/-- The accesses the block admits: 32-bit at offsets that are multiples of 4 anywhere, and 8-bit outside the register
region (20_memory.md R52, R53, R54; log 13 for 8-bit accesses to 0xC00-0xFFF). -/
def admitted (bytes : Nat) (off : Offset) : Bool :=
  (bytes == 4 && off.toNat % 4 == 0) || (bytes == 1 && decide (0x400 ≤ off.toNat))

/-- The byte a host reads from IN[i], i < BUF_CAP: what it wrote, or an unspecified byte that stays the same until the
next reset (10_state.md R35, 20_memory.md R55; log 8). -/
def State.inByte (s : State) (i : Nat) : Byte := (s.inBuf.read i).getD (Config.unwrittenIn s.epoch i)

/-- One byte of a host read outside the register region, and the state after it. Only an OUT byte without a defined
value draws (10_state.md R36, 20_memory.md R55; log 7); offsets at or beyond BUF_CAP and reserved ones read zero
(20_memory.md R57). -/
def State.readByte (s : State) (off : Offset) : Byte × State :=
  match regionOf off with
  | .inWindow i => if i < s.cfg.bufCap then (s.inByte i, s) else (0, s)
  | .outWindow i =>
    if i < s.cfg.bufCap then
      match s.outBuf.read i with
      | some b => (b, s)
      | none => (Config.anyByte s.drawn, { s with drawn := s.drawn + 1 })
    else (0, s)
  | _ => (0, s)

/-- An aligned 32-bit host read outside the register region: its four bytes, lowest offset first (20_memory.md R54). -/
def State.readLanes (s : State) (off : Offset) : Word × State :=
  let r0 := s.readByte off
  let r1 := r0.2.readByte (off + 1)
  let r2 := r1.2.readByte (off + 2)
  let r3 := r2.2.readByte (off + 3)
  (wordOfLanes r0.1 r1.1 r2.1 r3.1, r3.2)

/-- An aligned 32-bit host read of the register region (20_memory.md R52, R57). -/
def State.readRegister (s : State) (off : Offset) : Word :=
  match regAt off with
  | some r => s.regRead r
  | none => 0

/-- An admitted host read: the answer goes to `readData` (log 10). -/
def State.hostRead (s : State) (bytes : Nat) (off : Offset) : State :=
  if off.toNat < 0x400 then { s with readData := some (s.readRegister off) }
  else if bytes = 4 then
    let r := s.readLanes off
    { r.2 with readData := some r.1 }
  else
    let r := s.readByte off
    { r.2 with readData := some (r.1.setWidth 32) }

/-- A write the block drops because STATUS.BUSY = 1 (10_state.md R28, 70_reset_and_hazards.md R235). -/
def State.dropWrite (s : State) : State := { s with overrun := true }

/-- A host write to a register (10_state.md R20-R34). CTRL and STATUS take effect at once, even while BUSY; the
read-only registers ignore writes. -/
def State.writeReg (s : State) (r : Reg) (v : Word) : State :=
  match r with
  | .ctrl => { s with ie := v.getLsbD 0 }
  | .status => s.writeStatus v
  | .cmd => if s.busy then s.dropWrite else s.start v
  | .argA => if s.busy then s.dropWrite else { s with argA := v }
  | .argB => if s.busy then s.dropWrite else { s with argB := v }
  | .inLen => if s.busy then s.dropWrite else { s with inLen := v }
  | .id => s
  | .cap => s
  | .errcode => s
  | .outLen => s
  | .outVal => s

/-- One byte of a host write outside the register region. Only IN bytes below BUF_CAP take it; while BUSY it is dropped
(10_state.md R35; 20_memory.md R51, R57; log 14). -/
def State.writeByte (s : State) (off : Offset) (b : Byte) : State :=
  match regionOf off with
  | .inWindow i =>
    if i < s.cfg.bufCap then
      if s.busy then s.dropWrite else { s with inBuf := s.inBuf.write i b }
    else s
  | _ => s

/-- An aligned 32-bit host write outside the register region: its four bytes (20_memory.md R54). -/
def State.writeLanes (s : State) (off : Offset) (v : Word) : State :=
  (((s.writeByte off (laneByte v 0)).writeByte (off + 1) (laneByte v 1)).writeByte (off + 2)
    (laneByte v 2)).writeByte (off + 3) (laneByte v 3)

/-- An admitted host write. -/
def State.hostWrite (s : State) (bytes : Nat) (off : Offset) (v : Word) : State :=
  if off.toNat < 0x400 then
    match regAt off with
    | some r => s.writeReg r v
    | none => s
  else if bytes = 4 then s.writeLanes off v
  else s.writeByte off (laneByte v 0)

/-- A host access: none is answered while RESET is asserted, and an access the block does not admit gets a bus error
(70_reset_and_hazards.md R230; 20_memory.md R53). -/
def hostAccess (a : Access) (s : State) : Result :=
  if s.resetAsserted then .refused .accessInReset
  else
    match a with
    | .read bytes off => if admitted bytes off then .next (s.hostRead bytes off) else .refused .busError
    | .write bytes off v => if admitted bytes off then .next (s.hostWrite bytes off v) else .refused .busError

/-- The host address of an offset (20_memory.md R50). -/
def hostAddress (c : Config) (off : Offset) : Nat := c.base + off.toNat

/-- The offset a host address reaches, if it lies in the block's window (20_memory.md R50). -/
def offsetOf (c : Config) (addr : Nat) : Option Offset :=
  if c.base ≤ addr ∧ addr < c.base + 4096 then some (BitVec.ofNat 12 (addr - c.base)) else none

end Sys2Proof.Machine
end

