-- ==== Sys2Proof/Machine/Engine.lean ====
section
/-! DEFINITION. The engine's step and what each event does: completion of the command in flight, legal or not
(60_exceptions.md R213, R214), host accesses, and the RESET input. -/

namespace Sys2Proof.Machine

/-- Completion of the command in flight. A word that is not legal reads no operand and completes with BadCommand
(30_encoding.md R77, 60_exceptions.md R209). -/
def complete (s : State) : Result :=
  match decode s.snap.word with
  | .ok i => exec i s
  | .error _ => .next (s.completeErr .badCommand)

/-- The engine's turn. It completes the command in flight; with none, or while RESET is asserted, it does nothing
(60_exceptions.md R225; 70_reset_and_hazards.md R232; logs 12, 16). -/
def engineTurn (s : State) : Result :=
  if s.resetAsserted then .next s
  else
    match s.phase with
    | .busy => complete s
    | .idle => .next s

/-- RESET goes to asserted. The command in flight is lost, because the engine has no turn until the release, which
clears it (70_reset_and_hazards.md R230, R232; log 12). -/
def State.assertReset (s : State) : State := { s with resetAsserted := true }

/-- RESET is released: the reset values, in one step (70_reset_and_hazards.md R230, R231). A release of an input that
is not asserted changes nothing. -/
def State.releaseReset (s : State) : State := if s.resetAsserted then s.afterReset else s

/-- What an event does. -/
def perform (e : Event) (s : State) : Result :=
  match e with
  | .access a => hostAccess a s
  | .engine => engineTurn s
  | .assertReset => .next s.assertReset
  | .releaseReset => .next s.releaseReset

/-- The inbox that gives the engine the next turn and keeps what waits (log 2). -/
def engineNext (inbox : List Event) : List Event :=
  match inbox with
  | [] => []
  | e :: rest => .engine :: e :: rest

/-- The state in which the word `v` has just been accepted by CMD and the engine has the next turn (log 2). -/
def State.accepted (s : State) (v : Word) : State :=
  { s.start v with resetAsserted := false, inbox := engineNext s.inbox }

end Sys2Proof.Machine
end

