-- ==== Sys2Proof/Machine/Step.lean ====
section
/-! DEFINITION. One step of the block, and the state whose next step runs a given command word. -/

namespace Sys2Proof.Machine

/-- One step: the next event of the inbox, or, when nothing waits there, the engine's turn (00_scope.md R1; log 1). -/
def step (s : State) : Host.Outcome State Fault Refusal :=
  match s.inbox with
  | [] => engineTurn s
  | e :: rest => perform e { s with inbox := rest }

/-- `s` with a table word accepted by CMD, so that the very next step completes it (log 2). -/
def State.withFetchWord (s : State) (nbits w : Nat) : State := s.accepted (tableWord nbits w)

end Sys2Proof.Machine
end

