-- ==== Sys2Proof/Machine/Script.lean ====
section
/-! DEFINITION. The host command script (30_encoding.md R79, R80): a notation for host accesses. -/

namespace Sys2Proof.Machine.Script

/-- `sw <reg>, <imm32>`. -/
def sw (r : Reg) (v : Word) : Event := .access (.write 4 (regOffset r) v)

/-- `lw <reg>`. -/
def lw (r : Reg) : Event := .access (.read 4 (regOffset r))

/-- `sb IN+<i>, <imm8>`. -/
def sbIn (i : Nat) (b : Byte) : Event := .access (.write 1 (BitVec.ofNat 12 (0x400 + i)) (b.setWidth 32))

/-- `lb OUT+<i>`. -/
def lbOut (i : Nat) : Event := .access (.read 1 (BitVec.ofNat 12 (0x800 + i)))

/-- The byte writes of `ldin`, from offset `i` on. -/
def storeText (i : Nat) : List Byte → List Event
  | [] => []
  | b :: rest => sbIn i b :: storeText (i + 1) rest

/-- `ldin "<text>"`. -/
def ldin (text : List Byte) : List Event := storeText 0 text ++ [sw .inLen (BitVec.ofNat 32 text.length)]

/-- `go <MNEMONIC>[.TV]`. -/
def go (i : Instr) : List Event := [sw .cmd (encode i)]

/-- `wait` that reads STATUS `k` times. How often it reads depends on the latency, so the number is given (log 23). -/
def wait (k : Nat) : List Event := List.replicate k (lw .status)

/-- `ack`. -/
def ack : List Event := [sw .status 2]

/-- `rdout` for a result of `n` bytes (log 23). -/
def rdout (n : Nat) : List Event := lw .outLen :: (List.range n).map lbOut

end Sys2Proof.Machine.Script
end

