-- ==== Sys2Proof/Safety.lean ====
section
/-! DEFINITION. The words claims are written in: what the operands of a command are, the number a digit list denotes,
hex texts and alphabet texts as relations, which command reads and raises what, and the invariant of the block. None of
it is used by the machine. -/

namespace Sys2Proof.Machine

/-- IN[0..IN_LEN) of the command in flight is the list `t`, every byte of it written, and it fits the buffer. -/
structure HasInput (s : State) (t : List Byte) : Prop where
  len : s.snap.inLen.toNat = t.length
  fits : t.length ≤ s.cfg.bufCap
  bytes : ∀ k, k < t.length → s.inBuf.read k = t[k]?

/-- OUT[0..OUT_LEN) is the list `t`, every byte of it defined. -/
structure HasOutput (s : State) (t : List Byte) : Prop where
  len : s.outLen.toNat = t.length
  bytes : ∀ k, k < t.length → s.outBuf.read k = t[k]?

/-- Σ x_i · R^(n−1−i), the number a most-significant-first list denotes (20_memory.md R58, R59; 40_radix.md R101). -/
def valueOf (R : Nat) : List Nat → Nat
  | [] => 0
  | x :: xs => x * R ^ xs.length + valueOf R xs

/-- `ys` are digits below `dst` for the same number as the digits `xs` of radix `src`, with as many leading zeros: what
40_radix.md R102 and R103 make of `xs`. -/
structure SameNumber (src dst : Nat) (xs ys : List Nat) : Prop where
  zeros : lz ys = lz xs
  below : ∀ d ∈ ys, d < dst
  value : valueOf dst ys = valueOf src xs

/-- The text is `v` in one hex digit, of either case (42_plain_codec.md R130). -/
def IsHexDigit (c : Byte) (v : Nat) : Prop :=
  (v < 10 ∧ c.toNat = 0x30 + v) ∨ (10 ≤ v ∧ v < 16 ∧ (c.toNat = 0x57 + v ∨ c.toNat = 0x37 + v))

/-- `h` is a hex text of the bytes `bs`, two characters a byte, high nibble first; a text of odd length stands for the
same text with '0' before it (20_memory.md R61, 42_plain_codec.md R130). -/
def HexText (h bs : List Byte) : Prop :=
  let g := if h.length % 2 = 1 then 0x30 :: h else h
  g.length = 2 * bs.length ∧
    ∀ k b, bs[k]? = some b →
      (∃ c, g[2 * k]? = some c ∧ IsHexDigit c (b.toNat / 16)) ∧
      (∃ c, g[2 * k + 1]? = some c ∧ IsHexDigit c (b.toNat % 16))

/-- Some character of the text is no hex digit. -/
def NotHex (h : List Byte) : Prop := ∃ c ∈ h, ∀ v, ¬ IsHexDigit c v

/-- The normalization an alphabet applies before a lookup: c32's homoglyphs, none for b58 (41_alphabet.md R113, R115). -/
def normFor : Alph → Byte → Byte
  | .c32, c => norm32 c
  | .b58, c => c

/-- The text `t` spells the digits `ds` in the alphabet (41_alphabet.md R112, R114, R115). -/
def Spells (alph : Alph) (t : List Byte) (ds : List Nat) : Prop :=
  t.map (normFor alph) = ds.map (symbolAt alph) ∧ ∀ d ∈ ds, d < radixOf alph

/-- Some character of the text is no symbol of the alphabet. -/
def NotSymbols (alph : Alph) (t : List Byte) : Prop := ∃ c ∈ t, normFor alph c ∉ tableOf alph

/-- The version byte, payload and checksum agree (43_checksum.md R142). -/
abbrev Checked (c : Config) (v : Nat) (p sum : List Byte) : Prop := checksum c (byteOf v :: p) = sum

/-- The text `t` is a c32 check encoding of version `v` and payload `p`: one version symbol, then the digits of payload
and checksum (44_check_codec.md R151, R153). -/
def IsCheckC32 (c : Config) (t : List Byte) (v : Nat) (p : List Byte) : Prop :=
  ∃ ds sum, Spells .c32 t (v :: ds) ∧ sum.length = 4 ∧ SameNumber 32 256 ds (natsOf (p ++ sum)) ∧ Checked c v p sum

/-- The text `t` is a b58 check encoding of version `v` and payload `p` (44_check_codec.md R152, R154). -/
def IsCheckB58 (c : Config) (t : List Byte) (v : Nat) (p : List Byte) : Prop :=
  ∃ ds sum, v < 256 ∧ Spells .b58 t ds ∧ sum.length = 4 ∧
    SameNumber 58 256 ds (natsOf (byteOf v :: p ++ sum)) ∧ Checked c v p sum

/-- The text `t` is a c32 address of version `v` and payload `p` (45_address_codec.md R160-R162). -/
def IsAddress (c : Config) (t : List Byte) (v : Nat) (p : List Byte) : Prop :=
  ∃ rest, t = 0x53 :: rest ∧ p.length = 20 ∧ IsCheckC32 c rest v p

/-- Uppercase and without homoglyphs: every character is itself a c32 symbol (45_address_codec.md R165). -/
def CanonicalC32 (t : List Byte) : Prop := ∀ c ∈ t, c ∈ c32Table

/-- PLAIN.ENCODE of an alphabet. -/
def plainEncodeOf : Alph → Instr
  | .c32 => .plainEncodeC32
  | .b58 => .plainEncodeB58

/-- PLAIN.DECODE of an alphabet. -/
def plainDecodeOf : Alph → Instr
  | .c32 => .plainDecodeC32
  | .b58 => .plainDecodeB58

/-- ALPHA.SYMAT of an alphabet. -/
def symAtOf : Alph → Instr
  | .c32 => .alphaSymAtC32
  | .b58 => .alphaSymAtB58

/-- ALPHA.INDEXOF of an alphabet. -/
def indexOfOf : Alph → Instr
  | .c32 => .alphaIndexOfC32
  | .b58 => .alphaIndexOfB58

/-- The commands that read IN[0..IN_LEN): all but ALPHA.SYMAT (70_reset_and_hazards.md R233). -/
def readsInput : Instr → Bool
  | .alphaSymAtC32 => false
  | .alphaSymAtB58 => false
  | _ => true

/-- The commands for which the table of 30_encoding.md R75 names an ARG_A operand. -/
def usesArgA : Instr → Bool
  | .radixToDigits | .radixToBytes | .alphaSymAtC32 | .alphaSymAtB58 => true
  | .checkEncodeC32 | .checkEncodeB58 | .addrEncode => true
  | .xconvC32ToB58 tven => tven
  | .xconvB58ToC32 tven => tven
  | _ => false

/-- The commands for which the table of 30_encoding.md R75 names an ARG_B operand. -/
def usesArgB : Instr → Bool
  | .plainEncodeC32 | .plainEncodeB58 | .plainDecodeC32 | .plainDecodeB58 => true
  | _ => false

/-- The kinds a command can raise once its word is legal and IN_LEN ≤ BUF_CAP: the "raised by" lists of
60_exceptions.md R201-R208, R210 and, for CapacityExceeded, case (b) of R211. -/
def errorsOf : Instr → List ErrKind
  | .radixToDigits => [.badArgument, .capacityExceeded]
  | .radixToBytes => [.badArgument]
  | .alphaSymAtC32 | .alphaSymAtB58 => [.badArgument]
  | .alphaIndexOfC32 | .alphaIndexOfB58 => [.badArgument, .invalidSymbol]
  | .alphaNormalizeC32 | .checksum => []
  | .plainEncodeC32 | .plainEncodeB58 => [.invalidHex, .capacityExceeded]
  | .plainDecodeC32 | .plainDecodeB58 => [.invalidSymbol, .capacityExceeded]
  | .checkEncodeC32 | .checkEncodeB58 => [.invalidVersion, .invalidHex, .capacityExceeded]
  | .checkDecodeC32 | .checkDecodeB58 => [.invalidSymbol, .tooShort, .checksumMismatch, .capacityExceeded]
  | .addrEncode => [.invalidPayloadLength, .invalidVersion, .invalidHex]
  | .addrDecode => [.missingPrefix, .invalidSymbol, .tooShort, .checksumMismatch, .invalidPayloadLength]
  | .xconvC32ToB58 tven =>
    [.missingPrefix, .invalidSymbol, .tooShort, .checksumMismatch, .invalidPayloadLength,
      if tven then .invalidVersion else .noEquivalentVersion]
  | .xconvB58ToC32 tven =>
    [.invalidSymbol, .tooShort, .checksumMismatch, .invalidPayloadLength,
      if tven then .invalidVersion else .noEquivalentVersion]

/-- Two completions with the same result: the same error code, result registers and OUT bytes, or both the model
fault. -/
def SameResult (r r' : Result) : Prop :=
  match r, r' with
  | .next t, .next t' =>
    t.errcode = t'.errcode ∧ t.outLen = t'.outLen ∧ t.outVal = t'.outVal ∧ ∀ k, t.outBuf.read k = t'.outBuf.read k
  | .fault f, .fault f' => f = f'
  | _, _ => False

/-- A host access the block admits, other than by a change of RESET: what the inbox may hold while a command waits to
complete. -/
def isOrdinary : Event → Bool
  | .access (.read bytes off) => admitted bytes off
  | .access (.write bytes off _) => admitted bytes off
  | .engine => true
  | .assertReset => false
  | .releaseReset => false

/-- The invariant of the block: what every step keeps. -/
structure State.Inv (s : State) : Prop where
  /-- The parameters are within the spec's constraints (00_scope.md R3, 20_memory.md R50, 46_cross_base.md R170). -/
  config : s.cfg.wf = true
  /-- The IN buffer's list is canonical. -/
  inForm : s.inBuf.wf = true
  /-- No IN byte at or beyond BUF_CAP exists (10_state.md R35). -/
  inRange : ∀ k, s.cfg.bufCap ≤ k → s.inBuf.read k = none
  /-- The OUT buffer's list is canonical. -/
  outForm : s.outBuf.wf = true
  /-- The defined OUT bytes are exactly those below OUT_LEN (10_state.md R36, 70_reset_and_hazards.md R237). -/
  outDefined : ∀ k, (s.outBuf.read k).isSome = decide (k < s.outLen.toNat)
  /-- OUT_LEN ≤ BUF_CAP (10_state.md R33). -/
  outFits : s.outLen.toNat ≤ s.cfg.bufCap
  /-- ERRCODE is a code the block writes (60_exceptions.md R200; 93_implementation_defined.md U13). -/
  errKnown : s.errcode.toNat ≤ 11
  /-- An error leaves no result (60_exceptions.md R213). -/
  errNoResult : s.errcode ≠ 0 → s.outLen = 0 ∧ s.outVal = 0
  /-- While BUSY, DONE is 0 (10_state.md R25) and the result registers hold the zeros of the start
  (70_reset_and_hazards.md R236). -/
  busyNoResult : s.phase = .busy → s.done = false ∧ s.errcode = 0 ∧ s.outLen = 0 ∧ s.outVal = 0
  /-- While BUSY, SNAP equals the live registers (10_state.md R40). -/
  busySnap : s.phase = .busy → s.snap = { word := s.cmd, argA := s.argA, argB := s.argB, inLen := s.inLen }

end Sys2Proof.Machine
end

