-- ==== Sys2Proof/Certificates/Slice0/Obligations.lean ====
section
/-! DEFINITION. The statements for the provers, from the numbered rules of spec/. -/

open Sys2Proof Sys2Proof.Machine

/-! ### Command words -/

/-- 30_encoding.md R76, R77: the decoder and the encoder are inverse on all words, so every legal word has one meaning
and every command one word. -/
def Obligations.DecodeInvertsEncode : Prop :=
  ∀ (w : Word) (i : Instr), decode w = .ok i ↔ w = encode i

/-- 30_encoding.md R77: a word decodes to a command exactly when the four conditions of `legal(w)` hold. -/
def Obligations.DecodesExactlyLegalWords : Prop :=
  ∀ w : Word, (∃ i, decode w = .ok i) ↔
    ((w.extractLsb' 0 6).toNat ∈ [0x01, 0x02, 0x03, 0x04, 0x05, 0x06, 0x08, 0x09, 0x0A, 0x0B, 0x0C, 0x0D, 0x10, 0x11] ∧
      w &&& 0xFFFFFCC0 = 0 ∧
      (w.getLsbD 8 = false ∨ (w.extractLsb' 0 6).toNat ∈ [0x03, 0x04, 0x08, 0x09, 0x0A, 0x0B]) ∧
      (w.getLsbD 9 = false ∨ (w.extractLsb' 0 6).toNat ∈ [0x10, 0x11]))

/-- 30_encoding.md R76: a word selects a row of the opcode map by mask and match exactly when it decodes to a command of
that row. -/
def Obligations.OpcodeRowsSelectCommands : Prop :=
  ∀ row ∈ opcodeTable, ∀ w : Word, w &&& row.mask = row.pattern ↔ ∃ i ∈ row.commands, decode w = .ok i

/-- 30_encoding.md R76: words written out from the map decode to their commands. -/
def Obligations.SampleWordsDecode : Prop :=
  decode 0x00000001 = .ok .radixToDigits ∧ decode 0x00000103 = .ok .alphaSymAtB58 ∧
  decode 0x00000006 = .ok .checksum ∧ decode 0x00000108 = .ok .plainEncodeB58 ∧
  decode 0x0000000B = .ok .checkDecodeC32 ∧ decode 0x0000000C = .ok .addrEncode ∧
  decode 0x00000210 = .ok (.xconvC32ToB58 true) ∧ decode 0x00000011 = .ok (.xconvB58ToC32 false)

/-- 60_exceptions.md R213, R214: when the engine has the turn and SNAP's word decodes to `i`, the step is exec of `i`;
the engine has the turn when nothing waits in the inbox or its own event is next. -/
def Obligations.StepRunsDecodedCommand : Prop :=
  ∀ (s : State) (i : Instr), s.resetAsserted = false → s.phase = .busy → decode s.snap.word = .ok i →
    (s.inbox = [] → step s = exec i s) ∧
    (∀ rest, s.inbox = .engine :: rest → step s = exec i { s with inbox := rest })

/-- 60_exceptions.md R209 (30_encoding.md R77, R78): when the engine has the turn, because nothing waits in the inbox or
its own event is next, a word that is not legal completes with BadCommand, code 9, whatever its operands: neither IN_LEN
nor an unwritten IN byte matters. -/
def Obligations.IllegalWordCompletesWithBadCommand : Prop :=
  ∀ s : State, s.resetAsserted = false → s.phase = .busy → (unpack s.snap.word).wf = false →
    (s.inbox = [] →
      step s = .next { s with errcode := 9, outLen := 0, outVal := 0, outBuf := [], phase := .idle, done := true }) ∧
    (∀ rest, s.inbox = .engine :: rest →
      step s = .next { s with
        inbox := rest, errcode := 9, outLen := 0, outVal := 0, outBuf := [], phase := .idle, done := true })

/-! ### Start, completion, faults -/

/-- 60_exceptions.md R212: what an accepted CMD write does, in one step, and that it changes nothing else; while BUSY it
is dropped. -/
def Obligations.CommandWriteStarts : Prop :=
  ∀ (s : State) (w : Word) (rest : List Event), s.resetAsserted = false → s.inbox = .access (.write 4 0x00C w) :: rest →
    (s.phase = .idle → ∃ t, step s = .next t ∧ (∀ k, t.outBuf.read k = none) ∧
      t = { s with
        inbox := rest, cmd := w, snap := { word := w, argA := s.argA, argB := s.argB, inLen := s.inLen },
        errcode := 0, outLen := 0, outVal := 0, done := false, phase := .busy, outBuf := t.outBuf }) ∧
    (s.phase = .busy → step s = .next { s with inbox := rest, overrun := true })

/-- 60_exceptions.md R213, R200: what a completion writes. A success commits the result whole: OUT[0..len(out)), OUT_LEN,
OUT_VAL and code 0. An error commits its code of R200 and no result. Both clear BUSY and set DONE. -/
def Obligations.CompletionCommitsResult : Prop :=
  ∀ s : State, s.cfg.bufCap ≤ 1024 →
    (∀ (out : List Byte) (val : Word), out.length ≤ s.cfg.bufCap → ∃ t, s.completeOk out val = t ∧
      t.errcode = 0 ∧ t.outLen.toNat = out.length ∧ t.outVal = val ∧ (∀ k, t.outBuf.read k = out[k]?) ∧
      t.regRead .status = (if s.overrun then 0xA else 0x2)) ∧
    (∀ k : ErrKind, ∃ t, s.completeErr k = t ∧
      t.regRead .errcode =
        (match k with
          | .invalidHex => 1
          | .invalidSymbol => 2
          | .invalidVersion => 3
          | .invalidPayloadLength => 4
          | .missingPrefix => 5
          | .checksumMismatch => 6
          | .tooShort => 7
          | .noEquivalentVersion => 8
          | .badCommand => 9
          | .badArgument => 10
          | .capacityExceeded => 11) ∧
      t.outLen = 0 ∧ t.outVal = 0 ∧ (∀ j, t.outBuf.read j = none) ∧
      t.regRead .status = (if s.overrun then 0xE else 0x6))

/-- 60_exceptions.md R213, 20_memory.md R68: the frame of every command. A completion writes OUT, OUT_LEN, OUT_VAL,
ERRCODE, BUSY and DONE; no other register, no flag and no IN byte changes. After a success exactly the bytes
OUT[0..OUT_LEN) are defined; after an error none is, and OUT_LEN = OUT_VAL = 0. That SNAP keeps its value while IDLE is
the model's choice (log 9). -/
def Obligations.CompletionFrame : Prop :=
  ∀ (i : Instr) (s t : State), s.cfg.wf = true → exec i s = .next t →
    t.phase = .idle ∧ t.done = true ∧
    t.cmd = s.cmd ∧ t.argA = s.argA ∧ t.argB = s.argB ∧ t.inLen = s.inLen ∧ t.ie = s.ie ∧ t.overrun = s.overrun ∧
    t.snap = s.snap ∧ t.resetAsserted = s.resetAsserted ∧ t.epoch = s.epoch ∧ t.drawn = s.drawn ∧
    t.readData = s.readData ∧ t.inbox = s.inbox ∧ t.cfg = s.cfg ∧
    (∀ k, t.inBuf.read k = s.inBuf.read k) ∧
    (∀ k, (t.outBuf.read k).isSome = decide (k < t.outLen.toNat)) ∧ t.outLen.toNat ≤ s.cfg.bufCap ∧
    (t.errcode ≠ 0 → t.outLen = 0 ∧ t.outVal = 0)

/-- 70_reset_and_hazards.md R233: a command is the model fault exactly when it reads IN, IN_LEN fits, and a byte below
IN_LEN was never written; no command is ever refused. -/
def Obligations.FaultsExactlyOnUnwrittenInput : Prop :=
  ∀ (i : Instr) (s : State),
    ((∃ f, exec i s = .fault f) ↔
      readsInput i = true ∧ s.snap.inLen.toNat ≤ s.cfg.bufCap ∧ ∃ k < s.snap.inLen.toNat, s.inWritten k = false) ∧
    ∀ r, exec i s ≠ .refused r

/-- 60_exceptions.md R211 case (a), R214: for every legal command, IN_LEN > BUF_CAP is CapacityExceeded, code 11, before
the command's own errors and whether or not it reads IN. (A word that is not legal is BadCommand before that:
IllegalWordCompletesWithBadCommand.) -/
def Obligations.InputCapacityPrecedesOwnErrors : Prop :=
  ∀ (i : Instr) (s : State), s.snap.inLen.toNat > s.cfg.bufCap →
    exec i s = .next { s with
      errcode := 11, outLen := 0, outVal := 0, outBuf := [], phase := .idle, done := true }

/-- 00_scope.md R2: a command's result is a function of the parameters and the snapshot: command, ARG_A, ARG_B, IN_LEN
and the first IN_LEN bytes of IN. It is complete, or fails with one error kind and no result. -/
def Obligations.ResultDependsOnlyOnSnapshot : Prop :=
  ∀ (i : Instr) (s s' : State), s.cfg = s'.cfg → s.snap.argA = s'.snap.argA → s.snap.argB = s'.snap.argB →
    s.snap.inLen = s'.snap.inLen → (∀ k < s.snap.inLen.toNat, s.inBuf.read k = s'.inBuf.read k) →
    SameResult (exec i s) (exec i s') ∧
    ∀ t, exec i s = .next t →
      (t.errcode = 0 ∨ (t.errcode.toNat ≤ 11 ∧ t.outLen = 0 ∧ t.outVal = 0 ∧ ∀ k, t.outBuf.read k = none))

/-- 30_encoding.md R75: a command's result does not depend on an operand the table calls ignored: ARG_A, ARG_B, or, for
ALPHA.SYMAT, the IN buffer. -/
def Obligations.IgnoredOperandsDoNotMatter : Prop :=
  ∀ (i : Instr) (s : State) (x : Word) (m : Memory),
    (usesArgA i = false → SameResult (exec i s) (exec i { s with snap := { s.snap with argA := x } })) ∧
    (usesArgB i = false → SameResult (exec i s) (exec i { s with snap := { s.snap with argB := x } })) ∧
    (readsInput i = false → SameResult (exec i s) (exec i { s with inBuf := m }))

/-- 60_exceptions.md R200-R211: once IN_LEN fits, a command completes with NONE or with one of the kinds its rules list;
in particular no decode raises InvalidVersion, ALPHA.NORMALIZE and CHECKSUM raise nothing, and no command outside the
list of R211 exceeds the output capacity. -/
def Obligations.EachCommandRaisesOnlyItsKinds : Prop :=
  ∀ (i : Instr) (s t : State), s.cfg.wf = true → s.snap.inLen.toNat ≤ s.cfg.bufCap → exec i s = .next t →
    t.errcode = 0 ∨ ∃ k ∈ errorsOf i, t.errcode = errCode k

/-! ### What each command computes -/

/-- 40_radix.md R104: RADIX.TODIGITS. A radix outside [2, 256] is BadArgument; otherwise the digits of the number in IN,
one a byte, if they fit. -/
def Obligations.RadixToDigitsResult : Prop :=
  ∀ (s : State) (bs : List Byte) (ds : List Nat), HasInput s bs →
    (s.snap.argA.toNat < 2 ∨ s.snap.argA.toNat > 256 →
      exec .radixToDigits s = .next (s.completeErr .badArgument)) ∧
    (2 ≤ s.snap.argA.toNat → s.snap.argA.toNat ≤ 256 → SameNumber 256 s.snap.argA.toNat (natsOf bs) ds →
      exec .radixToDigits s =
        .next (if ds.length ≤ s.cfg.bufCap then s.completeOk (bytesOf ds) 0 else s.completeErr .capacityExceeded))

/-- 40_radix.md R105: RADIX.TOBYTES. A radix outside [2, 256] or a digit not below it is BadArgument; otherwise the
bytes of the number, which always fit. -/
def Obligations.RadixToBytesResult : Prop :=
  ∀ (s : State) (ds bs : List Byte), HasInput s ds →
    (s.snap.argA.toNat < 2 ∨ s.snap.argA.toNat > 256 ∨ (∃ d ∈ ds, d.toNat ≥ s.snap.argA.toNat) →
      exec .radixToBytes s = .next (s.completeErr .badArgument)) ∧
    (2 ≤ s.snap.argA.toNat → s.snap.argA.toNat ≤ 256 → (∀ d ∈ ds, d.toNat < s.snap.argA.toNat) →
      SameNumber s.snap.argA.toNat 256 (natsOf ds) (natsOf bs) →
      exec .radixToBytes s = .next (s.completeOk bs 0))

/-- 41_alphabet.md R116, R117 (R110, R111, R112): the two alphabets, symbol by symbol, and ALPHA.SYMAT of either,
whatever IN holds. -/
def Obligations.SymAtResult : Prop :=
  (tableOf .c32).map BitVec.toNat = "0123456789ABCDEFGHJKMNPQRSTVWXYZ".toList.map Char.toNat ∧
  (tableOf .b58).map BitVec.toNat =
    "123456789ABCDEFGHJKLMNPQRSTUVWXYZabcdefghijkmnopqrstuvwxyz".toList.map Char.toNat ∧
  ∀ alph : Alph, radixOf alph = (tableOf alph).length ∧
    (∀ i < radixOf alph, (tableOf alph)[i]? = some (symbolAt alph i)) ∧
    ∀ s : State, 64 ≤ s.cfg.bufCap → s.snap.inLen.toNat ≤ s.cfg.bufCap →
      (∀ c, (tableOf alph)[s.snap.argA.toNat]? = some c → exec (symAtOf alph) s = .next (s.completeOk [c] 0)) ∧
      (s.snap.argA.toNat ≥ radixOf alph → exec (symAtOf alph) s = .next (s.completeErr .badArgument))

/-- 41_alphabet.md R118, R119: ALPHA.INDEXOF of either alphabet: the index of the one symbol in IN, normalized for c32. -/
def Obligations.IndexOfResult : Prop :=
  ∀ (alph : Alph) (s : State) (t : List Byte), HasInput s t →
    (t.length ≠ 1 → exec (indexOfOf alph) s = .next (s.completeErr .badArgument)) ∧
    (∀ c, t = [c] →
      (∀ v, (tableOf alph)[v]? = some (normFor alph c) →
        exec (indexOfOf alph) s = .next (s.completeOk [] (BitVec.ofNat 32 v))) ∧
      (normFor alph c ∉ tableOf alph → exec (indexOfOf alph) s = .next (s.completeErr .invalidSymbol)))

/-- 41_alphabet.md R120, R113: ALPHA.NORMALIZE.C32 rewrites each byte by the homoglyph map and never fails. -/
def Obligations.NormalizeResult : Prop :=
  ∀ (s : State) (t : List Byte), HasInput s t →
    ∃ out : List Byte, exec .alphaNormalizeC32 s = .next (s.completeOk out 0) ∧ out.length = t.length ∧
      ∀ (k : Nat) (c d : Byte), t[k]? = some c → out[k]? = some d →
        d.toNat =
          if c.toNat ∈ [0x49, 0x69, 0x4C, 0x6C] then 0x31
          else if c.toNat ∈ [0x4F, 0x6F] then 0x30
          else if 0x61 ≤ c.toNat ∧ c.toNat ≤ 0x7A then c.toNat - 0x20
          else c.toNat

/-- 43_checksum.md R140, R141: CHECKSUM is the first 4 bytes of HASH256(HASH256(IN)), for whatever function HASH256 is. -/
def Obligations.ChecksumResult : Prop :=
  ∀ (s : State) (bs : List Byte), 64 ≤ s.cfg.bufCap → HasInput s bs →
    exec .checksum s =
      .next (s.completeOk ((hash256 s.cfg (hash256 s.cfg bs).toList).toList.take 4) 0)

/-- 42_plain_codec.md R134, R135 (R130, R132): PLAIN.ENCODE of either alphabet: the symbols of the number the hex text
denotes, with zero symbols before them up to the floor ARG_B. -/
def Obligations.PlainEncodeResult : Prop :=
  ∀ (alph : Alph) (s : State) (h : List Byte), HasInput s h →
    (NotHex h → exec (plainEncodeOf alph) s = .next (s.completeErr .invalidHex)) ∧
    (∀ (bs : List Byte) (ds : List Nat), HexText h bs → SameNumber 256 (radixOf alph) (natsOf bs) ds →
      exec (plainEncodeOf alph) s =
        .next (if max ds.length s.snap.argB.toNat ≤ s.cfg.bufCap then
            s.completeOk (List.replicate (s.snap.argB.toNat - ds.length) (symbolAt alph 0) ++ ds.map (symbolAt alph)) 0
          else s.completeErr .capacityExceeded))

/-- 42_plain_codec.md R136, R137 (R131, R133): PLAIN.DECODE of either alphabet: the hex text of the bytes the symbols
denote, with zero bytes before them up to the floor ARG_B. -/
def Obligations.PlainDecodeResult : Prop :=
  ∀ (alph : Alph) (s : State) (t : List Byte), HasInput s t →
    (NotSymbols alph t → exec (plainDecodeOf alph) s = .next (s.completeErr .invalidSymbol)) ∧
    (∀ (ds : List Nat) (bs : List Byte), Spells alph t ds → SameNumber (radixOf alph) 256 ds (natsOf bs) →
      exec (plainDecodeOf alph) s =
        .next (if 2 * max bs.length s.snap.argB.toNat ≤ s.cfg.bufCap then
            s.completeOk (hexRender (List.replicate (s.snap.argB.toNat - bs.length) 0 ++ bs)) 0
          else s.completeErr .capacityExceeded))

/-- 42_plain_codec.md R131: a rendered text is the hex text of its bytes, two characters each, in lowercase digits. -/
def Obligations.HexRenderIsLowercaseHexText : Prop :=
  ∀ bs : List Byte, HexText (hexRender bs) bs ∧ (hexRender bs).length = 2 * bs.length ∧
    ∀ c ∈ hexRender bs, (0x30 ≤ c.toNat ∧ c.toNat ≤ 0x39) ∨ (0x61 ≤ c.toNat ∧ c.toNat ≤ 0x66)

/-- 44_check_codec.md R155 (R151): CHECK.ENCODE.C32: the version's symbol, then the symbols of payload and checksum; the
version is tested before the hex, on the whole of ARG_A. -/
def Obligations.CheckEncodeC32Result : Prop :=
  ∀ (s : State) (h : List Byte), HasInput s h →
    (s.snap.argA.toNat > 31 → exec .checkEncodeC32 s = .next (s.completeErr .invalidVersion)) ∧
    (s.snap.argA.toNat ≤ 31 → NotHex h → exec .checkEncodeC32 s = .next (s.completeErr .invalidHex)) ∧
    (∀ (p sum : List Byte) (ds : List Nat), s.snap.argA.toNat ≤ 31 → HexText h p →
      Checked s.cfg s.snap.argA.toNat p sum → SameNumber 256 32 (natsOf (p ++ sum)) ds →
      exec .checkEncodeC32 s =
        .next (if ds.length + 1 ≤ s.cfg.bufCap then
            s.completeOk ((s.snap.argA.toNat :: ds).map (symbolAt .c32)) 0
          else s.completeErr .capacityExceeded))

/-- 44_check_codec.md R156 (R152): CHECK.ENCODE.B58: version byte, payload and checksum converted as one number. -/
def Obligations.CheckEncodeB58Result : Prop :=
  ∀ (s : State) (h : List Byte), HasInput s h →
    (s.snap.argA.toNat > 255 → exec .checkEncodeB58 s = .next (s.completeErr .invalidVersion)) ∧
    (s.snap.argA.toNat ≤ 255 → NotHex h → exec .checkEncodeB58 s = .next (s.completeErr .invalidHex)) ∧
    (∀ (p sum : List Byte) (ds : List Nat), s.snap.argA.toNat ≤ 255 → HexText h p →
      Checked s.cfg s.snap.argA.toNat p sum →
      SameNumber 256 58 (natsOf (byteOf s.snap.argA.toNat :: p ++ sum)) ds →
      exec .checkEncodeB58 s =
        .next (if ds.length ≤ s.cfg.bufCap then s.completeOk (ds.map (symbolAt .b58)) 0
          else s.completeErr .capacityExceeded))

/-- 44_check_codec.md R157 (R153): CHECK.DECODE.C32: symbols are checked before the length, the length before the
checksum; a valid text gives the payload as hex and the version in OUT_VAL. -/
def Obligations.CheckDecodeC32Result : Prop :=
  ∀ (s : State) (t : List Byte), HasInput s t →
    (NotSymbols .c32 t → exec .checkDecodeC32 s = .next (s.completeErr .invalidSymbol)) ∧
    (t = [] → exec .checkDecodeC32 s = .next (s.completeErr .tooShort)) ∧
    (∀ (v : Nat) (ds : List Nat) (bs : List Byte), Spells .c32 t (v :: ds) → SameNumber 32 256 ds (natsOf bs) →
      (bs.length < 4 → exec .checkDecodeC32 s = .next (s.completeErr .tooShort)) ∧
      (∀ p sum, bs = p ++ sum → sum.length = 4 →
        (¬ Checked s.cfg v p sum → exec .checkDecodeC32 s = .next (s.completeErr .checksumMismatch)) ∧
        (Checked s.cfg v p sum → exec .checkDecodeC32 s =
          .next (if 2 * p.length ≤ s.cfg.bufCap then s.completeOk (hexRender p) (BitVec.ofNat 32 v)
            else s.completeErr .capacityExceeded))))

/-- 44_check_codec.md R158 (R154): CHECK.DECODE.B58: the first byte is the version, the last four are the checksum. -/
def Obligations.CheckDecodeB58Result : Prop :=
  ∀ (s : State) (t : List Byte), HasInput s t →
    (NotSymbols .b58 t → exec .checkDecodeB58 s = .next (s.completeErr .invalidSymbol)) ∧
    (∀ (ds : List Nat) (bs : List Byte), Spells .b58 t ds → SameNumber 58 256 ds (natsOf bs) →
      (bs.length < 5 → exec .checkDecodeB58 s = .next (s.completeErr .tooShort)) ∧
      (∀ v p sum, bs = v :: p ++ sum → sum.length = 4 →
        (¬ Checked s.cfg v.toNat p sum → exec .checkDecodeB58 s = .next (s.completeErr .checksumMismatch)) ∧
        (Checked s.cfg v.toNat p sum → exec .checkDecodeB58 s =
          .next (if 2 * p.length ≤ s.cfg.bufCap then s.completeOk (hexRender p) (v.setWidth 32)
            else s.completeErr .capacityExceeded))))

/-- 45_address_codec.md R163 (R161): ADDR.ENCODE: 39 or 40 characters of hex, then the version test, then the hex test;
the address is `S` and the check encoding, and always fits. -/
def Obligations.AddrEncodeResult : Prop :=
  ∀ (s : State) (h : List Byte), s.cfg.wf = true → HasInput s h →
    (h.length ≠ 39 → h.length ≠ 40 → exec .addrEncode s = .next (s.completeErr .invalidPayloadLength)) ∧
    (h.length = 39 ∨ h.length = 40 →
      (s.snap.argA.toNat > 31 → exec .addrEncode s = .next (s.completeErr .invalidVersion)) ∧
      (s.snap.argA.toNat ≤ 31 → NotHex h → exec .addrEncode s = .next (s.completeErr .invalidHex)) ∧
      (∀ (p sum : List Byte) (ds : List Nat), s.snap.argA.toNat ≤ 31 → HexText h p →
        Checked s.cfg s.snap.argA.toNat p sum → SameNumber 256 32 (natsOf (p ++ sum)) ds →
        exec .addrEncode s = .next (s.completeOk (0x53 :: (s.snap.argA.toNat :: ds).map (symbolAt .c32)) 0)))

/-- 45_address_codec.md R164 (R162): ADDR.DECODE: MissingPrefix, then the errors of the check decoder, then
InvalidPayloadLength; a valid address gives its 20 bytes as hex and its version. -/
def Obligations.AddrDecodeResult : Prop :=
  ∀ (s : State) (t : List Byte), s.cfg.wf = true → HasInput s t →
    (t.head? ≠ some 0x53 → exec .addrDecode s = .next (s.completeErr .missingPrefix)) ∧
    (∀ rest, t = 0x53 :: rest →
      (NotSymbols .c32 rest → exec .addrDecode s = .next (s.completeErr .invalidSymbol)) ∧
      (rest = [] → exec .addrDecode s = .next (s.completeErr .tooShort)) ∧
      (∀ (v : Nat) (ds : List Nat) (bs : List Byte), Spells .c32 rest (v :: ds) → SameNumber 32 256 ds (natsOf bs) →
        (bs.length < 4 → exec .addrDecode s = .next (s.completeErr .tooShort)) ∧
        (∀ p sum, bs = p ++ sum → sum.length = 4 → ¬ Checked s.cfg v p sum →
          exec .addrDecode s = .next (s.completeErr .checksumMismatch))) ∧
      (∀ v p, IsCheckC32 s.cfg rest v p → p.length ≠ 20 →
        exec .addrDecode s = .next (s.completeErr .invalidPayloadLength))) ∧
    (∀ v p, IsAddress s.cfg t v p → exec .addrDecode s = .next (s.completeOk (hexRender p) (BitVec.ofNat 32 v)))

/-- 46_cross_base.md R172 (R171): XCONV.C32TOB58 on a valid address: the target version is ARG_A if TVEN is set, else
the table's entry; the same payload is check-encoded for b58, which always fits. -/
def Obligations.XconvC32ToB58Result : Prop :=
  ∀ (tven : Bool) (s : State) (t : List Byte) (v : Nat) (p : List Byte), s.cfg.wf = true → HasInput s t →
    IsAddress s.cfg t v p →
    (tven = false → (∀ b, (v, b) ∉ s.cfg.vmap) →
      exec (.xconvC32ToB58 tven) s = .next (s.completeErr .noEquivalentVersion)) ∧
    (tven = true → s.snap.argA.toNat > 255 →
      exec (.xconvC32ToB58 tven) s = .next (s.completeErr .invalidVersion)) ∧
    (∀ (tv : Nat) (sum : List Byte) (ds : List Nat),
      (tven = true ∧ tv = s.snap.argA.toNat ∧ tv ≤ 255) ∨ (tven = false ∧ (v, tv) ∈ s.cfg.vmap) →
      Checked s.cfg tv p sum → SameNumber 256 58 (natsOf (byteOf tv :: p ++ sum)) ds →
      exec (.xconvC32ToB58 tven) s =
        .next (s.completeOk (ds.map (symbolAt .b58)) (BitVec.ofNat 32 tv)))

/-- 46_cross_base.md R173 (R171): XCONV.B58TOC32 on a valid b58 check text: NoEquivalentVersion, then
InvalidPayloadLength, then InvalidVersion; otherwise the c32 address of the same payload, which always fits. -/
def Obligations.XconvB58ToC32Result : Prop :=
  ∀ (tven : Bool) (s : State) (t : List Byte) (v : Nat) (p : List Byte), s.cfg.wf = true → HasInput s t →
    IsCheckB58 s.cfg t v p →
    (tven = false → (∀ c, (c, v) ∉ s.cfg.vmap) →
      exec (.xconvB58ToC32 tven) s = .next (s.completeErr .noEquivalentVersion)) ∧
    (∀ tv, (tven = true ∧ tv = s.snap.argA.toNat) ∨ (tven = false ∧ (tv, v) ∈ s.cfg.vmap) →
      (p.length ≠ 20 → exec (.xconvB58ToC32 tven) s = .next (s.completeErr .invalidPayloadLength)) ∧
      (p.length = 20 → tv > 31 → exec (.xconvB58ToC32 tven) s = .next (s.completeErr .invalidVersion)) ∧
      (∀ (sum : List Byte) (ds : List Nat), p.length = 20 → tv ≤ 31 → Checked s.cfg tv p sum →
        SameNumber 256 32 (natsOf (p ++ sum)) ds →
        exec (.xconvB58ToC32 tven) s =
          .next (s.completeOk (0x53 :: (tv :: ds).map (symbolAt .c32)) (BitVec.ofNat 32 tv))))

/-- 46_cross_base.md R172, R173; 45_address_codec.md R162; 44_check_codec.md R154: XCONV reports the errors of its
source text as the decoder of that text does, before any of its own. -/
def Obligations.XconvReportsSourceErrors : Prop :=
  ∀ (tven : Bool) (s t : State), s.cfg.wf = true →
    (exec .addrDecode s = .next t → t.errcode ≠ 0 → SameResult (exec (.xconvC32ToB58 tven) s) (.next t)) ∧
    (exec .checkDecodeB58 s = .next t → t.errcode ≠ 0 → t.errcode ≠ errCode .capacityExceeded →
      SameResult (exec (.xconvB58ToC32 tven) s) (.next t))

/-! ### Laws of the codecs -/

/-- 40_radix.md R106: both round trips of the radix converter. -/
def Obligations.RadixRoundTrip : Prop :=
  ∀ R : Nat, 2 ≤ R → R ≤ 256 →
    (∀ bs : List Byte, toBytes (toDigits bs R) R = bs) ∧
    (∀ ds : List Nat, (∀ d ∈ ds, d < R) → toDigits (toBytes ds R) R = ds)

/-- 40_radix.md R107: leading zeros are kept in both directions. -/
def Obligations.LeadingZerosPreserved : Prop :=
  ∀ R : Nat, 2 ≤ R → R ≤ 256 →
    (∀ bs : List Byte, lz (toDigits bs R) = lz (natsOf bs)) ∧
    (∀ ds : List Nat, (∀ d ∈ ds, d < R) → lz (natsOf (toBytes ds R)) = lz ds)

/-- 40_radix.md R108: the number of digits. -/
def Obligations.DigitCount : Prop :=
  ∀ (R : Nat) (bs : List Byte), 2 ≤ R →
    (valueOf 256 (natsOf bs) ≠ 0 →
      (toDigits bs R).length = lz (natsOf bs) + Nat.log R (valueOf 256 (natsOf bs)) + 1) ∧
    (valueOf 256 (natsOf bs) = 0 → (toDigits bs R).length = bs.length)

/-- 41_alphabet.md R122: symbolAt and indexOf are inverse. -/
def Obligations.AlphabetIsBijection : Prop :=
  (∀ (alph : Alph) (i : Nat), i < radixOf alph → indexOf alph (symbolAt alph i) = some i) ∧
  (∀ (c : Byte) (i : Nat), indexOf32 c = some i → i < 32 ∧ symbolAt .c32 i = norm32 c)

/-- 41_alphabet.md R121: texts that agree after normalization give every normalizing command the same result; of an
address, only the part after the prefix is normalized (90_conflicts.md C6). -/
def Obligations.HomoglyphsDecodeIdentically : Prop :=
  ∀ (s s' : State) (t t' : List Byte), HasInput s t → HasInput s' t' → s.cfg = s'.cfg → s.snap.argA = s'.snap.argA →
    s.snap.argB = s'.snap.argB → t.map norm32 = t'.map norm32 →
    SameResult (exec .plainDecodeC32 s) (exec .plainDecodeC32 s') ∧
    SameResult (exec .checkDecodeC32 s) (exec .checkDecodeC32 s') ∧
    (t.head? = t'.head? → SameResult (exec .addrDecode s) (exec .addrDecode s') ∧
      ∀ tven, SameResult (exec (.xconvC32ToB58 tven) s) (exec (.xconvC32ToB58 tven) s'))

/-- 42_plain_codec.md R139: the case of hex letters, and a '0' before a text of odd length, do not change what is
encoded. -/
def Obligations.HexCaseAndParityDoNotMatter : Prop :=
  ∀ (alph : Alph) (c : Config) (n : Snapshot) (h h' : List Byte),
    (h.map (fun x => if 0x41 ≤ x.toNat ∧ x.toNat ≤ 0x5A then x.toNat + 0x20 else x.toNat) =
      h'.map (fun x => if 0x41 ≤ x.toNat ∧ x.toNat ≤ 0x5A then x.toNat + 0x20 else x.toNat) →
      plainEncodeBody alph c n h = plainEncodeBody alph c n h') ∧
    (h.length % 2 = 1 → plainEncodeBody alph c n (0x30 :: h) = plainEncodeBody alph c n h)

/-- 42_plain_codec.md R138: a plain encoding without added padding decodes to the bytes it was made from, and they
render as the hex text in lowercase, with a '0' before a text of odd length. -/
def Obligations.PlainRoundTrip : Prop :=
  ∀ (alph : Alph) (h bs : List Byte) (m : Nat), hexParse h = .ok bs → m ≤ (plainEnc alph bs 0).length →
    plainDec alph (plainEnc alph bs m) 0 = .ok bs ∧
    (hexRender bs).map BitVec.toNat =
      (if h.length % 2 = 1 then [0x30] else []) ++
        h.map (fun x => if 0x41 ≤ x.toNat ∧ x.toNat ≤ 0x46 then x.toNat + 0x20 else x.toNat)

/-- 44_check_codec.md R159: decoding a check encoding returns its version and payload, in either alphabet and for any
hash function. -/
def Obligations.CheckRoundTrip : Prop :=
  ∀ (c : Config) (v : Nat) (h p : List Byte), hexParse h = .ok p →
    (v ≤ 31 → ∃ t, checkEncC32 c v h = .ok t ∧ checkDecC32 c t = .ok (v, p)) ∧
    (v > 31 → checkEncC32 c v h = .error .invalidVersion) ∧
    (v ≤ 255 → ∃ t, checkEncB58 c v h = .ok t ∧ checkDecB58 c t = .ok (v, p)) ∧
    (v > 255 → checkEncB58 c v h = .error .invalidVersion)

/-- 45_address_codec.md R165: both round trips of the address codec. -/
def Obligations.AddressRoundTrip : Prop :=
  ∀ (c : Config) (v : Nat),
    (∀ h p : List Byte, v ≤ 31 → hexParse h = .ok p → h.length + h.length % 2 = 40 →
      ∃ t, addrEnc c v h = .ok t ∧ addrDec c t = .ok (v, p)) ∧
    (∀ t p : List Byte, CanonicalC32 t → addrDec c t = .ok (v, p) → addrEnc c v (hexRender p) = .ok t)

/-- 46_cross_base.md R174: converting a canonical c32 address to b58 and the result back gives the same text, and so for
a b58 text with a table version; both with TVEN = 0, for any table and any hash function. -/
def Obligations.CrossBaseRoundTrip : Prop :=
  ∀ (s u s' u' : State) (t out : List Byte), s.cfg.wf = true → s.cfg = s'.cfg → HasInput s t → HasInput s' out →
    HasOutput u out → u.errcode = 0 →
    (CanonicalC32 t → exec (.xconvC32ToB58 false) s = .next u → exec (.xconvB58ToC32 false) s' = .next u' →
      u'.errcode = 0 ∧ HasOutput u' t) ∧
    (exec (.xconvB58ToC32 false) s = .next u → exec (.xconvC32ToB58 false) s' = .next u' →
      u'.errcode = 0 ∧ HasOutput u' t)

/-! ### The host port -/

/-- 20_memory.md R53 (R52, R54): the accesses the block refuses with a bus error: any width but 8 and 32 bits, a
misaligned 32-bit access, an 8-bit access to the register region. For widths R53 does not list (none, 24 bits) this is
the model's reading (log 13). -/
def Obligations.UnadmittedAccessIsRefused : Prop :=
  ∀ (s : State) (n : Nat) (off : Offset) (v : Word) (rest : List Event), s.resetAsserted = false →
    (n ≠ 1 ∧ n ≠ 4) ∨ (n = 4 ∧ off.toNat % 4 ≠ 0) ∨ (n = 1 ∧ off.toNat < 0x400) →
    (s.inbox = .access (.read n off) :: rest → step s = .refused .busError) ∧
    (s.inbox = .access (.write n off v) :: rest → step s = .refused .busError)

/-- 20_memory.md R52, R54, R63: every other access is performed: aligned 32-bit accesses anywhere and 8-bit accesses
outside the register region. For 8-bit accesses to 0xC00-0xFFF this is the model's reading (log 13). -/
def Obligations.AdmittedAccessIsPerformed : Prop :=
  ∀ (s : State) (n : Nat) (off : Offset) (v : Word) (rest : List Event), s.resetAsserted = false →
    (n = 4 ∧ off.toNat % 4 = 0) ∨ (n = 1 ∧ 0x400 ≤ off.toNat) →
    (s.inbox = .access (.read n off) :: rest → ∃ t, step s = .next t ∧ t.inbox = rest ∧ t.readData.isSome = true) ∧
    (s.inbox = .access (.write n off v) :: rest → ∃ t, step s = .next t ∧ t.inbox = rest ∧ t.readData = s.readData)

/-- 20_memory.md R55: a read changes nothing but the answer and, if it met an OUT byte without a defined value, the
model's own count of free bytes drawn; a read that met none answers the same when repeated. -/
def Obligations.ReadsHaveNoSideEffect : Prop :=
  ∀ (s t : State) (n : Nat) (off : Offset), hostAccess (.read n off) s = .next t →
    t = { s with readData := t.readData, drawn := t.drawn } ∧ s.drawn ≤ t.drawn ∧
    (t.drawn = s.drawn → hostAccess (.read n off) t = .next t)

/-- 10_state.md R20-R34: the offset of each register, and what a read of it answers: STATUS and CTRL by their bits, the
others by the register that holds the value. -/
def Obligations.RegisterReadAnswers : Prop :=
  regOffset .id = 0x000 ∧ regOffset .cap = 0x004 ∧ regOffset .ctrl = 0x008 ∧ regOffset .cmd = 0x00C ∧
  regOffset .status = 0x010 ∧ regOffset .errcode = 0x014 ∧ regOffset .argA = 0x018 ∧ regOffset .argB = 0x01C ∧
  regOffset .inLen = 0x020 ∧ regOffset .outLen = 0x024 ∧ regOffset .outVal = 0x028 ∧
  ∀ s : State,
    (s.resetAsserted = false → ∀ r : Reg,
      hostAccess (.read 4 (regOffset r)) s = .next { s with readData := some (s.regRead r) }) ∧
    s.regRead .id = 0x58323343 ∧ s.regRead .cap = BitVec.ofNat 32 s.cfg.bufCap ∧
    (∀ k, (s.regRead .ctrl).getLsbD k = (decide (k = 0) && s.ie)) ∧
    s.regRead .cmd = s.cmd ∧
    (∀ k, (s.regRead .status).getLsbD k =
      if k = 0 then decide (s.phase = .busy) else if k = 1 then s.done
      else if k = 2 then decide (s.errcode ≠ 0) else if k = 3 then s.overrun else false) ∧
    (∀ k, (s.regRead .errcode).getLsbD k = s.errcode.getLsbD k) ∧
    s.regRead .argA = s.argA ∧ s.regRead .argB = s.argB ∧ s.regRead .inLen = s.inLen ∧
    s.regRead .outLen = s.outLen ∧ s.regRead .outVal = s.outVal

/-- 20_memory.md R57 (10_state.md R20, R36; 20_memory.md R51): reserved offsets and buffer offsets at or beyond BUF_CAP
read as zero and ignore writes, BUSY or not, and set no STATUS bit; read-only registers and the OUT window ignore writes
too. That 8-bit accesses to 0xC00-0xFFF are admitted is the model's reading (log 13), and so is that a write beyond
BUF_CAP in the IN window sets no OVERRUN while BUSY (log 14). -/
def Obligations.ReservedSpaceReadsZeroIgnoresWrites : Prop :=
  ∀ (s : State) (off : Offset) (v : Word), s.resetAsserted = false →
    ((0x02C ≤ off.toNat ∧ off.toNat < 0x400) ∨ (0x400 + s.cfg.bufCap ≤ off.toNat ∧ off.toNat < 0x800) ∨
        (0x800 + s.cfg.bufCap ≤ off.toNat ∧ off.toNat < 0xC00) ∨ 0xC00 ≤ off.toNat →
      (off.toNat % 4 = 0 → hostAccess (.read 4 off) s = .next { s with readData := some 0 } ∧
        hostAccess (.write 4 off v) s = .next s) ∧
      (0x400 ≤ off.toNat → hostAccess (.read 1 off) s = .next { s with readData := some 0 } ∧
        hostAccess (.write 1 off v) s = .next s)) ∧
    (∀ r ∈ [Reg.id, .cap, .errcode, .outLen, .outVal], hostAccess (.write 4 (regOffset r) v) s = .next s) ∧
    (0x800 ≤ off.toNat → off.toNat < 0xC00 →
      (off.toNat % 4 = 0 → hostAccess (.write 4 off v) s = .next s) ∧ hostAccess (.write 1 off v) s = .next s)

/-- 70_reset_and_hazards.md R235 (10_state.md R28): a write to CMD, ARG_A, ARG_B, IN_LEN or an IN byte while BUSY is
dropped: it sets OVERRUN and changes nothing else. -/
def Obligations.WritesWhileBusyAreDropped : Prop :=
  ∀ (s : State) (v : Word), s.resetAsserted = false → s.phase = .busy →
    (∀ r ∈ [Reg.cmd, .argA, .argB, .inLen],
      hostAccess (.write 4 (regOffset r) v) s = .next { s with overrun := true }) ∧
    (∀ off : Offset, 0x400 ≤ off.toNat → off.toNat < 0x400 + s.cfg.bufCap → off.toNat < 0x800 →
      hostAccess (.write 1 off v) s = .next { s with overrun := true } ∧
      (off.toNat % 4 = 0 → hostAccess (.write 4 off v) s = .next { s with overrun := true }))

/-- 10_state.md R23, R25, R30, R31, R32; 70_reset_and_hazards.md R241: writes to CTRL and STATUS act at once, BUSY or
not: CTRL takes bit 0, STATUS clears DONE and OVERRUN where bits 1 and 3 are written 1. While IDLE the operand registers
take all 32 bits. Nothing else changes. -/
def Obligations.RegisterWritesTakeEffect : Prop :=
  ∀ (s : State) (v : Word), s.resetAsserted = false →
    hostAccess (.write 4 0x008 v) s = .next { s with ie := v.getLsbD 0 } ∧
    hostAccess (.write 4 0x010 v) s =
      .next { s with done := s.done && !v.getLsbD 1, overrun := s.overrun && !v.getLsbD 3 } ∧
    (s.phase = .idle →
      hostAccess (.write 4 0x018 v) s = .next { s with argA := v } ∧
      hostAccess (.write 4 0x01C v) s = .next { s with argB := v } ∧
      hostAccess (.write 4 0x020 v) s = .next { s with inLen := v })

/-- 20_memory.md R54, 10_state.md R35: writes to the IN window while IDLE. A 32-bit write stores byte 4k + j of the
window from bits 8j + 7 to 8j of the word, for each of the four that lies below BUF_CAP; an 8-bit write stores bits 7:0;
every other byte of IN reads as before, and nothing but IN changes. -/
def Obligations.InWindowWriteStoresLanes : Prop :=
  ∀ (s : State) (off : Offset) (v : Word) (i : Nat), s.resetAsserted = false → s.phase = .idle →
    off.toNat = 0x400 + i → i < 0x400 →
    (i % 4 = 0 → ∃ m, hostAccess (.write 4 off v) s = .next { s with inBuf := m } ∧
      ∀ k, m.read k =
        if i ≤ k ∧ k < i + 4 ∧ k < s.cfg.bufCap then some (v.extractLsb' (8 * (k - i)) 8) else s.inBuf.read k) ∧
    (∃ m, hostAccess (.write 1 off v) s = .next { s with inBuf := m } ∧
      ∀ k, m.read k = if k = i ∧ k < s.cfg.bufCap then some (v.extractLsb' 0 8) else s.inBuf.read k)

/-- 20_memory.md R54, R57, R62: a buffer byte that holds a defined value reads as that value, zero-extended, and an
aligned 32-bit read of four such bytes packs the one at 4k + j into bits 8j + 7 to 8j. A read of the IN window answers,
for each of its bytes, what the host wrote, zero at or beyond BUF_CAP, and otherwise the unspecified byte of that offset
in this reset epoch, a free value (log 8). -/
def Obligations.BufferReadsPackLanes : Prop :=
  ∀ (s : State) (off : Offset) (i : Nat), s.resetAsserted = false → i < 0x400 →
    (∀ (b0 b1 b2 b3 : Byte) (m : Memory),
      (off.toNat = 0x400 + i ∧ m = s.inBuf) ∨ (off.toNat = 0x800 + i ∧ m = s.outBuf) → m.read i = some b0 →
      (i < s.cfg.bufCap → hostAccess (.read 1 off) s = .next { s with readData := some (b0.setWidth 32) }) ∧
      (i % 4 = 0 → i + 3 < s.cfg.bufCap →
        m.read (i + 1) = some b1 → m.read (i + 2) = some b2 → m.read (i + 3) = some b3 →
        ∃ w : Word, hostAccess (.read 4 off) s = .next { s with readData := some w } ∧
          w.toNat = b0.toNat + 2 ^ 8 * b1.toNat + 2 ^ 16 * b2.toNat + 2 ^ 24 * b3.toNat)) ∧
    (∀ b : Nat → Byte,
      (∀ k, b k = if k < s.cfg.bufCap then (s.inBuf.read k).getD (Config.unwrittenIn s.epoch k) else 0) →
      off.toNat = 0x400 + i →
      hostAccess (.read 1 off) s = .next { s with readData := some ((b i).setWidth 32) } ∧
      (i % 4 = 0 → hostAccess (.read 4 off) s =
        .next { s with readData := some (b (i + 3) ++ b (i + 2) ++ b (i + 1) ++ b i) }))

/-- 10_state.md R36, 20_memory.md R54, R55, R57, 70_reset_and_hazards.md R237: an OUT byte at or beyond OUT_LEN answers
with a free byte, and the next such read with the next one: the claim holds for every count `drawn` (log 7). An aligned
32-bit read of the OUT window answers, for each of its four bytes, the result below OUT_LEN, zero at or beyond BUF_CAP,
and between them free bytes, drawn in the order of the offsets. -/
def Obligations.UndefinedOutByteIsFree : Prop :=
  ∀ (s : State) (off : Offset) (i : Nat), s.Inv → s.resetAsserted = false → off.toNat = 0x800 + i →
    (i < s.cfg.bufCap → s.outLen.toNat ≤ i →
      hostAccess (.read 1 off) s =
        .next { s with readData := some ((Config.anyByte s.drawn).setWidth 32), drawn := s.drawn + 1 }) ∧
    (∀ b : Nat → Byte,
      (∀ k, k < s.outLen.toNat → s.outBuf.read k = some (b k)) →
      (∀ k, s.outLen.toNat ≤ k → k < s.cfg.bufCap → b k = Config.anyByte (s.drawn + (k - max i s.outLen.toNat))) →
      (∀ k, s.cfg.bufCap ≤ k → b k = 0) →
      i < 0x400 → i % 4 = 0 →
      hostAccess (.read 4 off) s = .next { s with
        readData := some (b (i + 3) ++ b (i + 2) ++ b (i + 1) ++ b i)
        drawn := s.drawn + (min (i + 4) s.cfg.bufCap - max i s.outLen.toNat) })

/-- 60_exceptions.md R216, R217: IRQ is CTRL.IE ∧ STATUS.DONE at every moment. It rises at completion or when IE is set
while DONE = 1, falls at an acknowledge, an accepted CMD write, a clear of IE or a reset, and ignores OVERRUN. -/
def Obligations.IrqFollowsEnableAndDone : Prop :=
  ∀ (s : State) (v : Word),
    (s.irq = true ↔ s.ie = true ∧ s.done = true) ∧
    (∀ i t, exec i s = .next t → t.irq = s.ie) ∧
    (s.resetAsserted = false →
      (∀ t, hostAccess (.write 4 0x008 v) s = .next t → t.irq = (v.getLsbD 0 && s.done)) ∧
      (∀ t, hostAccess (.write 4 0x010 v) s = .next t → t.irq = (s.irq && !v.getLsbD 1)) ∧
      (s.phase = .idle → ∀ t, hostAccess (.write 4 0x00C v) s = .next t → t.irq = false)) ∧
    (s.resetAsserted = true → s.releaseReset.irq = false) ∧
    ({ s with overrun := !s.overrun }).irq = s.irq

/-! ### Reset and progress -/

/-- 70_reset_and_hazards.md R231: the state right after reset. -/
def Obligations.ResetValues : Prop :=
  ∀ s : State, s = State.reset ∨ (∃ u : State, u.resetAsserted = true ∧ s = u.releaseReset) →
    s.regRead .id = 0x58323343 ∧ s.regRead .cap = BitVec.ofNat 32 s.cfg.bufCap ∧
    (∀ r ∈ [Reg.ctrl, .cmd, .status, .errcode, .argA, .argB, .inLen, .outLen, .outVal], s.regRead r = 0) ∧
    s.phase = .idle ∧ (∀ k, s.inWritten k = false) ∧ (∀ k, s.outBuf.read k = none) ∧ s.irq = false

/-- 70_reset_and_hazards.md R230, R232: while RESET is asserted no access is answered and the engine completes nothing,
so a command in flight is lost; the release leaves the block idle. -/
def Obligations.ResetAbandonsCommand : Prop :=
  ∀ s : State, s.resetAsserted = true →
    (∀ a rest, s.inbox = .access a :: rest → step s = .refused .accessInReset) ∧
    (s.inbox = [] → step s = .next s) ∧
    (∀ rest, s.inbox = .engine :: rest → step s = .next { s with inbox := rest }) ∧
    (∀ rest, s.inbox = .releaseReset :: rest →
      ∃ t, step s = .next t ∧ t.phase = .idle ∧ t.done = false ∧ t.resetAsserted = false ∧ t.inbox = rest)

/-- 70_reset_and_hazards.md R240: a started command completes. Whatever finite number of admitted accesses waits, and
wherever the engine's turn lies among them, a step within the inbox's length plus one ends the command. -/
def Obligations.StartedCommandCompletes : Prop :=
  ∀ s : State, s.resetAsserted = false → s.phase = .busy → (∀ e ∈ s.inbox, isOrdinary e = true) →
    (s.snap.inLen.toNat ≤ s.cfg.bufCap → ∀ k < s.snap.inLen.toNat, s.inWritten k = true) →
    ∃ n t, n ≤ s.inbox.length + 1 ∧ Host.Core.run Sys2Proof.core n s = .next t ∧ t.phase = .idle ∧ t.done = true

/-- 10_state.md R40, R30-R32, R35: while a command stays in flight, no step changes CMD, the operand registers, SNAP,
the IN buffer or the results of the start. -/
def Obligations.OperandsFrozenWhileBusy : Prop :=
  ∀ s t : State, step s = .next t → s.phase = .busy → t.phase = .busy →
    t.cmd = s.cmd ∧ t.argA = s.argA ∧ t.argB = s.argB ∧ t.inLen = s.inLen ∧ t.snap = s.snap ∧ t.inBuf = s.inBuf ∧
    t.outBuf = s.outBuf ∧ t.errcode = s.errcode ∧ t.outLen = s.outLen ∧ t.outVal = s.outVal ∧ t.cfg = s.cfg

/-- 10_state.md R25, R26, R28, R42: over every step, DONE rises only at a completion and falls only at an acknowledge,
an accepted CMD write or a reset; OVERRUN rises only at a write while BUSY and falls only at a STATUS write or a
reset. -/
def Obligations.FlagsChangeOnlyAsListed : Prop :=
  ∀ s t : State, step s = .next t →
    (s.done = false → t.done = true → s.phase = .busy ∧ t.phase = .idle) ∧
    (s.done = true → t.done = false →
      (∃ v rest, s.inbox = .access (.write 4 0x010 v) :: rest ∧ v.getLsbD 1 = true) ∨
      (∃ v rest, s.inbox = .access (.write 4 0x00C v) :: rest ∧ s.phase = .idle) ∨
      (∃ rest, s.inbox = .releaseReset :: rest ∧ s.resetAsserted = true)) ∧
    (s.overrun = false → t.overrun = true →
      s.phase = .busy ∧ ∃ n off v rest, s.inbox = .access (.write n off v) :: rest) ∧
    (s.overrun = true → t.overrun = false →
      (∃ v rest, s.inbox = .access (.write 4 0x010 v) :: rest ∧ v.getLsbD 3 = true) ∨
      (∃ rest, s.inbox = .releaseReset :: rest ∧ s.resetAsserted = true))

/-- The invariant holds right after reset. -/
def Obligations.ResetMeetsInvariant : Prop := State.reset.Inv

/-- From every state that meets the invariant, reached or not, every step leads to one that does: the parameters stay
as they are and in range, both buffers keep their form, OUT is defined exactly below OUT_LEN ≤ BUF_CAP, ERRCODE ≤ 11, an
error leaves no result, and while BUSY there is no result and SNAP equals the live registers. -/
def Obligations.StepKeepsInvariant : Prop :=
  ∀ s t : State, s.Inv → step s = .next t → t.Inv ∧ t.cfg = s.cfg
end

