-- ==== Sys2Proof/Laws/Alphabet.lean ====
section
/-! SUPPORT. The symbol tables: a lookup finds the one index of a symbol, and a whole text has indexes exactly when it
spells them. -/

namespace Sys2Proof.Machine

@[simp] theorem length_tableOf (alph : Alph) : (tableOf alph).length = radixOf alph := by cases alph <;> rfl

theorem nodup_tableOf (alph : Alph) : (tableOf alph).Nodup := by cases alph <;> decide

theorem radixOf_ge (alph : Alph) : 2 ≤ radixOf alph := by cases alph <;> decide

theorem radixOf_le (alph : Alph) : radixOf alph ≤ 58 := by cases alph <;> decide

theorem getElem?_tableOf {alph : Alph} {i : Nat} (h : i < radixOf alph) :
    (tableOf alph)[i]? = some (symbolAt alph i) := by
  have hl : i < (tableOf alph).length := by simpa using h
  rw [symbolAt, List.getD_eq_getElem?_getD, List.getElem?_eq_getElem hl]
  rfl

theorem lt_of_getElem?_tableOf {alph : Alph} {i : Nat} {c : Byte} (h : (tableOf alph)[i]? = some c) :
    i < radixOf alph ∧ symbolAt alph i = c := by
  have hl : i < (tableOf alph).length := (List.getElem?_eq_some_iff.mp h).1
  refine ⟨by simpa using hl, ?_⟩
  rw [symbolAt, List.getD_eq_getElem?_getD, h]
  rfl

/-- A search in a table without repeats finds the index at which the byte stands. -/
theorem findSymbol_eq_some {table : List Byte} (hn : table.Nodup) {c : Byte} {i : Nat} :
    findSymbol table c = some i ↔ table[i]? = some c := by
  unfold findSymbol
  rw [List.findIdx?_eq_some_iff_getElem, List.getElem?_eq_some_iff]
  constructor
  · rintro ⟨hi, hp, -⟩
    exact ⟨hi, by simpa using hp⟩
  · rintro ⟨hi, rfl⟩
    refine ⟨hi, by simp, fun j hj => ?_⟩
    have hne := List.Nodup.getElem_inj_iff hn (i := j) (j := i) (hi := by omega) (hj := hi)
    simp [hne]
    omega

theorem findSymbol_eq_none {table : List Byte} {c : Byte} : findSymbol table c = none ↔ c ∉ table := by
  unfold findSymbol
  rw [List.findIdx?_eq_none_iff]
  constructor
  · intro h hc
    simpa using h c hc
  · intro h x hx
    have : x ≠ c := fun he => h (he ▸ hx)
    simpa using this

theorem indexOf_eq_findSymbol (alph : Alph) (c : Byte) :
    indexOf alph c = findSymbol (tableOf alph) (normFor alph c) := by
  cases alph <;> rfl

/-- A byte's index is where its normalized form stands in the table (41_alphabet.md R114, R115). -/
theorem indexOf_eq_some {alph : Alph} {c : Byte} {i : Nat} :
    indexOf alph c = some i ↔ i < radixOf alph ∧ symbolAt alph i = normFor alph c := by
  rw [indexOf_eq_findSymbol, findSymbol_eq_some (nodup_tableOf alph)]
  constructor
  · exact lt_of_getElem?_tableOf
  · rintro ⟨hi, hs⟩
    rw [← hs]
    exact getElem?_tableOf hi

/-- A byte has no index exactly when its normalized form is no symbol. -/
theorem indexOf_eq_none {alph : Alph} {c : Byte} : indexOf alph c = none ↔ normFor alph c ∉ tableOf alph := by
  rw [indexOf_eq_findSymbol, findSymbol_eq_none]

/-- A text has the indexes it spells. -/
theorem indexAll_eq_ok {alph : Alph} {t : List Byte} {ds : List Nat} : indexAll alph t = .ok ds ↔ Spells alph t ds := by
  induction t generalizing ds with
  | nil =>
    constructor
    · rintro ⟨⟩
      exact ⟨rfl, by simp⟩
    · rintro ⟨h, -⟩
      cases ds with
      | nil => rfl
      | cons d ds => simp at h
  | cons c t ih =>
    constructor
    · intro h
      unfold indexAll at h
      split at h
      · next d es hd hes =>
        cases h
        obtain ⟨h1, h2⟩ := ih.mp hes
        obtain ⟨h3, h4⟩ := indexOf_eq_some.mp hd
        exact ⟨by simp [h1, h4], by simpa using ⟨h3, h2⟩⟩
      · cases h
    · rintro ⟨h1, h2⟩
      cases ds with
      | nil => simp at h1
      | cons d ds =>
        simp only [List.map_cons, List.cons.injEq] at h1
        simp only [List.mem_cons, forall_eq_or_imp] at h2
        unfold indexAll
        rw [indexOf_eq_some.mpr ⟨h2.1, h1.1.symm⟩, ih.mpr ⟨h1.2, h2.2⟩]

/-- A text with a character that is no symbol gives InvalidSymbol, and only such a text. -/
theorem indexAll_eq_error {alph : Alph} {t : List Byte} {k : ErrKind} :
    indexAll alph t = .error k ↔ k = .invalidSymbol ∧ NotSymbols alph t := by
  induction t generalizing k with
  | nil => simp [indexAll, NotSymbols]
  | cons c t ih =>
    unfold indexAll
    cases hc : indexOf alph c with
    | none =>
      have hn := indexOf_eq_none.mp hc
      constructor
      · rintro ⟨⟩
        exact ⟨rfl, c, by simp, hn⟩
      · rintro ⟨rfl, -⟩
        rfl
    | some d =>
      have hs : normFor alph c ∈ tableOf alph := by
        by_contra hn
        rw [indexOf_eq_none.mpr hn] at hc
        cases hc
      have hcons : NotSymbols alph (c :: t) ↔ NotSymbols alph t := by simp [NotSymbols, hs]
      cases ht : indexAll alph t with
      | ok ds =>
        rw [hcons]
        constructor
        · rintro ⟨⟩
        · rintro ⟨rfl, hn⟩
          rw [ih.mpr ⟨rfl, hn⟩] at ht
          cases ht
      | error k' =>
        obtain ⟨rfl, hn⟩ := ih.mp ht
        rw [hcons]
        constructor
        · rintro ⟨⟩
          exact ⟨rfl, hn⟩
        · rintro ⟨rfl, -⟩
          rfl

/-- Normalizing a symbol of the table leaves it as it is. -/
theorem normFor_symbolAt {alph : Alph} {i : Nat} (h : i < radixOf alph) :
    normFor alph (symbolAt alph i) = symbolAt alph i := by
  cases alph with
  | b58 => rfl
  | c32 =>
    have : ∀ i < 32, norm32 (symbolAt .c32 i) = symbolAt .c32 i := by decide
    exact this i h

/-- The symbols of a digit list spell it. -/
theorem spells_map_symbolAt {alph : Alph} {ds : List Nat} (h : ∀ d ∈ ds, d < radixOf alph) :
    Spells alph (ds.map (symbolAt alph)) ds := by
  refine ⟨?_, h⟩
  rw [List.map_map]
  exact List.map_congr_left fun d hd => normFor_symbolAt (h d hd)

/-- Normalizing twice is normalizing once. -/
theorem norm32_norm32 (c : Byte) : norm32 (norm32 c) = norm32 c := by
  revert c
  decide

/-- The lookup normalizes by itself, so a text may be normalized before it or not (41_alphabet.md R114;
44_check_codec.md R153). -/
theorem indexAll_map_norm32 (t : List Byte) : indexAll .c32 (t.map norm32) = indexAll .c32 t := by
  induction t with
  | nil => rfl
  | cons c t ih =>
    have hc : indexOf .c32 (norm32 c) = indexOf .c32 c := by
      simp only [indexOf, indexOf32, norm32_norm32]
    simp only [List.map_cons, indexAll, hc, ih]

end Sys2Proof.Machine
end

