-- ==== Sys2Proof/Laws/Radix.lean ====
section
/-! SUPPORT. Numbers and digits: the recurrences of 40_radix.md R101, the value and the digits of a digit list, and
leading zeros. -/

namespace Sys2Proof.Machine

@[simp] theorem lz_nil : lz [] = 0 := rfl
@[simp] theorem lz_zero_cons (xs : List Nat) : lz (0 :: xs) = lz xs + 1 := rfl
@[simp] theorem lz_succ_cons (n : Nat) (xs : List Nat) : lz ((n + 1) :: xs) = 0 := rfl

theorem lz_cons_of_ne {x : Nat} (xs : List Nat) (h : x ≠ 0) : lz (x :: xs) = 0 := by
  cases x with
  | zero => exact absurd rfl h
  | succ n => rfl

/-- A list is its leading zeros and then its remainder. -/
theorem replicate_lz_append_drop (xs : List Nat) : List.replicate (lz xs) 0 ++ xs.drop (lz xs) = xs := by
  induction xs with
  | nil => rfl
  | cons x xs ih =>
    cases x with
    | zero => simp [List.replicate_succ, ih]
    | succ n => simp

/-- The remainder starts with a nonzero element, if it is not empty (40_radix.md R102). -/
theorem drop_lz_head_ne_zero (xs : List Nat) : (xs.drop (lz xs)).head? ≠ some 0 := by
  induction xs with
  | nil => simp
  | cons x xs ih =>
    cases x with
    | zero => simpa using ih
    | succ n => simp

theorem lz_replicate_append (n : Nat) (ys : List Nat) : lz (List.replicate n 0 ++ ys) = n + lz ys := by
  induction n with
  | zero => simp
  | succ n ih => rw [List.replicate_succ, List.cons_append, lz_zero_cons, ih]; omega

theorem lz_eq_zero_of_head {ys : List Nat} (h : ys.head? ≠ some 0) : lz ys = 0 := by
  cases ys with
  | nil => rfl
  | cons y ys => exact lz_cons_of_ne ys (by simpa using h)

theorem lz_le_length (xs : List Nat) : lz xs ≤ xs.length := by
  have h := congrArg List.length (replicate_lz_append_drop xs)
  simp at h
  omega

theorem natOf_append (xs : List Nat) (y R : Nat) : natOf (xs ++ [y]) R = natOf xs R * R + y := by
  simp [natOf]

theorem foldl_eq_valueOf (R : Nat) (xs : List Nat) (v : Nat) :
    xs.foldl (fun v d => v * R + d) v = v * R ^ xs.length + valueOf R xs := by
  induction xs generalizing v with
  | nil => simp [valueOf]
  | cons x xs ih =>
    rw [List.foldl_cons, ih, valueOf, List.length_cons, pow_succ]
    ring

/-- Repeated multiply-add is the sum of the digits' weights (40_radix.md R101). -/
theorem natOf_eq_valueOf (xs : List Nat) (R : Nat) : natOf xs R = valueOf R xs := by
  simp [natOf, foldl_eq_valueOf]

theorem valueOf_append (R : Nat) (xs ys : List Nat) :
    valueOf R (xs ++ ys) = valueOf R xs * R ^ ys.length + valueOf R ys := by
  induction xs with
  | nil => simp [valueOf]
  | cons x xs ih =>
    rw [List.cons_append, valueOf, ih, valueOf, List.length_append, pow_add]
    ring

theorem valueOf_replicate_zero (R n : Nat) : valueOf R (List.replicate n 0) = 0 := by
  induction n with
  | zero => rfl
  | succ n ih => simp [List.replicate_succ, valueOf, ih]

theorem valueOf_replicate_append (R n : Nat) (ys : List Nat) :
    valueOf R (List.replicate n 0 ++ ys) = valueOf R ys := by
  simp [valueOf_append, valueOf_replicate_zero]

/-- Leading zeros do not count. -/
theorem valueOf_drop_lz (R : Nat) (xs : List Nat) : valueOf R (xs.drop (lz xs)) = valueOf R xs := by
  conv_rhs => rw [← replicate_lz_append_drop xs]
  rw [valueOf_replicate_append]

theorem valueOf_lt_pow {R : Nat} {xs : List Nat} (h : ∀ x ∈ xs, x < R) : valueOf R xs < R ^ xs.length := by
  induction xs with
  | nil => simp [valueOf]
  | cons x xs ih =>
    have hx : x < R := h x (by simp)
    have ht := ih (fun y hy => h y (by simp [hy]))
    rw [valueOf, List.length_cons, pow_succ]
    calc x * R ^ xs.length + valueOf R xs < x * R ^ xs.length + R ^ xs.length := by omega
      _ = (x + 1) * R ^ xs.length := by ring
      _ ≤ R * R ^ xs.length := Nat.mul_le_mul_right _ hx
      _ = R ^ xs.length * R := by ring

theorem pow_le_valueOf {R : Nat} {x : Nat} (xs : List Nat) (h : x ≠ 0) : R ^ xs.length ≤ valueOf R (x :: xs) := by
  rw [valueOf]
  have : R ^ xs.length ≤ x * R ^ xs.length := Nat.le_mul_of_pos_left _ (Nat.pos_of_ne_zero h)
  omega

/-- A number with a nonzero first digit is not 0. -/
theorem valueOf_ne_zero {R : Nat} (hR : 0 < R) {xs : List Nat} (hn : xs ≠ []) (h : xs.head? ≠ some 0) :
    valueOf R xs ≠ 0 := by
  cases xs with
  | nil => exact absurd rfl hn
  | cons x xs =>
    have := pow_le_valueOf (R := R) xs (x := x) (by simpa using h)
    have := Nat.pow_pos (n := xs.length) hR
    omega

theorem digitsLoop_eq {R fuel v : Nat} (hR : 2 ≤ R) (h : v ≤ fuel) (acc : List Nat) :
    digitsLoop R fuel v acc = digitsOf v R ++ acc := by
  induction fuel using Nat.strong_induction_on generalizing v acc with
  | _ fuel ih =>
    cases v with
    | zero => cases fuel <;> simp [digitsLoop, digitsOf]
    | succ v =>
      cases fuel with
      | zero => omega
      | succ fuel =>
        have hlt : (v + 1) / R < v + 1 := Nat.div_lt_self (by omega) (by omega)
        have hstep : digitsOf (v + 1) R = digitsLoop R v ((v + 1) / R) [(v + 1) % R] := by
          simp [digitsOf, digitsLoop]
        rw [hstep, digitsLoop, if_neg (by omega), ih fuel (by omega) (by omega), ih v (by omega) (by omega)]
        simp

@[simp] theorem digitsOf_zero (R : Nat) : digitsOf 0 R = [] := rfl

/-- The recurrence of 40_radix.md R101. -/
theorem digitsOf_of_pos {v R : Nat} (hR : 2 ≤ R) (hv : 0 < v) : digitsOf v R = digitsOf (v / R) R ++ [v % R] := by
  have hlt : v / R < v := Nat.div_lt_self hv (by omega)
  obtain ⟨n, rfl⟩ : ∃ n, v = n + 1 := ⟨v - 1, by omega⟩
  rw [digitsOf, digitsLoop, if_neg (by omega), digitsLoop_eq hR (by omega)]

/-- Every digit is below the radix. -/
theorem digitsOf_lt {v R : Nat} (hR : 2 ≤ R) : ∀ d ∈ digitsOf v R, d < R := by
  induction v using Nat.strong_induction_on with
  | _ v ih =>
    rcases Nat.eq_zero_or_pos v with rfl | hv
    · simp
    · rw [digitsOf_of_pos hR hv]
      intro d hd
      rcases List.mem_append.mp hd with hd | hd
      · exact ih _ (Nat.div_lt_self hv (by omega)) d hd
      · rw [List.mem_singleton.mp hd]; exact Nat.mod_lt _ (by omega)

/-- The digits of a number denote it. -/
theorem valueOf_digitsOf {R : Nat} (v : Nat) (hR : 2 ≤ R) : valueOf R (digitsOf v R) = v := by
  induction v using Nat.strong_induction_on with
  | _ v ih =>
    rcases Nat.eq_zero_or_pos v with rfl | hv
    · rfl
    · rw [digitsOf_of_pos hR hv, valueOf_append, ih _ (Nat.div_lt_self hv (by omega))]
      simp only [valueOf, List.length_singleton, pow_one, List.length_nil, pow_zero, mul_one, add_zero]
      rw [Nat.mul_comm]
      exact Nat.div_add_mod v R

/-- The first digit is not 0: the list is minimal (40_radix.md R101). -/
theorem digitsOf_head_ne_zero {v R : Nat} (hR : 2 ≤ R) : (digitsOf v R).head? ≠ some 0 := by
  induction v using Nat.strong_induction_on with
  | _ v ih =>
    rcases Nat.eq_zero_or_pos v with rfl | hv
    · simp
    · rw [digitsOf_of_pos hR hv]
      have := ih _ (Nat.div_lt_self hv (by omega : 1 < R))
      cases hd : digitsOf (v / R) R with
      | nil =>
        have hz : v / R = 0 := by
          have := valueOf_digitsOf (v / R) hR
          rw [hd] at this
          simpa [valueOf] using this.symm
        have hlt : v < R := (Nat.div_eq_zero_iff_lt (by omega)).mp hz
        simp [Nat.mod_eq_of_lt hlt]
        omega
      | cons x xs =>
        rw [hd] at this
        simpa using this

theorem byteOf_toNat {n : Nat} (h : n < 256) : (byteOf n).toNat = n := by
  simp [byteOf, Nat.mod_eq_of_lt h]

@[simp] theorem byteOf_of_toNat (b : Byte) : byteOf b.toNat = b := by
  simp [byteOf]

@[simp] theorem bytesOf_natsOf (bs : List Byte) : bytesOf (natsOf bs) = bs := by
  simp [bytesOf, natsOf, Function.comp_def]

theorem natsOf_bytesOf {ns : List Nat} (h : ∀ n ∈ ns, n < 256) : natsOf (bytesOf ns) = ns := by
  induction ns with
  | nil => rfl
  | cons n ns ih =>
    simp only [bytesOf, natsOf, List.map_cons] at ih ⊢
    rw [byteOf_toNat (h n (by simp)), ih (fun m hm => h m (by simp [hm]))]

theorem natsOf_lt (bs : List Byte) : ∀ n ∈ natsOf bs, n < 256 := by
  intro n hn
  obtain ⟨b, -, rfl⟩ := List.mem_map.mp hn
  exact b.isLt

@[simp] theorem length_natsOf (bs : List Byte) : (natsOf bs).length = bs.length := by simp [natsOf]
@[simp] theorem length_bytesOf (ns : List Nat) : (bytesOf ns).length = ns.length := by simp [bytesOf]

@[simp] theorem badRadix_iff (R : Nat) : badRadix R = true ↔ R < 2 ∨ R > 256 := by
  simp [badRadix]

/-- Two digit lists of one radix with the same number, leading zeros and length are the same. -/
theorem eq_of_valueOf_eq {R : Nat} {xs ys : List Nat} (hl : xs.length = ys.length) (hx : ∀ x ∈ xs, x < R)
    (hy : ∀ y ∈ ys, y < R) (h : valueOf R xs = valueOf R ys) : xs = ys := by
  induction xs generalizing ys with
  | nil => exact (List.length_eq_zero_iff.mp hl.symm).symm
  | cons x xs ih =>
    cases ys with
    | nil => simp at hl
    | cons y ys =>
      have hl' : xs.length = ys.length := by simpa using hl
      have h1 := valueOf_lt_pow (R := R) (xs := xs) (fun z hz => hx z (by simp [hz]))
      have h2 := valueOf_lt_pow (R := R) (xs := ys) (fun z hz => hy z (by simp [hz]))
      rw [valueOf, valueOf, hl'] at h
      rw [hl'] at h1
      have hxy : x = y := by
        have e1 : (x * R ^ ys.length + valueOf R xs) / R ^ ys.length = x := by
          rw [Nat.mul_comm, Nat.mul_add_div (by omega), Nat.div_eq_of_lt h1, Nat.add_zero]
        have e2 : (y * R ^ ys.length + valueOf R ys) / R ^ ys.length = y := by
          rw [Nat.mul_comm, Nat.mul_add_div (by omega), Nat.div_eq_of_lt h2, Nat.add_zero]
        rw [← e1, h, e2]
      subst hxy
      rw [ih hl' (fun z hz => hx z (by simp [hz])) (fun z hz => hy z (by simp [hz])) (by omega)]

/-- The conversion keeps the number and the leading zeros, and gives digits of its radix (40_radix.md R102, R103). -/
theorem sameNumber_reradix {src dst : Nat} (xs : List Nat) (hd : 2 ≤ dst) :
    SameNumber src dst xs (reradix src dst xs) := by
  refine ⟨?_, ?_, ?_⟩
  · rw [reradix, lz_replicate_append, lz_eq_zero_of_head (digitsOf_head_ne_zero hd)]; rfl
  · intro d hdm
    rw [reradix] at hdm
    rcases List.mem_append.mp hdm with h | h
    · have := List.eq_of_mem_replicate h; omega
    · exact digitsOf_lt hd d h
  · rw [reradix, valueOf_replicate_append, valueOf_digitsOf _ hd, natOf_eq_valueOf, valueOf_drop_lz]

/-- No other digit list has them (40_radix.md R101: the list of a number is minimal). -/
theorem SameNumber.unique {src dst : Nat} {xs ys zs : List Nat} (hy : SameNumber src dst xs ys) (hd : 2 ≤ dst)
    (hz : SameNumber src dst xs zs) : ys = zs := by
  have ry := replicate_lz_append_drop ys
  have rz := replicate_lz_append_drop zs
  have hlz : lz ys = lz zs := hy.zeros.trans hz.zeros.symm
  have hv : valueOf dst (ys.drop (lz ys)) = valueOf dst (zs.drop (lz zs)) := by
    rw [valueOf_drop_lz, valueOf_drop_lz, hy.value, hz.value]
  have hyh := drop_lz_head_ne_zero ys
  have hzh := drop_lz_head_ne_zero zs
  have hyb : ∀ d ∈ ys.drop (lz ys), d < dst := fun d h => hy.below d (List.mem_of_mem_drop h)
  have hzb : ∀ d ∈ zs.drop (lz zs), d < dst := fun d h => hz.below d (List.mem_of_mem_drop h)
  have key : ∀ {as bs : List Nat}, as.head? ≠ some 0 → (∀ d ∈ bs, d < dst) → valueOf dst as = valueOf dst bs →
      as.length ≤ bs.length := by
    intro as bs ha hb h
    cases as with
    | nil => simp
    | cons a as =>
      have h1 := pow_le_valueOf (R := dst) as (x := a) (by simpa using ha)
      have h2 := valueOf_lt_pow hb
      rw [h] at h1
      have := (Nat.pow_lt_pow_iff_right (by omega : 1 < dst)).mp (lt_of_le_of_lt h1 h2)
      simpa using this
  have hl := Nat.le_antisymm (key hyh hzb hv) (key hzh hyb hv.symm)
  have := eq_of_valueOf_eq hl hyb hzb hv
  rw [← ry, ← rz, hlz]
  rw [hlz] at this
  rw [this]

/-- Read the other way, the digits stand for the same number. -/
theorem SameNumber.symm {src dst : Nat} {xs ys : List Nat} (h : SameNumber src dst xs ys) (hx : ∀ x ∈ xs, x < src) :
    SameNumber dst src ys xs := ⟨h.zeros.symm, hx, h.value.symm⟩

/-- toDigits gives the digits of the number. -/
theorem toDigits_eq {bs : List Byte} {R : Nat} {ds : List Nat} (hR : 2 ≤ R) (h : SameNumber 256 R (natsOf bs) ds) :
    toDigits bs R = ds := (sameNumber_reradix _ hR).unique hR h

/-- toBytes gives the bytes of the number. -/
theorem toBytes_eq {ds : List Nat} {R : Nat} {bs : List Byte} (h : SameNumber R 256 ds (natsOf bs)) :
    toBytes ds R = bs := by
  rw [toBytes, (sameNumber_reradix _ (by omega)).unique (by omega) h, bytesOf_natsOf]

theorem natsOf_toBytes {ds : List Nat} {R : Nat} : natsOf (toBytes ds R) = reradix R 256 ds := by
  rw [toBytes, natsOf_bytesOf]
  intro n hn
  rw [reradix] at hn
  rcases List.mem_append.mp hn with h | h
  · have := List.eq_of_mem_replicate h; omega
  · exact digitsOf_lt (by omega) n h

/-- A radix no smaller needs no more digits. -/
theorem SameNumber.length_le {src dst : Nat} {xs ys : List Nat} (h : SameNumber src dst xs ys)
    (hx : ∀ x ∈ xs, x < src) (hle : src ≤ dst) (hs : 2 ≤ src) : ys.length ≤ xs.length := by
  have ry := congrArg List.length (replicate_lz_append_drop ys)
  have rx := congrArg List.length (replicate_lz_append_drop xs)
  have hv : valueOf dst (ys.drop (lz ys)) = valueOf src (xs.drop (lz xs)) := by
    rw [valueOf_drop_lz, valueOf_drop_lz, h.value]
  have hh := drop_lz_head_ne_zero ys
  have : (ys.drop (lz ys)).length ≤ (xs.drop (lz xs)).length := by
    cases hy : ys.drop (lz ys) with
    | nil => simp
    | cons a as =>
      rw [hy] at hh hv
      have h1 := pow_le_valueOf (R := dst) as (x := a) (by simpa using hh)
      have h2 := valueOf_lt_pow (R := src) (xs := xs.drop (lz xs)) (fun d hd => hx d (List.mem_of_mem_drop hd))
      rw [hv] at h1
      have h3 := Nat.pow_le_pow_left hle as.length
      have := (Nat.pow_lt_pow_iff_right (by omega : 1 < src)).mp (lt_of_le_of_lt (le_trans h3 h1) h2)
      simpa using this
  have := h.zeros
  simp only [List.length_append, List.length_replicate] at rx ry
  omega

/-- A byte takes at most two digits of a radix of 16 or more. -/
theorem SameNumber.length_le_double {dst : Nat} {xs ys : List Nat} (h : SameNumber 256 dst xs ys) (hx : ∀ x ∈ xs, x < 256)
    (hd : 16 ≤ dst) : ys.length ≤ 2 * xs.length := by
  have ry := congrArg List.length (replicate_lz_append_drop ys)
  have rx := congrArg List.length (replicate_lz_append_drop xs)
  have hv : valueOf dst (ys.drop (lz ys)) = valueOf 256 (xs.drop (lz xs)) := by
    rw [valueOf_drop_lz, valueOf_drop_lz, h.value]
  have hh := drop_lz_head_ne_zero ys
  have : (ys.drop (lz ys)).length ≤ 2 * (xs.drop (lz xs)).length := by
    cases hy : ys.drop (lz ys) with
    | nil => simp
    | cons a as =>
      rw [hy] at hh hv
      have h1 := pow_le_valueOf (R := dst) as (x := a) (by simpa using hh)
      have h2 := valueOf_lt_pow (R := 256) (xs := xs.drop (lz xs)) (fun d hd => hx d (List.mem_of_mem_drop hd))
      rw [hv] at h1
      have h3 := Nat.pow_le_pow_left hd as.length
      rw [show (256:Nat) = 16 ^ 2 by norm_num, ← pow_mul] at h2
      have := (Nat.pow_lt_pow_iff_right (by omega : 1 < 16)).mp (lt_of_le_of_lt (le_trans h3 h1) h2)
      simp only [List.length_cons]; omega
  have := h.zeros
  simp only [List.length_append, List.length_replicate] at rx ry
  omega

end Sys2Proof.Machine
end

