-- ==== Sys2Proof/Laws/Hex.lean ====
section
/-! SUPPORT. Hex texts: a text parses exactly to the bytes it denotes, and rendering is a hex text. -/

namespace Sys2Proof.Machine

/-- A character's value is the hex digit it is (42_plain_codec.md R130). -/
theorem hexval_eq_some {c : Byte} {v : Nat} : hexval c = some v ↔ IsHexDigit c v := by
  unfold hexval IsHexDigit
  simp only [BitVec.le_def, BitVec.reduceToNat]
  constructor
  · intro h
    split at h
    · simp only [Option.some.injEq] at h; omega
    · split at h
      · simp only [Option.some.injEq] at h; omega
      · split at h
        · simp only [Option.some.injEq] at h; omega
        · cases h
  · intro h
    split
    · simp only [Option.some.injEq]; omega
    · split
      · simp only [Option.some.injEq]; omega
      · split
        · simp only [Option.some.injEq]; omega
        · exfalso; omega

theorem hexval_eq_none {c : Byte} : hexval c = none ↔ ∀ v, ¬ IsHexDigit c v := by
  constructor
  · intro h v hv
    rw [hexval_eq_some.mpr hv] at h
    cases h
  · intro h
    cases hc : hexval c with
    | none => rfl
    | some v => exact absurd (hexval_eq_some.mp hc) (h v)

theorem IsHexDigit.lt {c : Byte} {v : Nat} (h : IsHexDigit c v) : v < 16 := by
  unfold IsHexDigit at h; omega

/-- A character is one hex digit only. -/
theorem IsHexDigit.unique {c : Byte} {v w : Nat} (h : IsHexDigit c v) (h' : IsHexDigit c w) : v = w := by
  rw [← hexval_eq_some] at h h'
  rw [h] at h'
  exact Option.some.inj h'

/-- The values of a text, one for each character. -/
theorem hexvals_eq_ok {t : List Byte} {vs : List Nat} :
    hexvals t = .ok vs ↔ t.length = vs.length ∧ ∀ (k : Nat) (c : Byte) (v : Nat), t[k]? = some c → vs[k]? = some v → IsHexDigit c v := by
  induction t generalizing vs with
  | nil =>
    constructor
    · rintro ⟨⟩
      simp
    · rintro ⟨h, -⟩
      cases vs with
      | nil => rfl
      | cons v vs => simp at h
  | cons c t ih =>
    constructor
    · intro h
      unfold hexvals at h
      split at h
      · next v ws hv hws =>
        cases h
        obtain ⟨h1, h2⟩ := ih.mp hws
        refine ⟨by simp [h1], fun k x y hx hy => ?_⟩
        cases k with
        | zero =>
          simp only [List.getElem?_cons_zero, Option.some.injEq] at hx hy
          subst hx hy
          exact hexval_eq_some.mp hv
        | succ k => exact h2 k x y (by simpa using hx) (by simpa using hy)
      · cases h
    · rintro ⟨h1, h2⟩
      cases vs with
      | nil => simp at h1
      | cons v vs =>
        have hv := hexval_eq_some.mpr (h2 0 c v rfl rfl)
        have hvs := ih.mpr ⟨by simpa using h1, fun k x y hx hy => h2 (k + 1) x y (by simpa using hx) (by simpa using hy)⟩
        unfold hexvals
        rw [hv, hvs]

theorem hexvals_eq_error {t : List Byte} {k : ErrKind} : hexvals t = .error k ↔ k = .invalidHex ∧ NotHex t := by
  induction t generalizing k with
  | nil => simp [hexvals, NotHex]
  | cons c t ih =>
    unfold hexvals
    cases hc : hexval c with
    | none =>
      constructor
      · rintro ⟨⟩
        exact ⟨rfl, c, by simp, hexval_eq_none.mp hc⟩
      · rintro ⟨rfl, -⟩
        rfl
    | some v =>
      have hs : ¬ ∀ w, ¬ IsHexDigit c w := fun h => h v (hexval_eq_some.mp hc)
      have hcons : NotHex (c :: t) ↔ NotHex t := by
        unfold NotHex
        simp [hs]
      cases ht : hexvals t with
      | ok vs =>
        rw [hcons]
        constructor
        · rintro ⟨⟩
        · rintro ⟨rfl, hn⟩
          rw [ih.mpr ⟨rfl, hn⟩] at ht
          cases ht
      | error k' =>
        obtain ⟨rfl, hn⟩ := ih.mp ht
        rw [hcons]
        constructor
        · rintro ⟨⟩
          exact ⟨rfl, hn⟩
        · rintro ⟨rfl, -⟩
          rfl

/-- A text that is not hex gives InvalidHex, and only such a text (42_plain_codec.md R130). -/
theorem hexParse_eq_error {t : List Byte} {k : ErrKind} : hexParse t = .error k ↔ k = .invalidHex ∧ NotHex t := by
  rw [← hexvals_eq_error]
  unfold hexParse
  cases hexvals t <;> simp

/-- The nibbles of an even list, pair by pair. -/
theorem nibblePairs_spec (n : Nat) (vs : List Nat) (hl : vs.length = 2 * n) (hv : ∀ v ∈ vs, v < 16) :
    (nibblePairs vs).length = n ∧
      ∀ (k : Nat) (b : Byte), (nibblePairs vs)[k]? = some b →
        vs[2 * k]? = some (b.toNat / 16) ∧ vs[2 * k + 1]? = some (b.toNat % 16) := by
  induction n generalizing vs with
  | zero =>
    have : vs = [] := List.length_eq_zero_iff.mp hl
    subst this
    simp [nibblePairs]
  | succ n ih =>
    match vs, hl with
    | hi :: lo :: rest, hl =>
      have h1 : hi < 16 := hv hi (by simp)
      have h2 : lo < 16 := hv lo (by simp)
      obtain ⟨il, ik⟩ := ih rest (by simp at hl; omega) (fun v h => hv v (by simp [h]))
      refine ⟨by simp [nibblePairs, il], fun k b hb => ?_⟩
      cases k with
      | zero =>
        simp only [nibblePairs, List.getElem?_cons_zero, Option.some.injEq] at hb
        subst hb
        have hb : (byteOf (16 * hi + lo)).toNat = 16 * hi + lo := byteOf_toNat (by omega)
        simp only [Nat.mul_zero, List.getElem?_cons_zero, hb, Nat.zero_add, List.getElem?_cons_succ, Option.some.injEq]
        omega
      | succ k =>
        have := ik k b (by simpa [nibblePairs] using hb)
        rw [show 2 * (k + 1) = 2 * k + 1 + 1 by omega]
        simpa using this

/-- The text whose characters are paired: an odd one has '0' before it (42_plain_codec.md R130). -/
def evenText (h : List Byte) : List Byte := if h.length % 2 = 1 then 0x30 :: h else h

theorem hexText_iff {h bs : List Byte} :
    HexText h bs ↔ (evenText h).length = 2 * bs.length ∧
      ∀ k b, bs[k]? = some b →
        (∃ c, (evenText h)[2 * k]? = some c ∧ IsHexDigit c (b.toNat / 16)) ∧
        (∃ c, (evenText h)[2 * k + 1]? = some c ∧ IsHexDigit c (b.toNat % 16)) := Iff.rfl

/-- The zero nibble before the values is the value of the '0' before the text. -/
theorem hexvals_evenText {h : List Byte} {vs : List Nat} (hv : hexvals h = .ok vs) :
    hexvals (evenText h) = .ok (evenNibbles vs) := by
  have hl := (hexvals_eq_ok.mp hv).1
  unfold evenText evenNibbles
  rw [← hl]
  split
  · unfold hexvals
    rw [hv]
    rfl
  · exact hv

theorem evenText_length (h : List Byte) : ∃ n, (evenText h).length = 2 * n := by
  unfold evenText
  split
  · exact ⟨(h.length + 1) / 2, by simp; omega⟩
  · exact ⟨h.length / 2, by omega⟩

/-- The bytes a text parses to are bytes it denotes. -/
theorem hexText_of_hexParse {h bs : List Byte} (hp : hexParse h = .ok bs) : HexText h bs := by
  unfold hexParse at hp
  split at hp
  · next vs hv =>
    cases hp
    obtain ⟨hl, hd⟩ := hexvals_eq_ok.mp (hexvals_evenText hv)
    obtain ⟨n, hn⟩ := evenText_length h
    have hlt : ∀ v ∈ evenNibbles vs, v < 16 := by
      intro v hm
      obtain ⟨k, hk, hkv⟩ := List.mem_iff_getElem.mp hm
      have hk' : k < (evenText h).length := by omega
      exact (hd k _ v (List.getElem?_eq_getElem hk') (hkv ▸ List.getElem?_eq_getElem hk)).lt
    obtain ⟨pl, pk⟩ := nibblePairs_spec n _ (hl ▸ hn) hlt
    refine hexText_iff.mpr ⟨by omega, fun k b hb => ?_⟩
    obtain ⟨h1, h2⟩ := pk k b hb
    have hkn : k < n := by rw [← pl]; exact (List.getElem?_eq_some_iff.mp hb).1
    have e1 : 2 * k < (evenText h).length := by omega
    have e2 : 2 * k + 1 < (evenText h).length := by omega
    exact ⟨⟨_, List.getElem?_eq_getElem e1, hd _ _ _ (List.getElem?_eq_getElem e1) h1⟩,
      ⟨_, List.getElem?_eq_getElem e2, hd _ _ _ (List.getElem?_eq_getElem e2) h2⟩⟩
  · cases hp

/-- A text denotes one byte list only. -/
theorem HexText.unique {h bs bs' : List Byte} (h1 : HexText h bs) (h2 : HexText h bs') : bs = bs' := by
  rw [hexText_iff] at h1 h2
  have hl : bs.length = bs'.length := by omega
  apply List.ext_getElem hl
  intro k hk hk'
  obtain ⟨⟨c, hc, hcd⟩, ⟨d, hd, hdd⟩⟩ := h1.2 k _ (List.getElem?_eq_getElem hk)
  obtain ⟨⟨c', hc', hcd'⟩, ⟨d', hd', hdd'⟩⟩ := h2.2 k _ (List.getElem?_eq_getElem hk')
  obtain rfl : c = c' := Option.some.inj (hc.symm.trans hc')
  obtain rfl : d = d' := Option.some.inj (hd.symm.trans hd')
  have hhi := hcd.unique hcd'
  have hlo := hdd.unique hdd'
  apply BitVec.eq_of_toNat_eq
  omega

/-- A text of bytes is hex throughout. -/
theorem HexText.not_notHex {h bs : List Byte} (ht : HexText h bs) : ¬ NotHex h := by
  rw [hexText_iff] at ht
  rintro ⟨c, hc, hn⟩
  have hm : c ∈ evenText h := by
    unfold evenText
    split
    · exact List.mem_cons_of_mem _ hc
    · exact hc
  obtain ⟨j, hj, rfl⟩ := List.mem_iff_getElem.mp hm
  have hb : j / 2 < bs.length := by omega
  obtain ⟨⟨d, hd, hdd⟩, ⟨e, he, hee⟩⟩ := ht.2 (j / 2) _ (List.getElem?_eq_getElem hb)
  rcases Nat.mod_two_eq_zero_or_one j with h0 | h1
  · rw [show 2 * (j / 2) = j by omega, List.getElem?_eq_getElem hj] at hd
    cases hd
    exact hn _ hdd
  · rw [show 2 * (j / 2) + 1 = j by omega, List.getElem?_eq_getElem hj] at he
    cases he
    exact hn _ hee

/-- A text parses to bytes exactly when it denotes them (42_plain_codec.md R130). -/
theorem hexParse_eq_ok {h bs : List Byte} : hexParse h = .ok bs ↔ HexText h bs := by
  constructor
  · exact hexText_of_hexParse
  · intro ht
    cases hp : hexParse h with
    | error k => exact absurd (hexParse_eq_error.mp hp).2 ht.not_notHex
    | ok bs' => rw [(hexText_of_hexParse hp).unique ht]

@[simp] theorem length_hexRender (bs : List Byte) : (hexRender bs).length = 2 * bs.length := by
  induction bs with
  | nil => rfl
  | cons b bs ih => simp [hexRender, ih]; omega

end Sys2Proof.Machine
end

