-- ==== Sys2Proof/Laws/Codec.lean ====
section
/-! SUPPORT. The codecs: the parameters' bounds, the checksum's length, what the last check of a decoder answers, the
symbols an encoder writes, and lookups in VMAP. -/

namespace Sys2Proof.Machine

/-- What a well-formed configuration gives. -/
theorem Config.wf_bounds {c : Config} (h : c.wf = true) :
    64 ≤ c.bufCap ∧ c.bufCap ≤ 1024 ∧ (c.vmap.map Prod.fst).Nodup ∧ (c.vmap.map Prod.snd).Nodup ∧
      ∀ p ∈ c.vmap, p.1 ≤ 31 ∧ p.2 ≤ 255 := by
  simp only [Config.wf, Bool.and_eq_true, decide_eq_true_eq, List.all_eq_true] at h
  exact ⟨h.1.1.1.1.1, h.1.1.1.1.2, h.1.1.2, h.1.2, h.2⟩

/-- A checksum is 4 bytes (43_checksum.md R140). -/
@[simp] theorem length_checksum (c : Config) (bs : List Byte) : (checksum c bs).length = 4 := rfl

/-- The last check of a decoder on a payload and 4 bytes (44_check_codec.md R153, R154). -/
theorem splitCheck_append {c : Config} {v : Nat} {p sum : List Byte} (h : sum.length = 4) :
    splitCheck c v (p ++ sum) = if Checked c v p sum then Except.ok (v, p) else (.error .checksumMismatch : Except ErrKind _) := by
  have e1 : (p ++ sum).take ((p ++ sum).length - 4) = p := by
    rw [List.length_append, h, Nat.add_sub_cancel]; simp
  have e2 : (p ++ sum).drop ((p ++ sum).length - 4) = sum := by
    rw [List.length_append, h, Nat.add_sub_cancel]; simp
  by_cases hc : checksum c (byteOf v :: p) = sum <;> simp only [splitCheck, e1, e2, Checked, hc] <;> simp [hc]

/-- The symbols of an encoding without padding. -/
theorem plainEnc_zero {alph : Alph} {bs : List Byte} {ds : List Nat} (h : SameNumber 256 (radixOf alph) (natsOf bs) ds) :
    plainEnc alph bs 0 = ds.map (symbolAt alph) := by
  simp [plainEnc, toDigits_eq (radixOf_ge alph) h, padFront, symbolsOf]

/-- A hex text's length, made even, is two characters a byte. -/
theorem HexText.length_eq {h p : List Byte} (hh : HexText h p) : h.length + h.length % 2 = 2 * p.length := by
  have he : (evenText h).length = h.length + h.length % 2 := by
    unfold evenText
    split
    · simp; omega
    · omega
  rw [← he]
  exact (hexText_iff.mp hh).1

theorem vmapToB58_eq_none {m : List (Nat × Nat)} {v : Nat} : vmapToB58 m v = none ↔ ∀ b, (v, b) ∉ m := by
  induction m with
  | nil => simp [vmapToB58]
  | cons p m ih =>
    obtain ⟨c, b⟩ := p
    unfold vmapToB58
    split
    · next h => subst h; simp; exact ⟨b, by simp⟩
    · next h => rw [ih]; simp [Ne.symm h]

theorem vmapToC32_eq_none {m : List (Nat × Nat)} {v : Nat} : vmapToC32 m v = none ↔ ∀ b, (b, v) ∉ m := by
  induction m with
  | nil => simp [vmapToC32]
  | cons p m ih =>
    obtain ⟨c, b⟩ := p
    unfold vmapToC32
    split
    · next h => subst h; simp; exact ⟨c, by simp⟩
    · next h => rw [ih]; simp [Ne.symm h]

theorem vmapToB58_eq_some {m : List (Nat × Nat)} (hn : (m.map Prod.fst).Nodup) {v b : Nat} (h : (v, b) ∈ m) : vmapToB58 m v = some b := by
  induction m with
  | nil => simp at h
  | cons p m ih =>
    obtain ⟨c, d⟩ := p
    simp only [List.map_cons, List.nodup_cons] at hn
    unfold vmapToB58
    rcases List.mem_cons.mp h with h | h
    · cases h; simp
    · rw [if_neg, ih hn.2 h]
      rintro rfl
      exact hn.1 (List.mem_map.mpr ⟨_, h, rfl⟩)

theorem vmapToC32_eq_some {m : List (Nat × Nat)} (hn : (m.map Prod.snd).Nodup) {v b : Nat} (h : (b, v) ∈ m) : vmapToC32 m v = some b := by
  induction m with
  | nil => simp at h
  | cons p m ih =>
    obtain ⟨c, d⟩ := p
    simp only [List.map_cons, List.nodup_cons] at hn
    unfold vmapToC32
    rcases List.mem_cons.mp h with h | h
    · cases h; simp
    · rw [if_neg, ih hn.2 h]
      rintro rfl
      exact hn.1 (List.mem_map.mpr ⟨_, h, rfl⟩)

theorem mem_of_vmapToB58 {m : List (Nat × Nat)} {v b : Nat} (h : vmapToB58 m v = some b) : (v, b) ∈ m := by
  induction m with
  | nil => cases h
  | cons p m ih =>
    obtain ⟨c, d⟩ := p
    unfold vmapToB58 at h
    split at h
    · next hc => subst hc; cases h; simp
    · exact List.mem_cons_of_mem _ (ih h)

theorem mem_of_vmapToC32 {m : List (Nat × Nat)} {v b : Nat} (h : vmapToC32 m v = some b) : (b, v) ∈ m := by
  induction m with
  | nil => cases h
  | cons p m ih =>
    obtain ⟨c, d⟩ := p
    unfold vmapToC32 at h
    split at h
    · next hc => subst hc; cases h; simp
    · exact List.mem_cons_of_mem _ (ih h)

end Sys2Proof.Machine
end

