-- ==== Sys2Proof/Laws/Memory.lean ====
section
/-! SUPPORT. The buffers: what a read gives after a write, that every operation keeps the canonical form, and what a
range read gives. -/

namespace Sys2Proof.Machine

@[simp] theorem Memory.read_nil (i : Nat) : Memory.read [] i = none := rfl

theorem Memory.read_cons (j : Nat) (b : Byte) (m : Memory) (i : Nat) :
    Memory.read ((j, b) :: m) i = if i = j then some b else m.read i := rfl

/-- Nothing is listed below the bound of a rising list. -/
theorem Memory.read_of_lt_rising {m : Memory} {j i : Nat} (h : Memory.risingFrom j m = true) (hi : i < j) :
    m.read i = none := by
  induction m generalizing j with
  | nil => rfl
  | cons c rest ih =>
    obtain ⟨k, b⟩ := c
    simp only [Memory.risingFrom, Bool.and_eq_true, decide_eq_true_eq] at h
    rw [Memory.read_cons, if_neg (by omega)]
    exact ih h.2 (by omega)

theorem Memory.risingFrom_mono {m : Memory} {i j : Nat} (hij : i ≤ j) (h : Memory.risingFrom j m = true) :
    Memory.risingFrom i m = true := by
  cases m with
  | nil => rfl
  | cons c rest =>
    simp only [Memory.risingFrom, Bool.and_eq_true, decide_eq_true_eq] at h ⊢
    exact ⟨by omega, h.2⟩

theorem Memory.write_risingFrom {m : Memory} {j i : Nat} (b : Byte) (h : Memory.risingFrom j m = true) (hi : j ≤ i) :
    Memory.risingFrom j (m.write i b) = true := by
  induction m generalizing j with
  | nil => simp [Memory.write, Memory.risingFrom, hi]
  | cons c rest ih =>
    obtain ⟨k, d⟩ := c
    simp only [Memory.risingFrom, Bool.and_eq_true, decide_eq_true_eq] at h
    unfold Memory.write
    split
    · simp only [Memory.risingFrom, Bool.and_eq_true, decide_eq_true_eq]
      exact ⟨hi, by omega, h.2⟩
    · split
      · subst i
        simpa only [Memory.risingFrom, Bool.and_eq_true, decide_eq_true_eq] using h
      · simp only [Memory.risingFrom, Bool.and_eq_true, decide_eq_true_eq]
        exact ⟨h.1, ih h.2 (by omega)⟩

/-- A write keeps the canonical form. -/
theorem Memory.write_wf {m : Memory} (i : Nat) (b : Byte) (h : m.wf = true) : (m.write i b).wf = true :=
  Memory.write_risingFrom b h (Nat.zero_le i)

/-- A read after a write: the written byte at its own offset, every other offset as before. -/
theorem Memory.read_write (m : Memory) (i j : Nat) (b : Byte) :
    (m.write i b).read j = if j = i then some b else m.read j := by
  induction m with
  | nil => rfl
  | cons c rest ih =>
    obtain ⟨k, d⟩ := c
    unfold Memory.write
    split
    · rfl
    · split
      · subst i
        simp only [Memory.read_cons]
        split <;> rfl
      · rw [Memory.read_cons, ih, Memory.read_cons]
        split
        · rw [if_neg (by omega)]
        · rfl

theorem Memory.ofBytesFrom_risingFrom (i : Nat) (bs : List Byte) :
    Memory.risingFrom i (Memory.ofBytesFrom i bs) = true := by
  induction bs generalizing i with
  | nil => rfl
  | cons b bs ih => simp [Memory.ofBytesFrom, Memory.risingFrom, ih]

/-- A result's buffer has the canonical form. -/
theorem Memory.ofBytes_wf (bs : List Byte) : (Memory.ofBytes bs).wf = true :=
  Memory.ofBytesFrom_risingFrom 0 bs

theorem Memory.read_ofBytesFrom (i : Nat) (bs : List Byte) (k : Nat) :
    (Memory.ofBytesFrom i bs).read k = if i ≤ k then bs[k - i]? else none := by
  induction bs generalizing i with
  | nil => simp [Memory.ofBytesFrom]
  | cons b bs ih =>
    rw [Memory.ofBytesFrom, Memory.read_cons, ih]
    by_cases h : k = i
    · simp [h]
    · by_cases h' : i ≤ k
      · rw [if_neg h, if_pos h', if_pos (by omega)]
        rw [show k - i = (k - (i + 1)) + 1 by omega, List.getElem?_cons_succ]
      · rw [if_neg h, if_neg h', if_neg (by omega)]

/-- A result's buffer holds the result's bytes and nothing else. -/
@[simp] theorem Memory.read_ofBytes (bs : List Byte) (k : Nat) : (Memory.ofBytes bs).read k = bs[k]? := by
  simp [Memory.ofBytes, Memory.read_ofBytesFrom]

/-- A range read gives `t` exactly when every byte of the range holds `t`'s byte. -/
theorem Memory.readRange_eq_some (m : Memory) (i n : Nat) (t : List Byte) :
    m.readRange i n = some t ↔ t.length = n ∧ ∀ k < n, m.read (i + k) = t[k]? := by
  induction n generalizing i t with
  | zero =>
    simp only [Memory.readRange, Option.some.injEq, Nat.not_lt_zero, false_implies, implies_true, and_true]
    constructor
    · rintro rfl; rfl
    · intro h; exact (List.length_eq_zero_iff.mp h).symm
  | succ n ih =>
    unfold Memory.readRange
    constructor
    · split
      · next b bs hb hbs =>
        rintro ⟨⟩
        obtain ⟨hl, hk⟩ := (ih (i + 1) bs).mp hbs
        refine ⟨by simp [hl], fun k hk' => ?_⟩
        cases k with
        | zero => simpa using hb
        | succ k => rw [show i + (k + 1) = i + 1 + k by omega, hk k (by omega), List.getElem?_cons_succ]
      · rintro ⟨⟩
    · rintro ⟨hl, hk⟩
      cases t with
      | nil => simp at hl
      | cons b bs =>
        have h0 : m.read i = some b := by simpa using hk 0 (by omega)
        have h1 : m.readRange (i + 1) n = some bs := (ih (i + 1) bs).mpr
          ⟨by simpa using hl, fun k hk' => by
            rw [show i + 1 + k = i + (k + 1) by omega, hk (k + 1) (by omega), List.getElem?_cons_succ]⟩
        rw [h0, h1]

/-- A range read fails exactly when some byte of the range was never written. -/
theorem Memory.readRange_eq_none (m : Memory) (i n : Nat) :
    m.readRange i n = none ↔ ∃ k < n, m.read (i + k) = none := by
  induction n generalizing i with
  | zero => simp [Memory.readRange]
  | succ n ih =>
    unfold Memory.readRange
    constructor
    · split
      · rintro ⟨⟩
      · next h =>
        intro _
        cases h0 : m.read i with
        | none => exact ⟨0, by omega, by simpa using h0⟩
        | some b =>
          cases h1 : m.readRange (i + 1) n with
          | none =>
            obtain ⟨k, hk, hr⟩ := (ih (i + 1)).mp h1
            exact ⟨k + 1, by omega, by rw [← hr]; congr 1; omega⟩
          | some bs => exact absurd h1 (h b bs h0)
    · rintro ⟨k, hk, hr⟩
      split
      · next b bs hb hbs =>
        cases k with
        | zero =>
          rw [Nat.add_zero, hb] at hr
          cases hr
        | succ k =>
          have := (ih (i + 1)).mpr ⟨k, by omega, by rw [← hr]; congr 1; omega⟩
          rw [this] at hbs
          cases hbs
      · rfl

/-- Buffers that agree below a bound give the same range. -/
theorem Memory.readRange_congr {m m' : Memory} {i n : Nat} (h : ∀ k < n, m.read (i + k) = m'.read (i + k)) :
    m.readRange i n = m'.readRange i n := by
  induction n generalizing i with
  | zero => rfl
  | succ n ih =>
    have h0 : m.read i = m'.read i := by simpa using h 0 (by omega)
    have h1 := ih (i := i + 1) (fun k hk => by
      rw [show i + 1 + k = i + (k + 1) by omega]; exact h (k + 1) (by omega))
    simp only [Memory.readRange, h0, h1]

/-- `exceeds` compares a length. -/
@[simp] theorem exceeds_eq (n : Nat) (xs : List Byte) : exceeds n xs = decide (n < xs.length) := by
  induction xs generalizing n with
  | nil => simp [exceeds]
  | cons x xs ih =>
    cases n with
    | zero => simp [exceeds]
    | succ n => simp [exceeds, ih]

end Sys2Proof.Machine
end

