-- ==== Sys2Proof/Laws/State.lean ====
section
/-! SUPPORT. One lemma per field per update of the state: what each shared operation leaves in each field. -/

namespace Sys2Proof.Machine

variable (s : State)

@[simp] theorem State.start_ie (w : Word) : (s.start w).ie = s.ie := rfl
@[simp] theorem State.start_cmd (w : Word) : (s.start w).cmd = w := rfl
@[simp] theorem State.start_done (w : Word) : (s.start w).done = false := rfl
@[simp] theorem State.start_overrun (w : Word) : (s.start w).overrun = s.overrun := rfl
@[simp] theorem State.start_errcode (w : Word) : (s.start w).errcode = 0 := rfl
@[simp] theorem State.start_argA (w : Word) : (s.start w).argA = s.argA := rfl
@[simp] theorem State.start_argB (w : Word) : (s.start w).argB = s.argB := rfl
@[simp] theorem State.start_inLen (w : Word) : (s.start w).inLen = s.inLen := rfl
@[simp] theorem State.start_outLen (w : Word) : (s.start w).outLen = 0 := rfl
@[simp] theorem State.start_outVal (w : Word) : (s.start w).outVal = 0 := rfl
@[simp] theorem State.start_inBuf (w : Word) : (s.start w).inBuf = s.inBuf := rfl
@[simp] theorem State.start_outBuf (w : Word) : (s.start w).outBuf = [] := rfl
@[simp] theorem State.start_phase (w : Word) : (s.start w).phase = .busy := rfl
@[simp] theorem State.start_snap (w : Word) : (s.start w).snap = { word := w, argA := s.argA, argB := s.argB, inLen := s.inLen } := rfl
@[simp] theorem State.start_resetAsserted (w : Word) : (s.start w).resetAsserted = s.resetAsserted := rfl
@[simp] theorem State.start_epoch (w : Word) : (s.start w).epoch = s.epoch := rfl
@[simp] theorem State.start_drawn (w : Word) : (s.start w).drawn = s.drawn := rfl
@[simp] theorem State.start_readData (w : Word) : (s.start w).readData = s.readData := rfl
@[simp] theorem State.start_inbox (w : Word) : (s.start w).inbox = s.inbox := rfl
@[simp] theorem State.start_cfg (w : Word) : (s.start w).cfg = s.cfg := rfl

@[simp] theorem State.completeOk_ie (out : List Byte) (val : Word) : (s.completeOk out val).ie = s.ie := rfl
@[simp] theorem State.completeOk_cmd (out : List Byte) (val : Word) : (s.completeOk out val).cmd = s.cmd := rfl
@[simp] theorem State.completeOk_done (out : List Byte) (val : Word) : (s.completeOk out val).done = true := rfl
@[simp] theorem State.completeOk_overrun (out : List Byte) (val : Word) : (s.completeOk out val).overrun = s.overrun := rfl
@[simp] theorem State.completeOk_errcode (out : List Byte) (val : Word) : (s.completeOk out val).errcode = 0 := rfl
@[simp] theorem State.completeOk_argA (out : List Byte) (val : Word) : (s.completeOk out val).argA = s.argA := rfl
@[simp] theorem State.completeOk_argB (out : List Byte) (val : Word) : (s.completeOk out val).argB = s.argB := rfl
@[simp] theorem State.completeOk_inLen (out : List Byte) (val : Word) : (s.completeOk out val).inLen = s.inLen := rfl
@[simp] theorem State.completeOk_outLen (out : List Byte) (val : Word) : (s.completeOk out val).outLen = BitVec.ofNat 32 out.length := rfl
@[simp] theorem State.completeOk_outVal (out : List Byte) (val : Word) : (s.completeOk out val).outVal = val := rfl
@[simp] theorem State.completeOk_inBuf (out : List Byte) (val : Word) : (s.completeOk out val).inBuf = s.inBuf := rfl
@[simp] theorem State.completeOk_outBuf (out : List Byte) (val : Word) : (s.completeOk out val).outBuf = Memory.ofBytes out := rfl
@[simp] theorem State.completeOk_phase (out : List Byte) (val : Word) : (s.completeOk out val).phase = .idle := rfl
@[simp] theorem State.completeOk_snap (out : List Byte) (val : Word) : (s.completeOk out val).snap = s.snap := rfl
@[simp] theorem State.completeOk_resetAsserted (out : List Byte) (val : Word) : (s.completeOk out val).resetAsserted = s.resetAsserted := rfl
@[simp] theorem State.completeOk_epoch (out : List Byte) (val : Word) : (s.completeOk out val).epoch = s.epoch := rfl
@[simp] theorem State.completeOk_drawn (out : List Byte) (val : Word) : (s.completeOk out val).drawn = s.drawn := rfl
@[simp] theorem State.completeOk_readData (out : List Byte) (val : Word) : (s.completeOk out val).readData = s.readData := rfl
@[simp] theorem State.completeOk_inbox (out : List Byte) (val : Word) : (s.completeOk out val).inbox = s.inbox := rfl
@[simp] theorem State.completeOk_cfg (out : List Byte) (val : Word) : (s.completeOk out val).cfg = s.cfg := rfl

@[simp] theorem State.completeErr_ie (k : ErrKind) : (s.completeErr k).ie = s.ie := rfl
@[simp] theorem State.completeErr_cmd (k : ErrKind) : (s.completeErr k).cmd = s.cmd := rfl
@[simp] theorem State.completeErr_done (k : ErrKind) : (s.completeErr k).done = true := rfl
@[simp] theorem State.completeErr_overrun (k : ErrKind) : (s.completeErr k).overrun = s.overrun := rfl
@[simp] theorem State.completeErr_errcode (k : ErrKind) : (s.completeErr k).errcode = errCode k := rfl
@[simp] theorem State.completeErr_argA (k : ErrKind) : (s.completeErr k).argA = s.argA := rfl
@[simp] theorem State.completeErr_argB (k : ErrKind) : (s.completeErr k).argB = s.argB := rfl
@[simp] theorem State.completeErr_inLen (k : ErrKind) : (s.completeErr k).inLen = s.inLen := rfl
@[simp] theorem State.completeErr_outLen (k : ErrKind) : (s.completeErr k).outLen = 0 := rfl
@[simp] theorem State.completeErr_outVal (k : ErrKind) : (s.completeErr k).outVal = 0 := rfl
@[simp] theorem State.completeErr_inBuf (k : ErrKind) : (s.completeErr k).inBuf = s.inBuf := rfl
@[simp] theorem State.completeErr_outBuf (k : ErrKind) : (s.completeErr k).outBuf = [] := rfl
@[simp] theorem State.completeErr_phase (k : ErrKind) : (s.completeErr k).phase = .idle := rfl
@[simp] theorem State.completeErr_snap (k : ErrKind) : (s.completeErr k).snap = s.snap := rfl
@[simp] theorem State.completeErr_resetAsserted (k : ErrKind) : (s.completeErr k).resetAsserted = s.resetAsserted := rfl
@[simp] theorem State.completeErr_epoch (k : ErrKind) : (s.completeErr k).epoch = s.epoch := rfl
@[simp] theorem State.completeErr_drawn (k : ErrKind) : (s.completeErr k).drawn = s.drawn := rfl
@[simp] theorem State.completeErr_readData (k : ErrKind) : (s.completeErr k).readData = s.readData := rfl
@[simp] theorem State.completeErr_inbox (k : ErrKind) : (s.completeErr k).inbox = s.inbox := rfl
@[simp] theorem State.completeErr_cfg (k : ErrKind) : (s.completeErr k).cfg = s.cfg := rfl

@[simp] theorem State.writeStatus_ie (v : Word) : (s.writeStatus v).ie = s.ie := rfl
@[simp] theorem State.writeStatus_cmd (v : Word) : (s.writeStatus v).cmd = s.cmd := rfl
@[simp] theorem State.writeStatus_done (v : Word) : (s.writeStatus v).done = (s.done && !v.getLsbD 1) := rfl
@[simp] theorem State.writeStatus_overrun (v : Word) : (s.writeStatus v).overrun = (s.overrun && !v.getLsbD 3) := rfl
@[simp] theorem State.writeStatus_errcode (v : Word) : (s.writeStatus v).errcode = s.errcode := rfl
@[simp] theorem State.writeStatus_argA (v : Word) : (s.writeStatus v).argA = s.argA := rfl
@[simp] theorem State.writeStatus_argB (v : Word) : (s.writeStatus v).argB = s.argB := rfl
@[simp] theorem State.writeStatus_inLen (v : Word) : (s.writeStatus v).inLen = s.inLen := rfl
@[simp] theorem State.writeStatus_outLen (v : Word) : (s.writeStatus v).outLen = s.outLen := rfl
@[simp] theorem State.writeStatus_outVal (v : Word) : (s.writeStatus v).outVal = s.outVal := rfl
@[simp] theorem State.writeStatus_inBuf (v : Word) : (s.writeStatus v).inBuf = s.inBuf := rfl
@[simp] theorem State.writeStatus_outBuf (v : Word) : (s.writeStatus v).outBuf = s.outBuf := rfl
@[simp] theorem State.writeStatus_phase (v : Word) : (s.writeStatus v).phase = s.phase := rfl
@[simp] theorem State.writeStatus_snap (v : Word) : (s.writeStatus v).snap = s.snap := rfl
@[simp] theorem State.writeStatus_resetAsserted (v : Word) : (s.writeStatus v).resetAsserted = s.resetAsserted := rfl
@[simp] theorem State.writeStatus_epoch (v : Word) : (s.writeStatus v).epoch = s.epoch := rfl
@[simp] theorem State.writeStatus_drawn (v : Word) : (s.writeStatus v).drawn = s.drawn := rfl
@[simp] theorem State.writeStatus_readData (v : Word) : (s.writeStatus v).readData = s.readData := rfl
@[simp] theorem State.writeStatus_inbox (v : Word) : (s.writeStatus v).inbox = s.inbox := rfl
@[simp] theorem State.writeStatus_cfg (v : Word) : (s.writeStatus v).cfg = s.cfg := rfl

@[simp] theorem State.dropWrite_ie : (s.dropWrite).ie = s.ie := rfl
@[simp] theorem State.dropWrite_cmd : (s.dropWrite).cmd = s.cmd := rfl
@[simp] theorem State.dropWrite_done : (s.dropWrite).done = s.done := rfl
@[simp] theorem State.dropWrite_overrun : (s.dropWrite).overrun = true := rfl
@[simp] theorem State.dropWrite_errcode : (s.dropWrite).errcode = s.errcode := rfl
@[simp] theorem State.dropWrite_argA : (s.dropWrite).argA = s.argA := rfl
@[simp] theorem State.dropWrite_argB : (s.dropWrite).argB = s.argB := rfl
@[simp] theorem State.dropWrite_inLen : (s.dropWrite).inLen = s.inLen := rfl
@[simp] theorem State.dropWrite_outLen : (s.dropWrite).outLen = s.outLen := rfl
@[simp] theorem State.dropWrite_outVal : (s.dropWrite).outVal = s.outVal := rfl
@[simp] theorem State.dropWrite_inBuf : (s.dropWrite).inBuf = s.inBuf := rfl
@[simp] theorem State.dropWrite_outBuf : (s.dropWrite).outBuf = s.outBuf := rfl
@[simp] theorem State.dropWrite_phase : (s.dropWrite).phase = s.phase := rfl
@[simp] theorem State.dropWrite_snap : (s.dropWrite).snap = s.snap := rfl
@[simp] theorem State.dropWrite_resetAsserted : (s.dropWrite).resetAsserted = s.resetAsserted := rfl
@[simp] theorem State.dropWrite_epoch : (s.dropWrite).epoch = s.epoch := rfl
@[simp] theorem State.dropWrite_drawn : (s.dropWrite).drawn = s.drawn := rfl
@[simp] theorem State.dropWrite_readData : (s.dropWrite).readData = s.readData := rfl
@[simp] theorem State.dropWrite_inbox : (s.dropWrite).inbox = s.inbox := rfl
@[simp] theorem State.dropWrite_cfg : (s.dropWrite).cfg = s.cfg := rfl

@[simp] theorem State.assertReset_ie : (s.assertReset).ie = s.ie := rfl
@[simp] theorem State.assertReset_cmd : (s.assertReset).cmd = s.cmd := rfl
@[simp] theorem State.assertReset_done : (s.assertReset).done = s.done := rfl
@[simp] theorem State.assertReset_overrun : (s.assertReset).overrun = s.overrun := rfl
@[simp] theorem State.assertReset_errcode : (s.assertReset).errcode = s.errcode := rfl
@[simp] theorem State.assertReset_argA : (s.assertReset).argA = s.argA := rfl
@[simp] theorem State.assertReset_argB : (s.assertReset).argB = s.argB := rfl
@[simp] theorem State.assertReset_inLen : (s.assertReset).inLen = s.inLen := rfl
@[simp] theorem State.assertReset_outLen : (s.assertReset).outLen = s.outLen := rfl
@[simp] theorem State.assertReset_outVal : (s.assertReset).outVal = s.outVal := rfl
@[simp] theorem State.assertReset_inBuf : (s.assertReset).inBuf = s.inBuf := rfl
@[simp] theorem State.assertReset_outBuf : (s.assertReset).outBuf = s.outBuf := rfl
@[simp] theorem State.assertReset_phase : (s.assertReset).phase = s.phase := rfl
@[simp] theorem State.assertReset_snap : (s.assertReset).snap = s.snap := rfl
@[simp] theorem State.assertReset_resetAsserted : (s.assertReset).resetAsserted = true := rfl
@[simp] theorem State.assertReset_epoch : (s.assertReset).epoch = s.epoch := rfl
@[simp] theorem State.assertReset_drawn : (s.assertReset).drawn = s.drawn := rfl
@[simp] theorem State.assertReset_readData : (s.assertReset).readData = s.readData := rfl
@[simp] theorem State.assertReset_inbox : (s.assertReset).inbox = s.inbox := rfl
@[simp] theorem State.assertReset_cfg : (s.assertReset).cfg = s.cfg := rfl

@[simp] theorem State.afterReset_ie : (s.afterReset).ie = false := rfl
@[simp] theorem State.afterReset_cmd : (s.afterReset).cmd = 0 := rfl
@[simp] theorem State.afterReset_done : (s.afterReset).done = false := rfl
@[simp] theorem State.afterReset_overrun : (s.afterReset).overrun = false := rfl
@[simp] theorem State.afterReset_errcode : (s.afterReset).errcode = 0 := rfl
@[simp] theorem State.afterReset_argA : (s.afterReset).argA = 0 := rfl
@[simp] theorem State.afterReset_argB : (s.afterReset).argB = 0 := rfl
@[simp] theorem State.afterReset_inLen : (s.afterReset).inLen = 0 := rfl
@[simp] theorem State.afterReset_outLen : (s.afterReset).outLen = 0 := rfl
@[simp] theorem State.afterReset_outVal : (s.afterReset).outVal = 0 := rfl
@[simp] theorem State.afterReset_inBuf : (s.afterReset).inBuf = [] := rfl
@[simp] theorem State.afterReset_outBuf : (s.afterReset).outBuf = [] := rfl
@[simp] theorem State.afterReset_phase : (s.afterReset).phase = .idle := rfl
@[simp] theorem State.afterReset_snap : (s.afterReset).snap = { word := 0, argA := 0, argB := 0, inLen := 0 } := rfl
@[simp] theorem State.afterReset_resetAsserted : (s.afterReset).resetAsserted = false := rfl
@[simp] theorem State.afterReset_epoch : (s.afterReset).epoch = s.epoch + 1 := rfl
@[simp] theorem State.afterReset_drawn : (s.afterReset).drawn = s.drawn := rfl
@[simp] theorem State.afterReset_readData : (s.afterReset).readData = s.readData := rfl
@[simp] theorem State.afterReset_inbox : (s.afterReset).inbox = s.inbox := rfl
@[simp] theorem State.afterReset_cfg : (s.afterReset).cfg = s.cfg := rfl

@[simp] theorem State.busy_iff : s.busy = true ↔ s.phase = .busy := by simp [State.busy]

@[simp] theorem State.busy_eq_false : s.busy = false ↔ s.phase = .idle := by
  cases h : s.phase <;> simp [State.busy, h]

/-- A completion has the parameters of the state it completes. -/
@[simp] theorem State.finish_cfg (r : Except ErrKind (List Byte × Word)) : (s.finish r).cfg = s.cfg := by
  unfold State.finish
  split
  · rfl
  · split <;> rfl

end Sys2Proof.Machine
end

