-- ==== Sys2Proof/Laws/Exec.lean ====
section
/-! SUPPORT. Everything the execution frame of 60_exceptions.md R214 can do, said once: which computation each command
runs, and the cases of a completion. -/

namespace Sys2Proof.Machine

/-- The computation F_w of each command. -/
def bodyOf : Instr → Body
  | .radixToDigits => radixToDigitsBody
  | .radixToBytes => radixToBytesBody
  | .alphaSymAtC32 => alphaSymAtBody .c32
  | .alphaSymAtB58 => alphaSymAtBody .b58
  | .alphaIndexOfC32 => alphaIndexOfBody .c32
  | .alphaIndexOfB58 => alphaIndexOfBody .b58
  | .alphaNormalizeC32 => alphaNormalizeBody
  | .checksum => checksumBody
  | .plainEncodeC32 => plainEncodeBody .c32
  | .plainEncodeB58 => plainEncodeBody .b58
  | .plainDecodeC32 => plainDecodeBody .c32
  | .plainDecodeB58 => plainDecodeBody .b58
  | .checkEncodeC32 => checkEncodeC32Body
  | .checkEncodeB58 => checkEncodeB58Body
  | .checkDecodeC32 => checkDecodeC32Body
  | .checkDecodeB58 => checkDecodeB58Body
  | .addrEncode => addrEncodeBody
  | .addrDecode => addrDecodeBody
  | .xconvC32ToB58 tven => xconvC32ToB58Body tven
  | .xconvB58ToC32 tven => xconvB58ToC32Body tven

/-- Every command is its computation in one of the two execution frames. -/
theorem exec_eq_run (i : Instr) (s : State) :
    exec i s = if readsInput i then runReading (bodyOf i) s else runNotReading (bodyOf i) s := by
  cases i <;> rfl

/-- Input beyond the buffer ends both frames at once. -/
theorem exec_of_input_too_long {i : Instr} {s : State} (h : s.snap.inLen.toNat > s.cfg.bufCap) :
    exec i s = .next (s.completeErr .capacityExceeded) := by
  have h' : s.snap.inLen.toNat > s.cfg.bufCap := h
  rw [exec_eq_run]
  unfold runReading runNotReading
  simp [if_pos h']

/-- A command on written input that fits completes with its computation's result. -/
theorem exec_of_hasInput {i : Instr} {s : State} {t : List Byte} (hr : readsInput i = true) (h : HasInput s t) :
    exec i s = .next (s.finish (bodyOf i s.cfg s.snap t)) := by
  have hl : ¬ s.snap.inLen.toNat > s.cfg.bufCap := by have := h.len; have := h.fits; omega
  have hb : s.inBuf.readRange 0 s.snap.inLen.toNat = some t := by
    rw [Memory.readRange_eq_some]
    exact ⟨h.len.symm, fun k hk => by simpa using h.bytes k (by have := h.len; omega)⟩
  rw [exec_eq_run, if_pos hr, runReading, if_neg hl, hb]

/-- A command that reads no input completes with its computation's result. -/
theorem exec_of_not_reading {i : Instr} {s : State} (hr : readsInput i = false)
    (h : s.snap.inLen.toNat ≤ s.cfg.bufCap) : exec i s = .next (s.finish (bodyOf i s.cfg s.snap [])) := by
  have hl : ¬ s.snap.inLen.toNat > s.cfg.bufCap := Nat.not_lt.mpr h
  rw [exec_eq_run, if_neg (by simp [hr]), runNotReading, if_neg hl]

/-- Everything a command can do: the capacity error, the model fault, or its computation's result. -/
theorem exec_cases (i : Instr) (s : State) :
    (s.snap.inLen.toNat > s.cfg.bufCap ∧ exec i s = .next (s.completeErr .capacityExceeded)) ∨
    (s.snap.inLen.toNat ≤ s.cfg.bufCap ∧ readsInput i = true ∧
      (∃ k < s.snap.inLen.toNat, s.inBuf.read k = none) ∧ exec i s = .fault .unwrittenInput) ∨
    (∃ t, readsInput i = true ∧ HasInput s t ∧ exec i s = .next (s.finish (bodyOf i s.cfg s.snap t))) ∨
    (s.snap.inLen.toNat ≤ s.cfg.bufCap ∧ readsInput i = false ∧
      exec i s = .next (s.finish (bodyOf i s.cfg s.snap []))) := by
  by_cases hl : s.snap.inLen.toNat > s.cfg.bufCap
  · exact .inl ⟨hl, exec_of_input_too_long hl⟩
  · have hl' : ¬ s.snap.inLen.toNat > s.cfg.bufCap := hl
    cases hr : readsInput i with
    | false => exact .inr (.inr (.inr ⟨by omega, rfl, exec_of_not_reading hr (by omega)⟩))
    | true =>
      cases hb : s.inBuf.readRange 0 s.snap.inLen.toNat with
      | none =>
        obtain ⟨k, hk, hn⟩ := (Memory.readRange_eq_none _ _ _).mp hb
        refine .inr (.inl ⟨by omega, rfl, ⟨k, hk, by simpa using hn⟩, ?_⟩)
        rw [exec_eq_run, if_pos hr, runReading, if_neg hl', hb]
      | some t =>
        obtain ⟨hlen, hk⟩ := (Memory.readRange_eq_some _ _ _ _).mp hb
        have hi : HasInput s t := ⟨hlen.symm, by omega, fun k h => by simpa using hk k (by omega)⟩
        exact .inr (.inr (.inl ⟨t, rfl, hi, exec_of_hasInput hr hi⟩))

/-- A computation's result is committed whole or not at all. -/
theorem finish_cases (s : State) (r : Except ErrKind (List Byte × Word)) :
    (∃ k, s.finish r = s.completeErr k ∧
      (r = .error k ∨ (k = .capacityExceeded ∧ ∃ out val, r = .ok (out, val) ∧ s.cfg.bufCap < out.length))) ∨
    (∃ out val, r = .ok (out, val) ∧ out.length ≤ s.cfg.bufCap ∧ s.finish r = s.completeOk out val) := by
  cases r with
  | error k => exact .inl ⟨k, rfl, .inl rfl⟩
  | ok p =>
    obtain ⟨out, val⟩ := p
    by_cases h : s.cfg.bufCap < out.length
    · exact .inl ⟨.capacityExceeded, by simp [State.finish, h], .inr ⟨rfl, out, val, rfl, h⟩⟩
    · exact .inr ⟨out, val, rfl, by omega, by simp [State.finish, h]⟩

@[simp] theorem finish_error (s : State) (k : ErrKind) : s.finish (.error k) = s.completeErr k := rfl

theorem finish_ok (s : State) (out : List Byte) (val : Word) :
    s.finish (.ok (out, val)) =
      if out.length ≤ s.cfg.bufCap then s.completeOk out val else s.completeErr .capacityExceeded := by
  by_cases h : out.length ≤ s.cfg.bufCap
  · simp [State.finish, h]
  · simp [State.finish, h, Nat.lt_of_not_le h]

/-- Every next state of a command is a completion: an error, or a result that fits. -/
theorem exec_next_cases {i : Instr} {s t : State} (h : exec i s = .next t) :
    (∃ k, t = s.completeErr k) ∨ (∃ out val, out.length ≤ s.cfg.bufCap ∧ t = s.completeOk out val) := by
  have hf : ∀ r, t = s.finish r →
      (∃ k, t = s.completeErr k) ∨ (∃ out val, out.length ≤ s.cfg.bufCap ∧ t = s.completeOk out val) := by
    intro r hr
    rcases finish_cases s r with ⟨k, hk, -⟩ | ⟨out, val, -, hl, ho⟩
    · exact .inl ⟨k, hr.trans hk⟩
    · exact .inr ⟨out, val, hl, hr.trans ho⟩
  rcases exec_cases i s with ⟨-, he⟩ | ⟨-, -, -, he⟩ | ⟨u, -, -, he⟩ | ⟨-, -, he⟩ <;> rw [he] at h <;> cases h
  · exact .inl ⟨_, rfl⟩
  · exact hf _ rfl
  · exact hf _ rfl

@[simp] theorem sameResult_next (t t' : State) :
    SameResult (.next t) (.next t') ↔
      t.errcode = t'.errcode ∧ t.outLen = t'.outLen ∧ t.outVal = t'.outVal ∧
        ∀ k, t.outBuf.read k = t'.outBuf.read k := Iff.rfl

@[simp] theorem sameResult_fault (f f' : Fault) : SameResult (.fault f) (.fault f') ↔ f = f' := Iff.rfl

/-- One result committed in two states of one configuration is the same result. -/
theorem sameResult_finish {s s' : State} (h : s.cfg = s'.cfg) (r : Except ErrKind (List Byte × Word)) :
    SameResult (.next (s.finish r)) (.next (s'.finish r)) := by
  rcases finish_cases s r with ⟨k, hk, hr⟩ | ⟨out, val, hr, hl, ho⟩
  · rcases hr with rfl | ⟨rfl, out, val, rfl, hl⟩
    · simp
    · rw [finish_ok, finish_ok, ← h, if_neg (by omega), if_neg (by omega)]
      simp
  · subst hr
    rw [finish_ok, finish_ok, ← h, if_pos hl, if_pos hl]
    simp

/-- A computation reads ARG_A, ARG_B and the bytes of IN, nothing else of the snapshot. -/
theorem bodyOf_congr (i : Instr) (c : Config) {n n' : Snapshot} (ha : n.argA = n'.argA) (hb : n.argB = n'.argB) :
    bodyOf i c n = bodyOf i c n' := by
  funext bs
  cases i <;>
    simp only [bodyOf, radixToDigitsBody, radixToBytesBody, alphaSymAtBody, alphaIndexOfBody, alphaNormalizeBody,
      checksumBody, plainEncodeBody, plainDecodeBody, checkEncodeC32Body, checkEncodeB58Body, checkDecodeC32Body,
      checkDecodeB58Body, addrEncodeBody, addrDecodeBody, xconvB58ToC32Body, xconvC32ToB58Body, ha, hb]

/-- Every error kind has a code between 1 and 11. -/
theorem errCode_range (k : ErrKind) : errCode k ≠ 0 ∧ (errCode k).toNat ≤ 11 := by cases k <;> decide

/-- A code names one kind. -/
theorem errCode_injective {k k' : ErrKind} (h : errCode k = errCode k') : k = k' := by
  revert h
  cases k <;> cases k' <;> decide

end Sys2Proof.Machine
end

