-- ==== Sys2Proof/Laws/PerInstr.lean ====
section
/-! SUPPORT. Per-instruction facts: every command's word is legal. -/

namespace Sys2Proof.Laws.EncodingLegal

/-- The command's word meets the four conditions of 30_encoding.md R77. -/
def Statement (i : Instr) : Prop := (unpack (encode i)).wf = true

theorem radixToDigits : Statement .radixToDigits := by unfold Statement; decide
theorem radixToBytes : Statement .radixToBytes := by unfold Statement; decide
theorem alphaSymAtC32 : Statement .alphaSymAtC32 := by unfold Statement; decide
theorem alphaSymAtB58 : Statement .alphaSymAtB58 := by unfold Statement; decide
theorem alphaIndexOfC32 : Statement .alphaIndexOfC32 := by unfold Statement; decide
theorem alphaIndexOfB58 : Statement .alphaIndexOfB58 := by unfold Statement; decide
theorem alphaNormalizeC32 : Statement .alphaNormalizeC32 := by unfold Statement; decide
theorem checksum : Statement .checksum := by unfold Statement; decide
theorem plainEncodeC32 : Statement .plainEncodeC32 := by unfold Statement; decide
theorem plainEncodeB58 : Statement .plainEncodeB58 := by unfold Statement; decide
theorem plainDecodeC32 : Statement .plainDecodeC32 := by unfold Statement; decide
theorem plainDecodeB58 : Statement .plainDecodeB58 := by unfold Statement; decide
theorem checkEncodeC32 : Statement .checkEncodeC32 := by unfold Statement; decide
theorem checkEncodeB58 : Statement .checkEncodeB58 := by unfold Statement; decide
theorem checkDecodeC32 : Statement .checkDecodeC32 := by unfold Statement; decide
theorem checkDecodeB58 : Statement .checkDecodeB58 := by unfold Statement; decide
theorem addrEncode : Statement .addrEncode := by unfold Statement; decide
theorem addrDecode : Statement .addrDecode := by unfold Statement; decide
theorem xconvC32ToB58 (tven : Bool) : Statement (.xconvC32ToB58 tven) := by cases tven <;> unfold Statement <;> decide
theorem xconvB58ToC32 (tven : Bool) : Statement (.xconvB58ToC32 tven) := by cases tven <;> unfold Statement <;> decide

end Sys2Proof.Laws.EncodingLegal
end

