-- ==== Sys2Proof/Laws/Port.lean ====
section
/-! SUPPORT. The host port: where an offset lies, everything a read, a byte write and a lane write can do, and that
every write keeps the IN buffer's form. -/

namespace Sys2Proof.Machine

theorem regionOf_inWindow {off : Offset} {i : Nat} (ho : off.toNat = 0x400 + i) (hi : i < 0x400) :
    regionOf off = .inWindow i := by
  unfold regionOf
  rw [if_neg (by omega), if_pos (by omega), show off.toNat - 0x400 = i by omega]

theorem regionOf_outWindow {off : Offset} {i : Nat} (ho : off.toNat = 0x800 + i) (hi : i < 0x400) :
    regionOf off = .outWindow i := by
  unfold regionOf
  rw [if_neg (by omega), if_neg (by omega), if_pos (by omega), show off.toNat - 0x800 = i by omega]

theorem regionOf_reserved {off : Offset} (ho : 0xC00 ≤ off.toNat) : regionOf off = .reserved := by
  unfold regionOf
  rw [if_neg (by omega), if_neg (by omega), if_neg (by omega)]

theorem regionOf_registers {off : Offset} (ho : off.toNat < 0x400) : regionOf off = .registers := by
  unfold regionOf
  rw [if_pos ho]

/-- The index of an IN offset. -/
theorem regionOf_eq_inWindow {off : Offset} {i : Nat} (h : regionOf off = .inWindow i) :
    off.toNat = 0x400 + i ∧ i < 0x400 := by
  unfold regionOf at h
  split at h
  · cases h
  · split at h
    · have := Region.inWindow.inj h
      omega
    · split at h <;> cases h

/-- Adding a lane number to an aligned offset does not wrap. -/
theorem toNat_add_lane {off : Offset} (h : off.toNat % 4 = 0) {j : Nat} (hj : j < 4) :
    (off + BitVec.ofNat 12 j).toNat = off.toNat + j := by
  have := off.isLt
  rw [BitVec.toNat_add, BitVec.toNat_ofNat, Nat.mod_eq_of_lt (show j < 2 ^ 12 by omega), Nat.mod_eq_of_lt (by omega)]

@[simp] theorem regAt_regOffset (r : Reg) : regAt (regOffset r) = some r := by cases r <;> decide

theorem regOffset_lt (r : Reg) : (regOffset r).toNat < 0x400 ∧ (regOffset r).toNat % 4 = 0 := by cases r <;> decide

/-- No register stands at or beyond 0x02C. -/
theorem regAt_eq_none {off : Offset} (h : 0x02C ≤ off.toNat) : regAt off = none := by
  cases hr : regAt off with
  | none => rfl
  | some r =>
    have hm := List.find?_some hr
    have : regOffset r = off := by simpa using hm
    subst this
    revert h
    cases r <;> decide

/-- A byte of a read of the IN window: what `inByte` says below BUF_CAP, zero beyond, and no draw. -/
theorem readByte_inWindow (s : State) {off : Offset} {i : Nat} (ho : off.toNat = 0x400 + i) (hi : i < 0x400) :
    s.readByte off = (if i < s.cfg.bufCap then s.inByte i else 0, s) := by
  simp only [State.readByte, regionOf_inWindow ho hi]
  split <;> rfl

/-- A byte of a read of the OUT window below BUF_CAP that holds a defined value. -/
theorem readByte_outWindow_defined {s : State} {off : Offset} {i : Nat} {b : Byte} (ho : off.toNat = 0x800 + i)
    (hi : i < 0x400) (hc : i < s.cfg.bufCap) (hb : s.outBuf.read i = some b) : s.readByte off = (b, s) := by
  simp only [State.readByte, regionOf_outWindow ho hi, if_pos hc, hb]

/-- A byte of a read of the OUT window below BUF_CAP that holds none: one draw. -/
theorem readByte_outWindow_free {s : State} {off : Offset} {i : Nat} (ho : off.toNat = 0x800 + i)
    (hi : i < 0x400) (hc : i < s.cfg.bufCap) (hb : s.outBuf.read i = none) :
    s.readByte off = (Config.anyByte s.drawn, { s with drawn := s.drawn + 1 }) := by
  simp only [State.readByte, regionOf_outWindow ho hi, if_pos hc, hb]

/-- A byte of a read of the OUT window at or beyond BUF_CAP. -/
theorem readByte_outWindow_beyond {s : State} {off : Offset} {i : Nat} (ho : off.toNat = 0x800 + i)
    (hi : i < 0x400) (hc : s.cfg.bufCap ≤ i) : s.readByte off = (0, s) := by
  simp only [State.readByte, regionOf_outWindow ho hi, if_neg (Nat.not_lt.mpr hc)]

/-- One byte of a read: only an OUT byte without a value draws, and then exactly one. -/
theorem readByte_cases (s : State) (off : Offset) :
    (∃ b, s.readByte off = (b, s)) ∨
    s.readByte off = (Config.anyByte s.drawn, { s with drawn := s.drawn + 1 }) := by
  unfold State.readByte
  split
  · split
    · exact .inl ⟨_, rfl⟩
    · exact .inl ⟨_, rfl⟩
  · split
    · split
      · exact .inl ⟨_, rfl⟩
      · exact .inr rfl
    · exact .inl ⟨_, rfl⟩
  · exact .inl ⟨_, rfl⟩

/-- Whether a byte of a read draws, and what it answers if not, depends neither on earlier answers nor on the count. -/
theorem readByte_uniform (s : State) (off : Offset) :
    (∃ b, ∀ w d, ({ s with readData := w, drawn := d } : State).readByte off =
      (b, { s with readData := w, drawn := d })) ∨
    (∀ w d, ({ s with readData := w, drawn := d } : State).readByte off =
      (Config.anyByte d, { s with readData := w, drawn := d + 1 })) := by
  unfold State.readByte
  split
  · next i _ =>
    by_cases hi : i < s.cfg.bufCap
    · exact .inl ⟨s.inByte i, fun w d => if_pos hi⟩
    · exact .inl ⟨0, fun w d => if_neg hi⟩
  · next i _ =>
    by_cases hi : i < s.cfg.bufCap
    · cases hb : s.outBuf.read i with
      | some b => exact .inl ⟨b, fun w d => by dsimp only; rw [if_pos hi, hb]⟩
      | none => exact .inr (fun w d => by dsimp only; rw [if_pos hi, hb])
    · exact .inl ⟨0, fun w d => if_neg hi⟩
  · exact .inl ⟨0, fun _ _ => rfl⟩

/-- One byte of a read changes no more than the count of draws. -/
theorem readByte_frame (s : State) (off : Offset) :
    ∃ b d, s.readByte off = (b, { s with drawn := d }) ∧ s.drawn ≤ d := by
  rcases readByte_cases s off with ⟨b, h⟩ | h
  · exact ⟨b, s.drawn, h, Nat.le_refl _⟩
  · exact ⟨_, _, h, Nat.le_succ _⟩

/-- A read of four bytes changes no more than the count of draws. -/
theorem readLanes_frame (s : State) (off : Offset) :
    ∃ w d, s.readLanes off = (w, { s with drawn := d }) ∧ s.drawn ≤ d := by
  obtain ⟨b0, d0, h0, l0⟩ := readByte_frame s off
  obtain ⟨b1, d1, h1, l1⟩ := readByte_frame { s with drawn := d0 } (off + 1)
  obtain ⟨b2, d2, h2, l2⟩ := readByte_frame { s with drawn := d1 } (off + 2)
  obtain ⟨b3, d3, h3, l3⟩ := readByte_frame { s with drawn := d2 } (off + 3)
  refine ⟨wordOfLanes b0 b1 b2 b3, d3, ?_, ?_⟩
  · simp only [State.readLanes, h0, h1, h2, h3]
  · simp only at l1 l2 l3
    omega

/-- A read changes no more than the answer and the count of draws (20_memory.md R55). -/
theorem hostRead_frame (s : State) (bytes : Nat) (off : Offset) :
    ∃ w d, s.hostRead bytes off = { s with readData := some w, drawn := d } ∧ s.drawn ≤ d := by
  unfold State.hostRead
  split
  · exact ⟨_, s.drawn, rfl, Nat.le_refl _⟩
  · split
    · obtain ⟨w, d, h, hd⟩ := readLanes_frame s off
      exact ⟨w, d, by simp only [h], hd⟩
    · obtain ⟨b, d, h, hd⟩ := readByte_frame s off
      exact ⟨b.setWidth 32, d, by simp only [h], hd⟩

/-- Everything one byte of a write can do: nothing, a drop while BUSY, or a store to IN while IDLE. -/
theorem writeByte_cases (s : State) (off : Offset) (b : Byte) :
    s.writeByte off b = s ∨
    (s.phase = .busy ∧ s.writeByte off b = s.dropWrite) ∨
    (s.phase = .idle ∧ ∃ i, i < s.cfg.bufCap ∧ s.writeByte off b = { s with inBuf := s.inBuf.write i b }) := by
  unfold State.writeByte
  split
  · next i _ =>
    split
    · next hi =>
      cases hp : s.phase with
      | idle =>
        refine .inr (.inr ⟨rfl, i, hi, ?_⟩)
        rw [if_neg (by simp [hp])]
      | busy =>
        refine .inr (.inl ⟨rfl, ?_⟩)
        rw [if_pos (by simp [hp])]
    · exact .inl rfl
  · exact .inl rfl

/-- What writes to the windows may do to a state: nothing but OVERRUN while BUSY, nothing but IN bytes below BUF_CAP
while IDLE. -/
def WindowWrite (s t : State) : Prop :=
  t = s ∨ (s.phase = .busy ∧ t = s.dropWrite) ∨
    (s.phase = .idle ∧ ∃ m : Memory, t = { s with inBuf := m } ∧ (s.inBuf.wf = true → m.wf = true) ∧
      ∀ k, s.cfg.bufCap ≤ k → m.read k = s.inBuf.read k)

theorem WindowWrite.trans {s t u : State} (h : WindowWrite s t) (h' : WindowWrite t u) : WindowWrite s u := by
  rcases h with rfl | ⟨hb, rfl⟩ | ⟨hi, m, rfl, hw, hr⟩
  · exact h'
  · rcases h' with rfl | ⟨-, rfl⟩ | ⟨hi, -⟩
    · exact .inr (.inl ⟨hb, rfl⟩)
    · exact .inr (.inl ⟨hb, rfl⟩)
    · rw [State.dropWrite_phase, hb] at hi
      cases hi
  · rcases h' with rfl | ⟨hb, -⟩ | ⟨-, m', rfl, hw', hr'⟩
    · exact .inr (.inr ⟨hi, m, rfl, hw, hr⟩)
    · rw [hi] at hb
      cases hb
    · exact .inr (.inr ⟨hi, m', rfl, fun h => hw' (hw h), fun k hk => (hr' k hk).trans (hr k hk)⟩)

theorem writeByte_windowWrite (s : State) (off : Offset) (b : Byte) : WindowWrite s (s.writeByte off b) := by
  rcases writeByte_cases s off b with h | ⟨hb, h⟩ | ⟨hi, i, hc, h⟩
  · exact .inl h
  · exact .inr (.inl ⟨hb, h⟩)
  · refine .inr (.inr ⟨hi, _, h, Memory.write_wf i b, fun k hk => ?_⟩)
    rw [Memory.read_write, if_neg (by omega)]

theorem writeLanes_windowWrite (s : State) (off : Offset) (v : Word) : WindowWrite s (s.writeLanes off v) :=
  (((writeByte_windowWrite _ _ _).trans (writeByte_windowWrite _ _ _)).trans (writeByte_windowWrite _ _ _)).trans
    (writeByte_windowWrite _ _ _)

/-- A register's offset is its own. -/
theorem eq_regOffset_of_regAt {off : Offset} {r : Reg} (h : regAt off = some r) : off = regOffset r := by
  have hm := List.find?_some h
  exact (by simpa using hm : regOffset r = off).symm

/-- Everything an admitted write can do: a register write, or a write to the windows. -/
theorem hostWrite_cases (s : State) (bytes : Nat) (off : Offset) (v : Word) :
    (∃ r, off = regOffset r ∧ s.hostWrite bytes off v = s.writeReg r v) ∨
      WindowWrite s (s.hostWrite bytes off v) := by
  unfold State.hostWrite
  split
  · split
    · next r hr => exact .inl ⟨r, eq_regOffset_of_regAt hr, rfl⟩
    · exact .inr (.inl rfl)
  · split
    · exact .inr (writeLanes_windowWrite s off v)
    · exact .inr (writeByte_windowWrite s off _)

/-- Everything a register write can do. -/
theorem writeReg_cases (s : State) (r : Reg) (v : Word) :
    s.writeReg r v = s ∨
    (r = .ctrl ∧ s.writeReg r v = { s with ie := v.getLsbD 0 }) ∨
    (r = .status ∧ s.writeReg r v = s.writeStatus v) ∨
    (s.phase = .busy ∧ s.writeReg r v = s.dropWrite) ∨
    (s.phase = .idle ∧ r = .cmd ∧ s.writeReg r v = s.start v) ∨
    (s.phase = .idle ∧ ∃ a b n, s.writeReg r v = { s with argA := a, argB := b, inLen := n }) := by
  have hp : s.busy = true ∧ s.phase = .busy ∨ s.busy = false ∧ s.phase = .idle := by
    cases h : s.phase <;> simp [State.busy, h]
  cases r <;> rcases hp with ⟨hb, hp⟩ | ⟨hb, hp⟩ <;>
    simp only [State.writeReg, hb, hp, if_true, if_false, Bool.false_eq_true, true_and, true_or, or_true]
  · exact .inr (.inr (.inr (.inr (.inr ⟨v, s.argB, s.inLen, rfl⟩))))
  · exact .inr (.inr (.inr (.inr (.inr ⟨s.argA, v, s.inLen, rfl⟩))))
  · exact .inr (.inr (.inr (.inr (.inr ⟨s.argA, s.argB, v, rfl⟩))))

/-- A host access that is performed was admitted, with RESET released. -/
theorem hostAccess_next {a : Access} {s t : State} (h : hostAccess a s = .next t) :
    s.resetAsserted = false ∧
      ((∃ n off, a = .read n off ∧ admitted n off = true ∧ t = s.hostRead n off) ∨
        (∃ n off v, a = .write n off v ∧ admitted n off = true ∧ t = s.hostWrite n off v)) := by
  unfold hostAccess at h
  split at h
  · cases h
  · next hr =>
    refine ⟨by simpa using hr, ?_⟩
    split at h
    · split at h
      · next n off ha => cases h; exact .inl ⟨n, off, rfl, ha, rfl⟩
      · cases h
    · split at h
      · next n off v ha => cases h; exact .inr ⟨n, off, v, rfl, ha, rfl⟩
      · cases h

theorem hostAccess_read {s : State} {n : Nat} {off : Offset} (hr : s.resetAsserted = false)
    (ha : admitted n off = true) : hostAccess (.read n off) s = .next (s.hostRead n off) := by
  simp [hostAccess, hr, ha]

theorem hostAccess_write {s : State} {n : Nat} {off : Offset} (v : Word) (hr : s.resetAsserted = false)
    (ha : admitted n off = true) : hostAccess (.write n off v) s = .next (s.hostWrite n off v) := by
  simp [hostAccess, hr, ha]

theorem admitted_iff (n : Nat) (off : Offset) :
    admitted n off = true ↔ (n = 4 ∧ off.toNat % 4 = 0) ∨ (n = 1 ∧ 0x400 ≤ off.toNat) := by
  simp [admitted]

/-- While BUSY an access changes no more than IE, DONE, OVERRUN, the answer and the count of draws. -/
theorem hostAccess_busy {a : Access} {s t : State} (h : hostAccess a s = .next t) (hp : s.phase = .busy) :
    t = { s with ie := t.ie, done := t.done, overrun := t.overrun, readData := t.readData, drawn := t.drawn } := by
  obtain ⟨hr, ⟨n, off, rfl, ha, rfl⟩ | ⟨n, off, v, rfl, ha, rfl⟩⟩ := hostAccess_next h
  · obtain ⟨w, d, h, _⟩ := hostRead_frame s n off
    rw [h]
  · rcases hostWrite_cases s n off v with ⟨r, _, h⟩ | h | ⟨_, h⟩ | ⟨hi, m, h, _⟩
    · rw [h]
      rcases writeReg_cases s r v with h | ⟨_, h⟩ | ⟨_, h⟩ | ⟨_, h⟩ | ⟨hi, _, h⟩ | ⟨hi, a, b, n, h⟩
      · rw [h]
      · rw [h]
      · rw [h]; rfl
      · rw [h]; rfl
      · rw [hi] at hp; cases hp
      · rw [hi] at hp; cases hp
    · rw [h]
    · rw [h]; rfl
    · rw [hi] at hp; cases hp

end Sys2Proof.Machine
end

