-- ==== Sys2Proof/Laws/Step.lean ====
section
/-! SUPPORT. Everything a step can do, said once. -/

namespace Sys2Proof.Machine

@[simp] theorem State.releaseReset_of_asserted {s : State} (h : s.resetAsserted = true) :
    s.releaseReset = s.afterReset := by simp [State.releaseReset, h]

@[simp] theorem State.releaseReset_of_released {s : State} (h : s.resetAsserted = false) : s.releaseReset = s := by
  simp [State.releaseReset, h]

theorem complete_of_ok {s : State} {i : Instr} (h : decode s.snap.word = .ok i) : complete s = exec i s := by
  simp [complete, h]

theorem complete_of_error {s : State} {e : DecodeError} (h : decode s.snap.word = .error e) :
    complete s = .next (s.completeErr .badCommand) := by
  simp [complete, h]

/-- A completion that goes on ends the command: an error, or a result that fits. -/
theorem complete_next_cases {s t : State} (h : complete s = .next t) :
    (∃ k, t = s.completeErr k) ∨ (∃ out val, out.length ≤ s.cfg.bufCap ∧ t = s.completeOk out val) := by
  cases hd : decode s.snap.word with
  | error e =>
    rw [complete_of_error hd] at h
    cases h
    exact .inl ⟨_, rfl⟩
  | ok i =>
    rw [complete_of_ok hd] at h
    exact exec_next_cases h

/-- Everything the engine's turn can do. -/
theorem engineTurn_next {s t : State} (h : engineTurn s = .next t) :
    (s.resetAsserted = false ∧ s.phase = .busy ∧ complete s = .next t) ∨
      ((s.resetAsserted = true ∨ s.phase = .idle) ∧ t = s) := by
  unfold engineTurn at h
  split at h
  · next hr => cases h; exact .inr ⟨.inl hr, rfl⟩
  · next hr =>
    split at h
    · next hp => exact .inl ⟨by simpa using hr, hp, h⟩
    · next hp => cases h; exact .inr ⟨.inr hp, rfl⟩

/-- Everything a step can do: the engine's turn, a host access, or a change of RESET. -/
theorem step_cases {s t : State} (h : step s = .next t) :
    (∃ rest, (s.inbox = [] ∧ rest = [] ∨ s.inbox = .engine :: rest) ∧
      engineTurn { s with inbox := rest } = .next t) ∨
    (∃ a rest, s.inbox = .access a :: rest ∧ hostAccess a { s with inbox := rest } = .next t) ∨
    (∃ rest, s.inbox = .assertReset :: rest ∧ t = ({ s with inbox := rest } : State).assertReset) ∨
    (∃ rest, s.inbox = .releaseReset :: rest ∧ t = ({ s with inbox := rest } : State).releaseReset) := by
  unfold step at h
  split at h
  · next hi =>
    refine .inl ⟨[], .inl ⟨hi, rfl⟩, ?_⟩
    rw [← h]
    congr 1
    cases s
    simp_all
  · next e rest hi =>
    cases e with
    | access a => exact .inr (.inl ⟨a, rest, hi, h⟩)
    | engine => exact .inl ⟨rest, .inr hi, h⟩
    | assertReset => cases h; exact .inr (.inr (.inl ⟨rest, hi, rfl⟩))
    | releaseReset => cases h; exact .inr (.inr (.inr ⟨rest, hi, rfl⟩))

theorem step_of_empty {s : State} (h : s.inbox = []) : step s = engineTurn s := by simp [step, h]

theorem step_of_event {s : State} {e : Event} {rest : List Event} (h : s.inbox = e :: rest) :
    step s = perform e { s with inbox := rest } := by simp [step, h]

end Sys2Proof.Machine
end

