-- ==== Sys2Proof/Tests/Slice0.lean ====
section
/-! SUPPORT. The model's own tests: words and results taken from spec/, the checks of WellFormed, and, for every
obligation with hypotheses, a witness that meets them. -/

namespace Sys2Proof.Machine.Tests

set_option Elab.async false

/-! ### WellFormed: one ill-formed value for each check of 30_encoding.md R77 -/

theorem test_wf_reservedOp : (⟨0x07, 0, false, false, 0⟩ : CmdFields).wf = false := by decide
theorem test_wf_reservedBit : (⟨0x01, 1, false, false, 0⟩ : CmdFields).wf = false := by decide
theorem test_wf_reservedHigh : (⟨0x01, 0, false, false, 1⟩ : CmdFields).wf = false := by decide
theorem test_wf_alph : (⟨0x01, 0, true, false, 0⟩ : CmdFields).wf = false := by decide
theorem test_wf_tven : (⟨0x0C, 0, false, true, 0⟩ : CmdFields).wf = false := by decide
theorem test_wf_legal : (⟨0x11, 0, false, true, 0⟩ : CmdFields).wf = true := by decide

/-! ### Words written out from the table of 30_encoding.md R76, bit 31 first -/

theorem test_decode_radixToDigits :
    decode 0b00000000000000000000000000000001 = .ok .radixToDigits ∧
      decodeTableWord 32 0b00000000000000000000000000000001 = some .radixToDigits := by decide

theorem test_decode_radixToBytes :
    decode 0b00000000000000000000000000000010 = .ok .radixToBytes ∧
      decodeTableWord 32 0b00000000000000000000000000000010 = some .radixToBytes := by decide

theorem test_decode_alphaSymAtC32 :
    decode 0b00000000000000000000000000000011 = .ok .alphaSymAtC32 ∧
      decodeTableWord 32 0b00000000000000000000000000000011 = some .alphaSymAtC32 := by decide

theorem test_decode_alphaSymAtB58 :
    decode 0b00000000000000000000000100000011 = .ok .alphaSymAtB58 ∧
      decodeTableWord 32 0b00000000000000000000000100000011 = some .alphaSymAtB58 := by decide

theorem test_decode_alphaIndexOfC32 :
    decode 0b00000000000000000000000000000100 = .ok .alphaIndexOfC32 ∧
      decodeTableWord 32 0b00000000000000000000000000000100 = some .alphaIndexOfC32 := by decide

theorem test_decode_alphaIndexOfB58 :
    decode 0b00000000000000000000000100000100 = .ok .alphaIndexOfB58 ∧
      decodeTableWord 32 0b00000000000000000000000100000100 = some .alphaIndexOfB58 := by decide

theorem test_decode_alphaNormalizeC32 :
    decode 0b00000000000000000000000000000101 = .ok .alphaNormalizeC32 ∧
      decodeTableWord 32 0b00000000000000000000000000000101 = some .alphaNormalizeC32 := by decide

theorem test_decode_checksum :
    decode 0b00000000000000000000000000000110 = .ok .checksum ∧
      decodeTableWord 32 0b00000000000000000000000000000110 = some .checksum := by decide

theorem test_decode_plainEncodeC32 :
    decode 0b00000000000000000000000000001000 = .ok .plainEncodeC32 ∧
      decodeTableWord 32 0b00000000000000000000000000001000 = some .plainEncodeC32 := by decide

theorem test_decode_plainEncodeB58 :
    decode 0b00000000000000000000000100001000 = .ok .plainEncodeB58 ∧
      decodeTableWord 32 0b00000000000000000000000100001000 = some .plainEncodeB58 := by decide

theorem test_decode_plainDecodeC32 :
    decode 0b00000000000000000000000000001001 = .ok .plainDecodeC32 ∧
      decodeTableWord 32 0b00000000000000000000000000001001 = some .plainDecodeC32 := by decide

theorem test_decode_plainDecodeB58 :
    decode 0b00000000000000000000000100001001 = .ok .plainDecodeB58 ∧
      decodeTableWord 32 0b00000000000000000000000100001001 = some .plainDecodeB58 := by decide

theorem test_decode_checkEncodeC32 :
    decode 0b00000000000000000000000000001010 = .ok .checkEncodeC32 ∧
      decodeTableWord 32 0b00000000000000000000000000001010 = some .checkEncodeC32 := by decide

theorem test_decode_checkEncodeB58 :
    decode 0b00000000000000000000000100001010 = .ok .checkEncodeB58 ∧
      decodeTableWord 32 0b00000000000000000000000100001010 = some .checkEncodeB58 := by decide

theorem test_decode_checkDecodeC32 :
    decode 0b00000000000000000000000000001011 = .ok .checkDecodeC32 ∧
      decodeTableWord 32 0b00000000000000000000000000001011 = some .checkDecodeC32 := by decide

theorem test_decode_checkDecodeB58 :
    decode 0b00000000000000000000000100001011 = .ok .checkDecodeB58 ∧
      decodeTableWord 32 0b00000000000000000000000100001011 = some .checkDecodeB58 := by decide

theorem test_decode_addrEncode :
    decode 0b00000000000000000000000000001100 = .ok .addrEncode ∧
      decodeTableWord 32 0b00000000000000000000000000001100 = some .addrEncode := by decide

theorem test_decode_addrDecode :
    decode 0b00000000000000000000000000001101 = .ok .addrDecode ∧
      decodeTableWord 32 0b00000000000000000000000000001101 = some .addrDecode := by decide

theorem test_decode_xconvC32ToB58 :
    decode 0b00000000000000000000000000010000 = .ok (.xconvC32ToB58 false) ∧
      decodeTableWord 32 0b00000000000000000000000000010000 = some (.xconvC32ToB58 false) := by decide

theorem test_decode_xconvC32ToB58_tv :
    decode 0b00000000000000000000001000010000 = .ok (.xconvC32ToB58 true) ∧
      decodeTableWord 32 0b00000000000000000000001000010000 = some (.xconvC32ToB58 true) := by decide

theorem test_decode_xconvB58ToC32 :
    decode 0b00000000000000000000000000010001 = .ok (.xconvB58ToC32 false) ∧
      decodeTableWord 32 0b00000000000000000000000000010001 = some (.xconvB58ToC32 false) := by decide

theorem test_decode_xconvB58ToC32_tv :
    decode 0b00000000000000000000001000010001 = .ok (.xconvB58ToC32 true) ∧
      decodeTableWord 32 0b00000000000000000000001000010001 = some (.xconvB58ToC32 true) := by decide

/-- Illegal words, each with its reason (30_encoding.md R72, R73, R74, R77). -/
theorem test_decode_illegal :
    decode 0x00000000 = .error .reservedOp ∧ decode 0x00000081 = .error .reservedBit ∧
      decode 0x00000106 = .error .alphNotAllowed ∧ decode 0x00000208 = .error .tvenNotAllowed ∧
      decodeTableWord 32 0x0000003F = none := by decide

/-! ### Vectors of spec/95_test_vectors.md, by their names there -/

/-- The bytes of a text (00_scope.md R6). -/
def txt (s : String) : List Byte := s.toList.map (fun c => BitVec.ofNat 8 c.toNat)

/-- The idle block after the host wrote ARG_A, ARG_B, IN_LEN and the text `t`. -/
def given (a b : Nat) (t : List Byte) : State :=
  { State.reset with
    argA := BitVec.ofNat 32 a
    argB := BitVec.ofNat 32 b
    inLen := BitVec.ofNat 32 t.length
    inBuf := Memory.ofBytes t }

/-- The completion step of the word `w`: error code, OUT[0..OUT_LEN) and OUT_VAL. -/
def ran (w : Word) (a b : Nat) (t : List Byte) : Option (Nat × List Byte × Nat) :=
  match step ((given a b t).start w) with
  | .next s => (s.outBuf.readRange 0 s.outLen.toNat).map (fun out => (s.errcode.toNat, out, s.outVal.toNat))
  | _ => none

theorem test_radixToDigits_V1_1 :
    ran 0x00000001 58 0 [0x00, 0x00, 0x01, 0x00] = some (0, [0, 0, 4, 24], 0) := by decide +kernel

theorem test_radixToDigits_V1_8 :
    ran 0x00000001 257 0 [0x01] = some (10, [], 0) := by decide +kernel

theorem test_radixToBytes_V1_10 :
    ran 0x00000002 58 0 [0x00, 0x00, 0x04, 0x18] = some (0, [0x00, 0x00, 0x01, 0x00], 0) := by decide +kernel

theorem test_radixToBytes_V1_13 :
    ran 0x00000002 10 0 [0x01, 0x0A] = some (10, [], 0) := by decide +kernel

theorem test_alphaSymAtC32_V2_2 :
    ran 0x00000003 31 0 [] = some (0, (txt "Z"), 0) := by decide +kernel

theorem test_alphaSymAtC32_V2_3 :
    ran 0x00000003 32 0 [] = some (10, [], 0) := by decide +kernel

theorem test_alphaSymAtB58_V2_5 :
    ran 0x00000103 57 0 [] = some (0, (txt "z"), 0) := by decide +kernel

theorem test_alphaSymAtB58_V2_6 :
    ran 0x00000103 58 0 [] = some (10, [], 0) := by decide +kernel

theorem test_alphaIndexOfC32_V2_7 :
    ran 0x00000004 0 0 (txt "i") = some (0, [], 1) := by decide +kernel

theorem test_alphaIndexOfC32_V2_10 :
    ran 0x00000004 0 0 (txt "U") = some (2, [], 0) := by decide +kernel

theorem test_alphaIndexOfB58_V2_13 :
    ran 0x00000104 0 0 (txt "z") = some (0, [], 57) := by decide +kernel

theorem test_alphaIndexOfB58_V2_14 :
    ran 0x00000104 0 0 (txt "l") = some (2, [], 0) := by decide +kernel

theorem test_alphaNormalizeC32_V2_16 :
    ran 0x00000005 0 0 (txt "iLoO-uz") = some (0, (txt "1100-UZ"), 0) := by decide +kernel

theorem test_checksum_V4_5 :
    ran 0x00000006 0 0 [0x61, 0x62, 0x63] = some (0, [0x4F, 0x8B, 0x42, 0xC2], 0) := by decide +kernel

theorem test_checksum_V4_1 :
    ran 0x00000006 0 0 [] = some (0, [0x5D, 0xF6, 0xE0, 0xE2], 0) := by decide +kernel

theorem test_plainEncodeC32_V3_1 :
    ran 0x00000008 0 0 (txt "a46ff88886c2ef9762d970b4d2c63678835bd39d") =
      some (0, (txt "MHQZH246RBQSERPSE2TD5HHPF21NQMWX"), 0) := by decide +kernel

theorem test_plainEncodeC32_V3_10 :
    ran 0x00000008 0 0 (txt "0x12") = some (1, [], 0) := by decide +kernel

theorem test_plainEncodeB58_V3_13 :
    ran 0x00000108 0 4 (txt "ff") = some (0, (txt "115Q"), 0) := by decide +kernel

theorem test_plainDecodeC32_V3_15 :
    ran 0x00000009 0 0 (txt "mhqzh246rbqserpse2td5hhpf2lnqmwx") =
      some (0, (txt "a46ff88886c2ef9762d970b4d2c63678835bd39d"), 0) := by decide +kernel

theorem test_plainDecodeC32_V3_16 :
    ran 0x00000009 0 0 (txt "wtu") = some (2, [], 0) := by decide +kernel

theorem test_plainDecodeB58_V3_22 :
    ran 0x00000109 0 0 (txt "115Q") = some (0, (txt "0000ff"), 0) := by decide +kernel

theorem test_plainDecodeB58_V3_24 :
    ran 0x00000109 0 3 (txt "z") = some (0, (txt "000039"), 0) := by decide +kernel

theorem test_checkEncodeC32_V5_7 :
    ran 0x0000000A 2 0 (txt "f") = some (0, (txt "21ZDVK37N"), 0) := by decide +kernel

theorem test_checkEncodeC32_V5_4 :
    ran 0x0000000A 32 0 (txt "zz") = some (3, [], 0) := by decide +kernel

theorem test_checkEncodeB58_V5_10 :
    ran 0x0000010A 0 0 (txt "395f3643cea07ec4eec73b4d9a973dcce56b9bf1") =
      some (0, (txt "16EMaNw3pkn3v6f2BgnSSs53zAKH4Q8YJg"), 0) := by decide +kernel

theorem test_checkEncodeB58_V5_12 :
    ran 0x0000010A 256 0 [] = some (3, [], 0) := by decide +kernel

theorem test_checkDecodeC32_V6_3 :
    ran 0x0000000B 0 0 (txt "P2J6ZY48GVIEZ5V2V5RB9MP66SW86PYKKNRV9EJ7") =
      some (0, (txt "a46ff88886c2ef9762d970b4d2c63678835bd39d"), 22) := by decide +kernel

theorem test_checkDecodeC32_V6_7 :
    ran 0x0000000B 0 0 (txt "P000") = some (7, [], 0) := by decide +kernel

theorem test_checkDecodeB58_V6_13 :
    ran 0x0000010B 0 0 (txt "16EMaNw3pkn3v6f2BgnSSs53zAKH4Q8YJg") =
      some (0, (txt "395f3643cea07ec4eec73b4d9a973dcce56b9bf1"), 0) := by decide +kernel

theorem test_checkDecodeB58_V6_16 :
    ran 0x0000010B 0 0 (txt "16EMaNw3pkn3v6f2BgnSSs53zAKH4Q8YJh") = some (6, [], 0) := by decide +kernel

theorem test_addrEncode_V7_3 :
    ran 0x0000000C 22 0 (txt "46ff88886c2ef9762d970b4d2c63678835bd39d") =
      some (0, (txt "SP26ZY48GV1EZ5V2V5RB9MP66SW86PYKKQMA09XN"), 0) := by decide +kernel

theorem test_addrEncode_V7_8 :
    ran 0x0000000C 32 0 (txt "zz") = some (4, [], 0) := by decide +kernel

theorem test_addrDecode_V7_18 :
    ran 0x0000000D 0 0 (txt "Sp2j6zy48gvlez5v2v5rb9mp66sw86pykknrv9ej7") =
      some (0, (txt "a46ff88886c2ef9762d970b4d2c63678835bd39d"), 22) := by decide +kernel

theorem test_addrDecode_V7_26 :
    ran 0x0000000D 0 0 (txt "SP2J6ZY48GV1EZ5V2V5RB9MP66SW86PYKKNRV9EJ8") = some (6, [], 0) := by decide +kernel

theorem test_xconvC32ToB58_V8_2 :
    ran 0x00000010 0 0 (txt "SPWNYDJ3STG7XH7ERWXMV6MQ7Q6EATWVY5Q1QMP8") =
      some (0, (txt "16EMaNw3pkn3v6f2BgnSSs53zAKH4Q8YJg"), 0) := by decide +kernel

theorem test_xconvC32ToB58_V8_5 :
    ran 0x00000210 256 0 (txt "SP2J6ZY48GV1EZ5V2V5RB9MP66SW86PYKKNRV9EJ7") = some (3, [], 0) := by decide +kernel

theorem test_xconvB58ToC32_V8_14 :
    ran 0x00000011 0 0 (txt "16EMaNw3pkn3v6f2BgnSSs53zAKH4Q8YJg") =
      some (0, (txt "SPWNYDJ3STG7XH7ERWXMV6MQ7Q6EATWVY5Q1QMP8"), 22) := by decide +kernel

theorem test_xconvB58ToC32_V8_25 :
    ran 0x00000211 5 0 (txt "VrZDWwe") = some (4, [], 0) := by decide +kernel

/-- The block with one event waiting. -/
def waiting (s : State) (e : Event) : State := { s with inbox := [e] }

/-! ### The port, faults and reset (vectors V11 and the rules named) -/

/-- V11.1, 70_reset_and_hazards.md R231. -/
theorem test_reset_registers :
    State.reset.regRead .id = 0x58323343 ∧ State.reset.regRead .cap = 256 ∧ State.reset.regRead .status = 0 ∧
      State.reset.irq = false ∧ State.reset.cfg.wf = true ∧ State.reset.inBuf.wf = true := by decide

/-- 20_memory.md R54: the word 0x00010000 at IN puts 1 into IN[2]; a byte write takes bits 7:0. -/
theorem test_in_lanes :
    (State.reset.hostWrite 4 0x400 0x00010000).inBuf = [(0, 0), (1, 0), (2, 1), (3, 0)] ∧
      (State.reset.hostWrite 1 0x402 0x000001AB).inBuf = [(2, 0xAB)] := by decide

/-- A write keeps the offsets rising and replaces the byte at its own. -/
theorem test_memory_write : Memory.write [(1, 7), (4, 8)] 2 9 = [(1, 7), (2, 9), (4, 8)] ∧
    Memory.write [(1, 7), (4, 8)] 4 9 = [(1, 7), (4, 9)] := by decide

/-- 70_reset_and_hazards.md R233: one of two bytes written, the command reads both. -/
theorem test_fault_unwritten :
    step ({ given 0 0 [0x30] with inLen := 2 }.start 0x00000009) = .fault .unwrittenInput := by rfl

/-- 60_exceptions.md R214: a word that is not legal completes with code 9 even when IN_LEN is too large and IN unwritten;
a legal one with code 11. -/
theorem test_precedence :
    step ({ State.reset with inLen := 300 }.start 0x00000101) =
        .next (({ State.reset with inLen := 300 }.start 0x00000101).completeErr .badCommand) ∧
      step ({ State.reset with inLen := 300 }.start 0x00000001) =
        .next (({ State.reset with inLen := 300 }.start 0x00000001).completeErr .capacityExceeded) := ⟨rfl, rfl⟩

/-- A minimum length far beyond the buffer is CapacityExceeded (42_plain_codec.md R134). -/
theorem test_hugeMinimum : ran 0x00000108 0 0xFFFFFFFF [] = some (11, [], 0) := by decide +kernel

/-- withFetchWord gives the word the very next step. -/
theorem test_withFetchWord :
    step (State.reset.withFetchWord 32 0x00000003) = exec .alphaSymAtC32 (State.reset.withFetchWord 32 0x00000003) ∧
      step ((waiting State.reset (.access (.read 4 0))).withFetchWord 32 0x00000003) =
        exec .alphaSymAtC32
          { (waiting State.reset (.access (.read 4 0))).withFetchWord 32 0x00000003 with
            inbox := [.access (.read 4 0)] } := ⟨rfl, rfl⟩

/-- 20_memory.md R50: an offset and its host address. -/
theorem test_hostAddress :
    offsetOf { Config.default with base := 0x40003000 } 0x40003010 = some 0x010 ∧
      offsetOf { Config.default with base := 0x40003000 } 0x40004000 = none ∧
      hostAddress { Config.default with base := 0x40003000 } 0xFFF = 0x40003FFF := by decide

/-- 60_exceptions.md R216: the routed line is high exactly while IE and DONE are set. -/
theorem test_irqAt :
    ({ State.reset with ie := true, done := true, cfg := { Config.default with irqRoute := 9 } } : State).irqAt = some 9 ∧
      ({ State.reset with done := true, cfg := { Config.default with irqRoute := 9 } } : State).irqAt = none := by decide

/-- 30_encoding.md R80: `ldin "S"` is one byte write and IN_LEN; `go` writes the word. -/
theorem test_script :
    Script.ldin (txt "S") = [.access (.write 1 0x400 0x53), .access (.write 4 0x020 1)] ∧
      Script.go (.xconvB58ToC32 true) = [.access (.write 4 0x00C 0x00000211)] ∧
      Script.ack = [.access (.write 4 0x010 2)] := by decide

/-! ### Witnesses: states and operands that meet the hypotheses of each obligation -/

/-- A command in flight with the given operands: IN holds the text `t`. -/
def asked (i : Instr) (a b : Nat) (t : List Byte) : State := (given a b t).start (encode i)

theorem hasInput_asked {i : Instr} {a b : Nat} {t : List Byte} (h : t.length ≤ 256) : HasInput (asked i a b t) t := by
  refine ⟨?_, h, fun k _ => Memory.read_ofBytes t k⟩
  show (BitVec.ofNat 32 t.length).toNat = t.length
  simp
  omega

/-- Whether a result is a given next state. -/
def isNext (r : Result) (t : State) : Bool :=
  match r with
  | .next u => decide (u = t)
  | _ => false

theorem eq_next_of_isNext {r : Result} {t : State} (h : isNext r t = true) : r = .next t := by
  cases r with
  | next u => rw [of_decide_eq_true h]
  | fault f => cases h
  | refused f => cases h

/-- The 4 checksum bytes of version 0 and the empty payload, and of version 0 and the payload of 20 zero bytes
(vectors V4.6 and V4.7), and the addresses that carry them. -/
def sumEmpty : List Byte := [0x14, 0x06, 0xE0, 0x58]
def sumZeros : List Byte := [0x94, 0xA0, 0x09, 0x11]
def zeros20 : List Byte := List.replicate 20 0
def hexZeros : List Byte := List.replicate 40 0x30

theorem checked_empty : Checked Config.default 0 [] sumEmpty := by decide +kernel
theorem checked_zeros : Checked Config.default 0 zeros20 sumZeros := by decide +kernel

/-- The digits of the two checksums after their payloads, read off "A0DR2R" and the end of "S0…2AA028H". -/
def digitsEmpty : List Nat := [10, 0, 13, 24, 2, 24]
def digitsZeros : List Nat := List.replicate 20 0 ++ [2, 10, 10, 0, 2, 8, 17]

theorem sameNumber_empty : SameNumber 256 32 (natsOf ([] ++ sumEmpty)) digitsEmpty :=
  ⟨by decide, by decide, by decide +kernel⟩
theorem sameNumber_zeros : SameNumber 256 32 (natsOf (zeros20 ++ sumZeros)) digitsZeros :=
  ⟨by decide, by decide, by decide +kernel⟩

theorem hexText_of {h bs : List Byte} (e : hexParse h = .ok bs) : HexText h bs := hexParse_eq_ok.mp e
theorem notHex_of {h : List Byte} (e : hexParse h = .error .invalidHex) : NotHex h := (hexParse_eq_error.mp e).2
theorem spells_of {alph : Alph} {t : List Byte} {ds : List Nat} (e : indexAll alph t = .ok ds) : Spells alph t ds :=
  indexAll_eq_ok.mp e
theorem notSymbols_of {alph : Alph} {t : List Byte} (e : indexAll alph t = .error .invalidSymbol) :
    NotSymbols alph t := (indexAll_eq_error.mp e).2

theorem witness_OpcodeRowsSelectCommands :
    (⟨"XCONV.B58TOC32", 0x00000011, 0xFFFFFDFF, [.xconvB58ToC32 false, .xconvB58ToC32 true]⟩ : OpcodeRow) ∈ opcodeTable ∧
      (0x00000211 : Word) &&& 0xFFFFFDFF = 0x00000011 := by decide

theorem witness_StepRunsDecodedCommand :
    let s := asked (.xconvC32ToB58 true) 5 0 []
    let s' := waiting s .engine
    s.resetAsserted = false ∧ s.phase = .busy ∧ decode s.snap.word = .ok (.xconvC32ToB58 true) ∧ s.inbox = [] ∧
      s'.resetAsserted = false ∧ s'.phase = .busy ∧ decode s'.snap.word = .ok (.xconvC32ToB58 true) ∧
      s'.inbox = .engine :: [] := by decide

theorem witness_IllegalWordCompletesWithBadCommand :
    let s := State.reset.start 0
    let s' := { s with inbox := [.engine, .access (.read 4 0x010)] }
    s.resetAsserted = false ∧ s.phase = .busy ∧ (unpack s.snap.word).wf = false ∧ s.inbox = [] ∧
      s'.resetAsserted = false ∧ s'.phase = .busy ∧ (unpack s'.snap.word).wf = false ∧
      s'.inbox = .engine :: [.access (.read 4 0x010)] := by decide

theorem witness_CommandWriteStarts :
    let s := waiting State.reset (.access (.write 4 0x00C 3))
    let s' := waiting (State.reset.start 1) (.access (.write 4 0x00C 3))
    s.resetAsserted = false ∧ s.inbox = .access (.write 4 0x00C 3) :: [] ∧ s.phase = .idle ∧
      s'.resetAsserted = false ∧ s'.inbox = .access (.write 4 0x00C 3) :: [] ∧ s'.phase = .busy := by decide

theorem witness_CompletionCommitsResult :
    let s := asked .checksum 0 0 []
    s.cfg.bufCap ≤ 1024 ∧ (List.replicate 256 (0x5A : Byte)).length ≤ s.cfg.bufCap := by decide +kernel

theorem witness_CompletionFrame :
    let s := asked .alphaSymAtC32 31 0 []
    s.cfg.wf = true ∧ exec .alphaSymAtC32 s = .next (s.completeOk [0x5A] 0) := ⟨by decide, rfl⟩

theorem witness_CompletionFrame_error :
    let s := asked .alphaSymAtC32 32 0 []
    s.cfg.wf = true ∧ exec .alphaSymAtC32 s = .next (s.completeErr .badArgument) ∧
      (s.completeErr .badArgument).errcode ≠ 0 := ⟨by decide, rfl, by decide⟩

theorem witness_InputCapacityPrecedesOwnErrors :
    let s := ({ State.reset with inLen := 257 } : State).start 3
    s.snap.inLen.toNat > s.cfg.bufCap := by decide

theorem witness_ResultDependsOnlyOnSnapshot :
    let s := asked .alphaNormalizeC32 1 2 [0x69]
    let s' : State := { s with ie := true, overrun := true, inBuf := Memory.ofBytes [0x69, 0x6C] }
    s.cfg = s'.cfg ∧ s.snap.argA = s'.snap.argA ∧ s.snap.argB = s'.snap.argB ∧ s.snap.inLen = s'.snap.inLen ∧
      (∀ k < s.snap.inLen.toNat, s.inBuf.read k = s'.inBuf.read k) ∧
      exec .alphaNormalizeC32 s = .next (s.completeOk [0x31] 0) := ⟨rfl, rfl, rfl, rfl, by decide, rfl⟩

theorem witness_IgnoredOperandsDoNotMatter :
    usesArgA (.xconvC32ToB58 false) = false ∧ usesArgB .checksum = false ∧ readsInput .alphaSymAtB58 = false := by decide

theorem witness_EachCommandRaisesOnlyItsKinds :
    let s := asked .alphaIndexOfC32 0 0 [0x55]
    s.cfg.wf = true ∧ s.snap.inLen.toNat ≤ s.cfg.bufCap ∧
      exec .alphaIndexOfC32 s = .next (s.completeErr .invalidSymbol) := ⟨by decide, by decide, rfl⟩

theorem witness_RadixToDigitsResult :
    HasInput (asked .radixToDigits 1 0 [1]) [1] ∧ (asked .radixToDigits 1 0 [1]).snap.argA.toNat < 2 ∧
      HasInput (asked .radixToDigits 257 0 [1]) [1] ∧ (asked .radixToDigits 257 0 [1]).snap.argA.toNat > 256 :=
  ⟨hasInput_asked (by decide), by decide, hasInput_asked (by decide), by decide⟩

theorem witness_RadixToDigitsResult_inRange :
    let s := asked .radixToDigits 2 0 [0, 5]
    HasInput s [0, 5] ∧ 2 ≤ s.snap.argA.toNat ∧ s.snap.argA.toNat ≤ 256 ∧
      SameNumber 256 s.snap.argA.toNat (natsOf [0, 5]) [0, 1, 0, 1] :=
  ⟨hasInput_asked (by decide), by decide, by decide, by decide, by decide, by decide⟩

theorem witness_RadixToDigitsResult_256 :
    let s := asked .radixToDigits 256 0 [7, 255]
    HasInput s [7, 255] ∧ 2 ≤ s.snap.argA.toNat ∧ s.snap.argA.toNat ≤ 256 ∧
      SameNumber 256 s.snap.argA.toNat (natsOf [7, 255]) [7, 255] :=
  ⟨hasInput_asked (by decide), by decide, by decide, by decide, by decide, by decide⟩

theorem witness_RadixToBytesResult :
    let s := asked .radixToBytes 10 0 [1, 10]
    HasInput s [1, 10] ∧ ∃ d ∈ ([1, 10] : List Byte), d.toNat ≥ s.snap.argA.toNat :=
  ⟨hasInput_asked (by decide), 10, by decide, by decide⟩

theorem witness_RadixToBytesResult_inRange :
    let s := asked .radixToBytes 10 0 [2, 5, 6]
    HasInput s [2, 5, 6] ∧ 2 ≤ s.snap.argA.toNat ∧ s.snap.argA.toNat ≤ 256 ∧
      (∀ d ∈ ([2, 5, 6] : List Byte), d.toNat < s.snap.argA.toNat) ∧
      SameNumber s.snap.argA.toNat 256 (natsOf [2, 5, 6]) (natsOf [1, 0]) :=
  ⟨hasInput_asked (by decide), by decide, by decide, by decide, by decide, by decide, by decide⟩

theorem witness_SymAtResult :
    let s := asked .alphaSymAtB58 57 0 []
    64 ≤ s.cfg.bufCap ∧ s.snap.inLen.toNat ≤ s.cfg.bufCap ∧ (tableOf .b58)[s.snap.argA.toNat]? = some 0x7A ∧
      (asked .alphaSymAtB58 58 0 []).snap.argA.toNat ≥ radixOf .b58 := by decide

theorem witness_IndexOfResult :
    HasInput (asked .alphaIndexOfC32 0 0 []) [] ∧ ([] : List Byte).length ≠ 1 ∧
      HasInput (asked .alphaIndexOfC32 0 0 [0x7A]) [0x7A] ∧ (tableOf .c32)[31]? = some (normFor .c32 0x7A) ∧
      HasInput (asked .alphaIndexOfB58 0 0 [0x6C]) [0x6C] ∧ normFor .b58 0x6C ∉ tableOf .b58 :=
  ⟨hasInput_asked (by decide), by decide, hasInput_asked (by decide), by decide, hasInput_asked (by decide), by decide⟩

theorem witness_NormalizeResult : HasInput (asked .alphaNormalizeC32 0 0 (txt "Oil")) (txt "Oil") :=
  hasInput_asked (by decide)

theorem witness_ChecksumResult : 64 ≤ (asked .checksum 0 0 []).cfg.bufCap ∧ HasInput (asked .checksum 0 0 []) [] :=
  ⟨by decide, hasInput_asked (by decide)⟩

theorem witness_PlainEncodeResult :
    HasInput (asked .plainEncodeB58 0 4 (txt "ff")) (txt "ff") ∧ HexText (txt "ff") [0xFF] ∧
      SameNumber 256 (radixOf .b58) (natsOf [0xFF]) [4, 23] ∧
      HasInput (asked .plainEncodeC32 0 0 (txt "0x12")) (txt "0x12") ∧ NotHex (txt "0x12") :=
  ⟨hasInput_asked (by decide), hexText_of (by decide), ⟨by decide, by decide, by decide⟩, hasInput_asked (by decide),
    notHex_of (by decide)⟩

theorem witness_PlainDecodeResult :
    HasInput (asked .plainDecodeC32 0 4 (txt "7z")) (txt "7z") ∧ Spells .c32 (txt "7z") [7, 31] ∧
      SameNumber (radixOf .c32) 256 [7, 31] (natsOf [0xFF]) ∧
      HasInput (asked .plainDecodeB58 0 0 (txt "0")) (txt "0") ∧ NotSymbols .b58 (txt "0") :=
  ⟨hasInput_asked (by decide), spells_of (by decide), ⟨by decide, by decide, by decide⟩, hasInput_asked (by decide),
    notSymbols_of (by decide)⟩

theorem witness_CheckEncodeC32Result :
    HasInput (asked .checkEncodeC32 32 0 (txt "zz")) (txt "zz") ∧
      (asked .checkEncodeC32 32 0 (txt "zz")).snap.argA.toNat > 31 ∧
      HasInput (asked .checkEncodeC32 31 0 (txt "zz")) (txt "zz") ∧
      (asked .checkEncodeC32 31 0 (txt "zz")).snap.argA.toNat ≤ 31 ∧ NotHex (txt "zz") :=
  ⟨hasInput_asked (by decide), by decide, hasInput_asked (by decide), by decide, notHex_of (by decide)⟩

theorem witness_CheckEncodeC32Result_ok :
    let s := asked .checkEncodeC32 0 0 []
    HasInput s [] ∧ s.snap.argA.toNat ≤ 31 ∧ HexText [] [] ∧ Checked s.cfg s.snap.argA.toNat [] sumEmpty ∧
      SameNumber 256 32 (natsOf ([] ++ sumEmpty)) digitsEmpty :=
  ⟨hasInput_asked (by decide), by decide, hexText_of (by decide), checked_empty, sameNumber_empty⟩

theorem witness_CheckEncodeB58Result :
    HasInput (asked .checkEncodeB58 256 0 (txt "zz")) (txt "zz") ∧
      (asked .checkEncodeB58 256 0 (txt "zz")).snap.argA.toNat > 255 ∧
      HasInput (asked .checkEncodeB58 255 0 (txt "zz")) (txt "zz") ∧
      (asked .checkEncodeB58 255 0 (txt "zz")).snap.argA.toNat ≤ 255 ∧ NotHex (txt "zz") :=
  ⟨hasInput_asked (by decide), by decide, hasInput_asked (by decide), by decide, notHex_of (by decide)⟩

/-- The digits of version 0, the empty payload and its checksum, read off "1Wh4bh" (vector V5.14). -/
theorem witness_CheckEncodeB58Result_ok :
    let s := asked .checkEncodeB58 0 0 []
    HasInput s [] ∧ s.snap.argA.toNat ≤ 255 ∧ HexText [] [] ∧ Checked s.cfg s.snap.argA.toNat [] sumEmpty ∧
      SameNumber 256 58 (natsOf (byteOf s.snap.argA.toNat :: [] ++ sumEmpty)) [0, 29, 40, 3, 34, 40] :=
  ⟨hasInput_asked (by decide), by decide, hexText_of (by decide), checked_empty, by decide, by decide, by decide +kernel⟩

theorem witness_CheckDecodeC32Result :
    HasInput (asked .checkDecodeC32 0 0 (txt "U")) (txt "U") ∧ NotSymbols .c32 (txt "U") ∧
      HasInput (asked .checkDecodeC32 0 0 []) [] ∧
      HasInput (asked .checkDecodeC32 0 0 (txt "P000")) (txt "P000") ∧ Spells .c32 (txt "P000") [22, 0, 0, 0] ∧
      SameNumber 32 256 [0, 0, 0] (natsOf [0, 0, 0]) ∧ ([0, 0, 0] : List Byte).length < 4 :=
  ⟨hasInput_asked (by decide), notSymbols_of (by decide), hasInput_asked (by decide), hasInput_asked (by decide),
    spells_of (by decide), ⟨by decide, by decide, by decide⟩, by decide⟩

theorem witness_CheckDecodeC32Result_ok :
    let s := asked .checkDecodeC32 0 0 (txt "0A0DR2R")
    HasInput s (txt "0A0DR2R") ∧ Spells .c32 (txt "0A0DR2R") (0 :: digitsEmpty) ∧
      SameNumber 32 256 digitsEmpty (natsOf sumEmpty) ∧ sumEmpty = [] ++ sumEmpty ∧ sumEmpty.length = 4 ∧
      Checked s.cfg 0 [] sumEmpty :=
  ⟨hasInput_asked (by decide), spells_of (by decide), ⟨by decide, by decide, by decide +kernel⟩, rfl, rfl, checked_empty⟩

theorem witness_CheckDecodeC32Result_mismatch :
    let s := asked .checkDecodeC32 0 0 (txt "0A0DR2S")
    HasInput s (txt "0A0DR2S") ∧ Spells .c32 (txt "0A0DR2S") [0, 10, 0, 13, 24, 2, 25] ∧
      SameNumber 32 256 [10, 0, 13, 24, 2, 25] (natsOf [0x14, 0x06, 0xE0, 0x59]) ∧
      ¬ Checked s.cfg 0 [] [0x14, 0x06, 0xE0, 0x59] :=
  ⟨hasInput_asked (by decide), spells_of (by decide), ⟨by decide, by decide, by decide +kernel⟩, by decide +kernel⟩

theorem witness_CheckDecodeB58Result :
    HasInput (asked .checkDecodeB58 0 0 (txt "0")) (txt "0") ∧ NotSymbols .b58 (txt "0") ∧
      HasInput (asked .checkDecodeB58 0 0 (txt "1111")) (txt "1111") ∧ Spells .b58 (txt "1111") [0, 0, 0, 0] ∧
      SameNumber 58 256 [0, 0, 0, 0] (natsOf [0, 0, 0, 0]) ∧ ([0, 0, 0, 0] : List Byte).length < 5 :=
  ⟨hasInput_asked (by decide), notSymbols_of (by decide), hasInput_asked (by decide), spells_of (by decide),
    ⟨by decide, by decide, by decide⟩, by decide⟩

theorem witness_CheckDecodeB58Result_ok :
    let s := asked .checkDecodeB58 0 0 (txt "1Wh4bh")
    HasInput s (txt "1Wh4bh") ∧ Spells .b58 (txt "1Wh4bh") [0, 29, 40, 3, 34, 40] ∧
      SameNumber 58 256 [0, 29, 40, 3, 34, 40] (natsOf (0 :: [] ++ sumEmpty)) ∧ sumEmpty.length = 4 ∧
      Checked s.cfg (0 : Byte).toNat [] sumEmpty :=
  ⟨hasInput_asked (by decide), spells_of (by decide), ⟨by decide, by decide, by decide +kernel⟩, rfl, checked_empty⟩

theorem witness_CheckDecodeB58Result_mismatch :
    let s := asked .checkDecodeB58 0 0 (txt "1Wh4bi")
    HasInput s (txt "1Wh4bi") ∧ Spells .b58 (txt "1Wh4bi") [0, 29, 40, 3, 34, 41] ∧
      SameNumber 58 256 [0, 29, 40, 3, 34, 41] (natsOf (0 :: [] ++ [0x14, 0x06, 0xE0, 0x59])) ∧
      ¬ Checked s.cfg (0 : Byte).toNat [] [0x14, 0x06, 0xE0, 0x59] :=
  ⟨hasInput_asked (by decide), spells_of (by decide), ⟨by decide, by decide, by decide +kernel⟩, by decide +kernel⟩

theorem witness_AddrEncodeResult :
    (asked .addrEncode 0 0 []).cfg.wf = true ∧ HasInput (asked .addrEncode 0 0 (hexZeros ++ [0x30])) (hexZeros ++ [0x30]) ∧
      (hexZeros ++ [0x30]).length ≠ 39 ∧ (hexZeros ++ [0x30]).length ≠ 40 ∧
      HasInput (asked .addrEncode 32 0 hexZeros) hexZeros ∧ hexZeros.length = 40 ∧
      (asked .addrEncode 32 0 hexZeros).snap.argA.toNat > 31 ∧
      HasInput (asked .addrEncode 31 0 (List.replicate 40 0x7A)) (List.replicate 40 0x7A) ∧
      (asked .addrEncode 31 0 (List.replicate 40 0x7A)).snap.argA.toNat ≤ 31 ∧ NotHex (List.replicate 40 0x7A) :=
  ⟨by decide, hasInput_asked (by decide), by decide, by decide, hasInput_asked (by decide), by decide, by decide,
    hasInput_asked (by decide), by decide, notHex_of (by decide)⟩

theorem witness_AddrEncodeResult_ok :
    let s := asked .addrEncode 0 0 (List.replicate 39 0x30)
    s.cfg.wf = true ∧ HasInput s (List.replicate 39 0x30) ∧ (List.replicate 39 (0x30 : Byte)).length = 39 ∧
      s.snap.argA.toNat ≤ 31 ∧ HexText (List.replicate 39 0x30) zeros20 ∧
      Checked s.cfg s.snap.argA.toNat zeros20 sumZeros ∧ SameNumber 256 32 (natsOf (zeros20 ++ sumZeros)) digitsZeros :=
  ⟨by decide, hasInput_asked (by decide), by decide, by decide, hexText_of (by decide), checked_zeros, sameNumber_zeros⟩

theorem isCheck_zeros : IsCheckC32 Config.default (txt "0000000000000000000002AA028H") 0 zeros20 :=
  ⟨digitsZeros, sumZeros, spells_of (by decide), rfl, sameNumber_zeros.symm (natsOf_lt _), checked_zeros⟩

theorem isAddress_zeros : IsAddress Config.default (txt "S0000000000000000000002AA028H") 0 zeros20 :=
  ⟨txt "0000000000000000000002AA028H", by decide, rfl, isCheck_zeros⟩

theorem isCheck_empty : IsCheckC32 Config.default (txt "0A0DR2R") 0 [] :=
  ⟨digitsEmpty, sumEmpty, spells_of (by decide), rfl, sameNumber_empty.symm (natsOf_lt _), checked_empty⟩

theorem witness_AddrDecodeResult :
    (asked .addrDecode 0 0 []).cfg.wf = true ∧ HasInput (asked .addrDecode 0 0 []) [] ∧
      ([] : List Byte).head? ≠ some 0x53 ∧ HasInput (asked .addrDecode 0 0 (txt "sP")) (txt "sP") ∧
      (txt "sP").head? ≠ some 0x53 ∧ HasInput (asked .addrDecode 0 0 (txt "SU")) (txt "SU") ∧
      txt "SU" = 0x53 :: txt "U" ∧ NotSymbols .c32 (txt "U") ∧ HasInput (asked .addrDecode 0 0 (txt "S")) (txt "S") ∧
      txt "S" = 0x53 :: [] :=
  ⟨by decide, hasInput_asked (by decide), by decide, hasInput_asked (by decide), by decide, hasInput_asked (by decide),
    by decide, notSymbols_of (by decide), hasInput_asked (by decide), by decide⟩

theorem witness_AddrDecodeResult_check :
    HasInput (asked .addrDecode 0 0 (txt "SP000")) (txt "SP000") ∧ Spells .c32 (txt "P000") [22, 0, 0, 0] ∧
      SameNumber 32 256 [0, 0, 0] (natsOf [0, 0, 0]) ∧
      HasInput (asked .addrDecode 0 0 (txt "S0A0DR2S")) (txt "S0A0DR2S") ∧
      Spells .c32 (txt "0A0DR2S") [0, 10, 0, 13, 24, 2, 25] ∧
      SameNumber 32 256 [10, 0, 13, 24, 2, 25] (natsOf ([] ++ [0x14, 0x06, 0xE0, 0x59])) ∧
      ¬ Checked Config.default 0 [] [0x14, 0x06, 0xE0, 0x59] ∧
      HasInput (asked .addrDecode 0 0 (txt "S0A0DR2R")) (txt "S0A0DR2R") ∧
      IsCheckC32 Config.default (txt "0A0DR2R") 0 [] ∧ ([] : List Byte).length ≠ 20 :=
  ⟨hasInput_asked (by decide), spells_of (by decide), ⟨by decide, by decide, by decide⟩, hasInput_asked (by decide),
    spells_of (by decide), ⟨by decide, by decide, by decide +kernel⟩, by decide +kernel, hasInput_asked (by decide),
    isCheck_empty, by decide⟩

theorem witness_AddrDecodeResult_ok :
    let t := txt "S0000000000000000000002AA028H"
    HasInput (asked .addrDecode 0 0 t) t ∧ IsAddress (asked .addrDecode 0 0 t).cfg t 0 zeros20 :=
  ⟨hasInput_asked (by decide), isAddress_zeros⟩

/-- Version 0 has no entry in the default table; with TVEN = 1 the limit is 255. -/
theorem witness_XconvC32ToB58Result :
    let t := txt "S0000000000000000000002AA028H"
    let s := asked (.xconvC32ToB58 true) 256 0 t
    s.cfg.wf = true ∧ HasInput s t ∧ IsAddress s.cfg t 0 zeros20 ∧ (∀ b, (0, b) ∉ s.cfg.vmap) ∧
      s.snap.argA.toNat > 255 := by
  refine ⟨by decide, hasInput_asked (by decide), isAddress_zeros, fun b h => ?_, by decide⟩
  have h' : (0, b) ∈ Config.defaultVmap := h
  simp [Config.defaultVmap] at h'

theorem witness_XconvC32ToB58Result_ok :
    let t := txt "S0000000000000000000002AA028H"
    let s := asked (.xconvC32ToB58 true) 0 0 t
    s.cfg.wf = true ∧ HasInput s t ∧ IsAddress s.cfg t 0 zeros20 ∧ 0 = s.snap.argA.toNat ∧
      Checked s.cfg 0 zeros20 sumZeros ∧
      SameNumber 256 58 (natsOf (byteOf 0 :: zeros20 ++ sumZeros)) (List.replicate 21 0 ++ [3, 46, 19, 53, 26, 1]) :=
  ⟨by decide, hasInput_asked (by decide), isAddress_zeros, by decide, checked_zeros, by decide, by decide,
    by decide +kernel⟩

theorem checked_zeros_22 : Checked Config.default 22 zeros20 [0xAE, 0x6D, 0xBC, 0xE8] := by decide +kernel

theorem sameNumber_zeros_22 : SameNumber 256 32 (natsOf (zeros20 ++ [0xAE, 0x6D, 0xBC, 0xE8])) (List.replicate 20 0 ++ [2, 23, 6, 27, 15, 7, 8]) :=
  ⟨by decide, by decide, by decide +kernel⟩

/-- Version 22 stands for version 0 in the default table (vector V8.20). -/
theorem witness_XconvC32ToB58Result_table :
    let t := txt "SP000000000000000000002Q6VF78"
    let s := asked (.xconvC32ToB58 false) 0 0 t
    HasInput s t ∧ IsAddress s.cfg t 22 zeros20 ∧ (22, 0) ∈ s.cfg.vmap ∧ Checked s.cfg 0 zeros20 sumZeros :=
  ⟨hasInput_asked (by decide), ⟨txt "P000000000000000000002Q6VF78", by decide, rfl, _, _, spells_of (by decide), rfl,
    sameNumber_zeros_22.symm (natsOf_lt _), checked_zeros_22⟩, by decide, checked_zeros⟩

theorem isCheckB58_zeros : IsCheckB58 Config.default (txt "1111111111111111111114oLvT2") 0 zeros20 :=
  ⟨List.replicate 21 0 ++ [3, 46, 19, 53, 26, 1], sumZeros, by decide, spells_of (by decide), rfl,
    ⟨by decide, by decide, by decide +kernel⟩, checked_zeros⟩

theorem isCheckB58_empty : IsCheckB58 Config.default (txt "1Wh4bh") 0 [] :=
  ⟨[0, 29, 40, 3, 34, 40], sumEmpty, by decide, spells_of (by decide), rfl, ⟨by decide, by decide, by decide +kernel⟩,
    checked_empty⟩

/-- Version 255 and the empty payload (vector V5.11). -/
theorem isCheckB58_255 : IsCheckB58 Config.default (txt "VrZDWwe") 255 [] :=
  ⟨[28, 49, 32, 12, 29, 54, 37], [0xC0, 0xB0, 0x57, 0xF5], by decide, spells_of (by decide), rfl, ⟨by decide, by decide, by decide +kernel⟩, by decide +kernel⟩

theorem witness_XconvB58ToC32Result :
    let s := asked (.xconvB58ToC32 false) 0 0 (txt "VrZDWwe")
    let s' := asked (.xconvB58ToC32 false) 0 0 (txt "1Wh4bh")
    s.cfg.wf = true ∧ HasInput s (txt "VrZDWwe") ∧ IsCheckB58 s.cfg (txt "VrZDWwe") 255 [] ∧
      (∀ c, (c, 255) ∉ s.cfg.vmap) ∧ HasInput s' (txt "1Wh4bh") ∧ IsCheckB58 s'.cfg (txt "1Wh4bh") 0 [] ∧
      (22, 0) ∈ s'.cfg.vmap ∧ ([] : List Byte).length ≠ 20 := by
  refine ⟨by decide, hasInput_asked (by decide), isCheckB58_255, fun b h => ?_, hasInput_asked (by decide),
    isCheckB58_empty, by decide, by decide⟩
  have h' : (b, 255) ∈ Config.defaultVmap := h
  simp [Config.defaultVmap] at h'

theorem witness_XconvB58ToC32Result_ok :
    let t := txt "1111111111111111111114oLvT2"
    let s := asked (.xconvB58ToC32 false) 0 0 t
    let s' := asked (.xconvB58ToC32 true) 32 0 t
    HasInput s t ∧ IsCheckB58 s.cfg t 0 zeros20 ∧ (22, 0) ∈ s.cfg.vmap ∧ zeros20.length = 20 ∧
      Checked s.cfg 22 zeros20 [0xAE, 0x6D, 0xBC, 0xE8] ∧ SameNumber 256 32 (natsOf (zeros20 ++ [0xAE, 0x6D, 0xBC, 0xE8])) (List.replicate 20 0 ++ [2, 23, 6, 27, 15, 7, 8]) ∧
      HasInput s' t ∧ IsCheckB58 s'.cfg t 0 zeros20 ∧ s'.snap.argA.toNat > 31 :=
  ⟨hasInput_asked (by decide), isCheckB58_zeros, by decide, rfl, checked_zeros_22, sameNumber_zeros_22,
    hasInput_asked (by decide), isCheckB58_zeros, by decide⟩

theorem witness_XconvReportsSourceErrors :
    let s := asked .addrDecode 0 0 []
    s.cfg.wf = true ∧ exec .addrDecode s = .next (s.completeErr .missingPrefix) ∧
      (s.completeErr .missingPrefix).errcode ≠ 0 ∧ exec .checkDecodeB58 s = .next (s.completeErr .tooShort) ∧
      (s.completeErr .tooShort).errcode ≠ 0 ∧ (s.completeErr .tooShort).errcode ≠ errCode .capacityExceeded :=
  ⟨by decide, rfl, by decide, rfl, by decide, by decide⟩

theorem witness_LeadingZerosPreserved :
    2 ≤ 2 ∧ 2 ≤ 256 ∧ ∀ d ∈ [0, 1], d < 2 := by decide

theorem witness_RadixRoundTrip :
    2 ≤ 256 ∧ 256 ≤ 256 ∧ ∀ d ∈ [0, 255], d < 256 := by decide

theorem witness_DigitCount :
    2 ≤ 58 ∧ valueOf 256 (natsOf [0, 1, 0]) ≠ 0 ∧ valueOf 256 (natsOf [0, 0]) = 0 := by decide

theorem witness_AlphabetIsBijection :
    31 < radixOf .c32 ∧ 57 < radixOf .b58 ∧ indexOf32 0x7A = some 31 := by decide

theorem witness_HomoglyphsDecodeIdentically :
    let t := txt "SO00"
    let t' := txt "S0oO"
    let s := asked .addrDecode 0 0 t
    let s' := asked .addrDecode 0 0 t'
    HasInput s t ∧ HasInput s' t' ∧ s.cfg = s'.cfg ∧ s.snap.argA = s'.snap.argA ∧ s.snap.argB = s'.snap.argB ∧
      t.map norm32 = t'.map norm32 ∧ t.head? = t'.head? :=
  ⟨hasInput_asked (by decide), hasInput_asked (by decide), rfl, rfl, rfl, by decide, by decide⟩

theorem witness_HexCaseAndParityDoNotMatter :
    (txt "aF0").map (fun x => if 0x41 ≤ x.toNat ∧ x.toNat ≤ 0x5A then x.toNat + 0x20 else x.toNat) =
        (txt "Af0").map (fun x => if 0x41 ≤ x.toNat ∧ x.toNat ≤ 0x5A then x.toNat + 0x20 else x.toNat) ∧
      (txt "aF0").length % 2 = 1 := by decide

theorem witness_PlainRoundTrip :
    hexParse (txt "0f0") = .ok [0x00, 0xF0] ∧ 3 ≤ (plainEnc .c32 [0x00, 0xF0] 0).length := by decide

theorem witness_CheckRoundTrip : hexParse (txt "f") = .ok [0x0F] ∧ 31 ≤ 31 ∧ 32 > 31 ∧ 255 ≤ 255 ∧ 256 > 255 := by decide

theorem witness_AddressRoundTrip :
    31 ≤ 31 ∧ hexParse (List.replicate 39 0x30) = .ok zeros20 ∧
      (List.replicate 39 (0x30 : Byte)).length + (List.replicate 39 (0x30 : Byte)).length % 2 = 40 ∧
      CanonicalC32 (txt "S0000000000000000000002AA028H") ∧
      addrDec Config.default (txt "S0000000000000000000002AA028H") = .ok (0, zeros20) := by
  refine ⟨by decide, by decide, by decide, ?_, by decide +kernel⟩
  show ∀ c ∈ txt "S0000000000000000000002AA028H", c ∈ c32Table
  decide

/-- Vector V8.20 and its way back. -/
theorem witness_CrossBaseRoundTrip :
    let t := txt "SP000000000000000000002Q6VF78"
    let out := txt "1111111111111111111114oLvT2"
    let s := asked (.xconvC32ToB58 false) 0 0 t
    let s' := asked (.xconvB58ToC32 false) 0 0 out
    let u := s.completeOk out 0
    let u' := s'.completeOk t 22
    s.cfg.wf = true ∧ s.cfg = s'.cfg ∧ HasInput s t ∧ HasInput s' out ∧ HasOutput u out ∧ u.errcode = 0 ∧
      CanonicalC32 t ∧ exec (.xconvC32ToB58 false) s = .next u ∧ exec (.xconvB58ToC32 false) s' = .next u' := by
  refine ⟨by decide, rfl, hasInput_asked (by decide), hasInput_asked (by decide),
    ⟨by decide, fun k _ => Memory.read_ofBytes _ k⟩, rfl, ?_, eq_next_of_isNext (by decide +kernel),
    eq_next_of_isNext (by decide +kernel)⟩
  show ∀ c ∈ txt "SP000000000000000000002Q6VF78", c ∈ c32Table
  decide

theorem witness_CrossBaseRoundTrip_b58 :
    let t := txt "1111111111111111111114oLvT2"
    let out := txt "SP000000000000000000002Q6VF78"
    let s := asked (.xconvB58ToC32 false) 0 0 t
    let s' := asked (.xconvC32ToB58 false) 0 0 out
    let u := s.completeOk out 22
    let u' := s'.completeOk t 0
    s.cfg.wf = true ∧ s.cfg = s'.cfg ∧ HasInput s t ∧ HasInput s' out ∧ HasOutput u out ∧ u.errcode = 0 ∧
      exec (.xconvB58ToC32 false) s = .next u ∧ exec (.xconvC32ToB58 false) s' = .next u' :=
  ⟨by decide, rfl, hasInput_asked (by decide), hasInput_asked (by decide),
    ⟨by decide, fun k _ => Memory.read_ofBytes _ k⟩, rfl, eq_next_of_isNext (by decide +kernel),
    eq_next_of_isNext (by decide +kernel)⟩

/-- A 16-bit access, a misaligned one, and a byte access to the last register offset. -/
theorem witness_UnadmittedAccessIsRefused :
    (waiting State.reset (.access (.read 2 0x400))).resetAsserted = false ∧ (2 ≠ 1 ∧ 2 ≠ 4) ∧
      (4 = 4 ∧ (0x402 : Offset).toNat % 4 ≠ 0) ∧ (1 = 1 ∧ (0x3FF : Offset).toNat < 0x400) ∧
      (waiting State.reset (.access (.read 2 0x400))).inbox = .access (.read 2 0x400) :: [] ∧
      (waiting State.reset (.access (.write 4 0x402 1))).inbox = .access (.write 4 0x402 1) :: [] := by decide

theorem witness_AdmittedAccessIsPerformed :
    (waiting State.reset (.access (.read 1 0x400))).resetAsserted = false ∧
      (1 = 1 ∧ 0x400 ≤ (0x400 : Offset).toNat) ∧ (4 = 4 ∧ (0xFFC : Offset).toNat % 4 = 0) ∧
      (waiting State.reset (.access (.read 1 0x400))).inbox = .access (.read 1 0x400) :: [] ∧
      (waiting State.reset (.access (.write 4 0xFFC 1))).inbox = .access (.write 4 0xFFC 1) :: [] := by decide

/-- A read of an OUT byte without a value draws; one of a register does not, and answers the same again. -/
theorem witness_ReadsHaveNoSideEffect :
    hostAccess (.read 1 0x800) State.reset =
        .next { State.reset with readData := some ((Config.anyByte 0).setWidth 32), drawn := 1 } ∧
      hostAccess (.read 4 0x000) State.reset = .next { State.reset with readData := some 0x58323343 } ∧
      ({ State.reset with readData := some 0x58323343 } : State).drawn = State.reset.drawn := ⟨rfl, rfl, rfl⟩

theorem witness_RegisterReadAnswers : State.reset.resetAsserted = false := rfl

/-- The ends of the four reserved ranges, and of the OUT window. -/
theorem witness_ReservedSpaceReadsZeroIgnoresWrites :
    let s := State.reset.start 1
    s.resetAsserted = false ∧ (0x02C ≤ (0x02C : Offset).toNat ∧ (0x02C : Offset).toNat < 0x400) ∧
      (0x400 + s.cfg.bufCap ≤ (0x500 : Offset).toNat ∧ (0x500 : Offset).toNat < 0x800) ∧
      (0x800 + s.cfg.bufCap ≤ (0xBFC : Offset).toNat ∧ (0xBFC : Offset).toNat < 0xC00) ∧
      0xC00 ≤ (0xC00 : Offset).toNat ∧ 0x800 ≤ (0x800 : Offset).toNat ∧ (0x800 : Offset).toNat < 0xC00 ∧
      (0x02C : Offset).toNat % 4 = 0 ∧ (0x500 : Offset).toNat % 4 = 0 ∧ 0x400 ≤ (0x500 : Offset).toNat := by decide

theorem witness_WritesWhileBusyAreDropped :
    let s := State.reset.start 1
    s.resetAsserted = false ∧ s.phase = .busy ∧ 0x400 ≤ (0x4FC : Offset).toNat ∧
      (0x4FC : Offset).toNat < 0x400 + s.cfg.bufCap ∧ (0x4FC : Offset).toNat < 0x800 ∧
      (0x4FC : Offset).toNat % 4 = 0 := by decide

theorem witness_RegisterWritesTakeEffect : State.reset.resetAsserted = false ∧ State.reset.phase = .idle := by decide

/-- A buffer of 65 bytes: the word at 0x440 has one byte below BUF_CAP. -/
theorem witness_InWindowWriteStoresLanes :
    let s : State := { State.reset with cfg := { Config.default with bufCap := 65 } }
    s.resetAsserted = false ∧ s.phase = .idle ∧ (0x440 : Offset).toNat = 0x400 + 64 ∧ 64 < 0x400 ∧ 64 % 4 = 0 ∧
      64 < s.cfg.bufCap ∧ ¬ 65 < s.cfg.bufCap := by decide

theorem witness_BufferReadsPackLanes :
    let s := given 0 0 [1, 2, 3, 4]
    s.resetAsserted = false ∧ 0 < 0x400 ∧ (0x400 : Offset).toNat = 0x400 + 0 ∧ s.inBuf.read 0 = some 1 ∧
      0 < s.cfg.bufCap ∧ 0 + 3 < s.cfg.bufCap ∧ s.inBuf.read 1 = some 2 ∧ s.inBuf.read 2 = some 3 ∧
      s.inBuf.read 3 = some 4 := by decide

/-- A buffer of 65 bytes in which IN[64] alone is below BUF_CAP and never written: the word at 0x440. -/
theorem witness_BufferReadsPackLanes_across :
    let s : State := { State.reset with cfg := { Config.default with bufCap := 65 } }
    let b : Nat → Byte := fun k => if k < s.cfg.bufCap then (s.inBuf.read k).getD (Config.unwrittenIn s.epoch k) else 0
    s.resetAsserted = false ∧ (0x440 : Offset).toNat = 0x400 + 64 ∧ 64 < 0x400 ∧ 64 % 4 = 0 ∧
      b 64 = Config.unwrittenIn 0 64 ∧ b 65 = 0 :=
  ⟨rfl, rfl, by decide, rfl, rfl, rfl⟩

/-- Offset 0x8FF, the last OUT byte, of a command in flight. -/
theorem inv_busy : (State.reset.start 3).Inv := by
  refine ⟨by decide, rfl, fun _ _ => rfl, rfl, fun _ => rfl, by decide, by decide, fun h => absurd rfl h,
    fun _ => ⟨rfl, rfl, rfl, rfl⟩, fun _ => rfl⟩

theorem witness_UndefinedOutByteIsFree :
    let s := State.reset.start 3
    s.Inv ∧ s.resetAsserted = false ∧ (0x8FF : Offset).toNat = 0x800 + 255 ∧ 255 < s.cfg.bufCap ∧
      s.outLen.toNat ≤ 255 := ⟨inv_busy, by decide, by decide, by decide, by decide⟩

/-- A buffer of 65 bytes after a result of one byte. -/
def oneByteOf65 : State :=
  ({ State.reset with cfg := { Config.default with bufCap := 65 } } : State).completeOk [0x30] 0

theorem inv_oneByteOf65 : oneByteOf65.Inv := by
  refine ⟨by decide, rfl, fun _ _ => rfl, rfl, fun k => ?_, by decide, by decide, fun h => absurd rfl h,
    fun h => (nomatch h), fun h => (nomatch h)⟩
  cases k <;> rfl

/-- The word at 0x800 has one result byte and three free ones; the word at 0x840 one free byte and three beyond
BUF_CAP. -/
theorem witness_UndefinedOutByteIsFree_word :
    let s := oneByteOf65
    let b : Nat → Nat → Byte := fun i k =>
      if s.cfg.bufCap ≤ k then 0 else (s.outBuf.read k).getD (Config.anyByte (s.drawn + (k - max i s.outLen.toNat)))
    s.Inv ∧ s.resetAsserted = false ∧ (0x800 : Offset).toNat = 0x800 + 0 ∧ (0x840 : Offset).toNat = 0x800 + 64 ∧
      0 % 4 = 0 ∧ 64 % 4 = 0 ∧ b 0 0 = 0x30 ∧ b 0 1 = Config.anyByte 0 ∧ b 0 2 = Config.anyByte 1 ∧
      b 64 64 = Config.anyByte 0 ∧ b 64 65 = 0 ∧ b 0 65 = 0 :=
  ⟨inv_oneByteOf65, rfl, rfl, rfl, rfl, rfl, rfl, rfl, rfl, rfl, rfl, rfl⟩

theorem witness_IrqFollowsEnableAndDone :
    let s := asked .alphaSymAtC32 0 0 []
    exec .alphaSymAtC32 s = .next (s.completeOk [0x30] 0) ∧ State.reset.resetAsserted = false ∧
      hostAccess (.write 4 0x008 1) State.reset = .next { State.reset with ie := true } ∧
      hostAccess (.write 4 0x010 2) State.reset = .next State.reset ∧ State.reset.phase = .idle ∧
      hostAccess (.write 4 0x00C 1) State.reset = .next (State.reset.start 1) ∧
      State.reset.assertReset.resetAsserted = true := ⟨rfl, rfl, rfl, rfl, rfl, rfl, rfl⟩

theorem witness_ResetValues :
    ∃ u : State, u.resetAsserted = true ∧ u.phase = .busy ∧ u.releaseReset = u.releaseReset :=
  ⟨(State.reset.start 1).assertReset, rfl, rfl, rfl⟩

theorem witness_ResetAbandonsCommand :
    let s := (State.reset.start 1).assertReset
    s.resetAsserted = true ∧ s.inbox = [] ∧ (waiting s .engine).inbox = .engine :: [] ∧
      (waiting s .releaseReset).inbox = .releaseReset :: [] ∧
      (waiting s (.access (.read 4 0))).inbox = .access (.read 4 0) :: [] := by decide

theorem witness_StartedCommandCompletes :
    let s : State := { asked .alphaNormalizeC32 0 0 [0x69] with
      inbox := [.access (.read 4 0x010), .access (.write 4 0x018 1)] }
    s.resetAsserted = false ∧ s.phase = .busy ∧ (∀ e ∈ s.inbox, isOrdinary e = true) ∧
      s.snap.inLen.toNat ≤ s.cfg.bufCap ∧ ∀ k < s.snap.inLen.toNat, s.inWritten k = true := by decide

theorem witness_OperandsFrozenWhileBusy :
    let s := waiting (State.reset.start 1) (.access (.write 4 0x018 7))
    step s = .next { s with inbox := [], overrun := true } ∧ s.phase = .busy ∧
      ({ s with inbox := [], overrun := true } : State).phase = .busy := ⟨rfl, rfl, rfl⟩

/-- DONE rises, DONE falls three ways, OVERRUN rises, OVERRUN falls two ways. -/
theorem witness_FlagsChangeOnlyAsListed :
    let busy := State.reset.start 3
    let full : State := { State.reset with done := true, overrun := true }
    let held := full.assertReset
    step busy = .next (busy.completeOk [0x30] 0) ∧
      step (waiting full (.access (.write 4 0x010 0xA))) = .next State.reset ∧
      step (waiting full (.access (.write 4 0x00C 1))) = .next (full.start 1) ∧
      step (waiting held .releaseReset) = .next { State.reset with epoch := 1 } ∧
      step (waiting busy (.access (.write 1 0x400 1))) = .next { busy with overrun := true } :=
  ⟨rfl, rfl, rfl, rfl, eq_next_of_isNext (by decide +kernel)⟩

theorem witness_StepKeepsInvariant :
    (State.reset.start 3).Inv ∧
      step (State.reset.start 3) = .next ((State.reset.start 3).completeOk [0x30] 0) := ⟨inv_busy, rfl⟩

end Sys2Proof.Machine.Tests
end

section
/-! PROOFS. The scope family (00_scope.md): the engine's step runs the decoded command, a result is a function of the
snapshot, and every step keeps the invariant. -/

namespace Sys2Proof.Machine

/-! ### The engine's step -/

/-- The engine's turn with a command in flight and RESET released is a completion. -/
theorem engineTurn_of_busy {s : State} (hr : s.resetAsserted = false) (hp : s.phase = .busy) :
    engineTurn s = complete s := by
  simp [engineTurn, hr, hp]

/-- Settles O5: in both cases the step is the engine's turn, and the turn completes the decoded command. -/
theorem stepRunsDecodedCommand : Obligations.StepRunsDecodedCommand := by
  unfold Obligations.StepRunsDecodedCommand
  intro s i hr hp hd
  constructor
  · intro hi
    rw [step_of_empty hi, engineTurn_of_busy hr hp, complete_of_ok hd]
  · intro rest hi
    calc step s = engineTurn { s with inbox := rest } := step_of_event hi
      _ = complete { s with inbox := rest } := engineTurn_of_busy hr hp
      _ = exec i { s with inbox := rest } := complete_of_ok hd

/-! ### A result is a function of the snapshot -/

/-- A command that reads its input meets the model fault at a byte never written (70_reset_and_hazards.md R233). -/
theorem exec_of_unwritten {i : Instr} {s : State} (hr : readsInput i = true)
    (hl : s.snap.inLen.toNat ≤ s.cfg.bufCap) {k : Nat} (hk : k < s.snap.inLen.toNat) (hn : s.inBuf.read k = none) :
    exec i s = .fault .unwrittenInput := by
  have hb : s.inBuf.readRange 0 s.snap.inLen.toNat = none :=
    (Memory.readRange_eq_none _ _ _).mpr ⟨k, hk, by rwa [Nat.zero_add]⟩
  rw [exec_eq_run, if_pos hr, runReading, if_neg (Nat.not_lt.mpr hl), hb]

/-- The input of a command is the same in a state with the same BUF_CAP, IN_LEN and input bytes. -/
theorem HasInput.congr {s s' : State} {t : List Byte} (h : HasInput s t) (hc : s.cfg = s'.cfg)
    (hn : s.snap.inLen = s'.snap.inLen) (hm : ∀ k < s.snap.inLen.toNat, s.inBuf.read k = s'.inBuf.read k) :
    HasInput s' t where
  len := hn ▸ h.len
  fits := hc ▸ h.fits
  bytes k hk := (hm k (h.len ▸ hk)).symm.trans (h.bytes k hk)

/-- One command in two states that agree on what it may read gives one result. -/
theorem sameResult_exec {i : Instr} {s s' : State} (hc : s.cfg = s'.cfg) (ha : s.snap.argA = s'.snap.argA)
    (hb : s.snap.argB = s'.snap.argB) (hn : s.snap.inLen = s'.snap.inLen)
    (hm : ∀ k < s.snap.inLen.toNat, s.inBuf.read k = s'.inBuf.read k) : SameResult (exec i s) (exec i s') := by
  have hbody : bodyOf i s'.cfg s'.snap = bodyOf i s.cfg s.snap := by rw [← hc, bodyOf_congr i s.cfg ha hb]
  rcases exec_cases i s with ⟨hl, he⟩ | ⟨hl, hr, ⟨k, hk, hu⟩, he⟩ | ⟨t, hr, ht, he⟩ | ⟨hl, hr, he⟩
  · have he' : exec i s' = .next (s'.completeErr .capacityExceeded) := exec_of_input_too_long (hc ▸ hn ▸ hl)
    simp [he, he']
  · have he' : exec i s' = .fault .unwrittenInput :=
      exec_of_unwritten hr (hc ▸ hn ▸ hl) (hn ▸ hk) ((hm k hk).symm.trans hu)
    simp [he, he']
  · rw [he, exec_of_hasInput hr (ht.congr hc hn hm), hbody]
    exact sameResult_finish hc _
  · rw [he, exec_of_not_reading hr (hc ▸ hn ▸ hl), hbody]
    exact sameResult_finish hc _

/-- A completion is whole, or has the code of one error kind and no result. -/
theorem exec_whole_or_error {i : Instr} {s t : State} (h : exec i s = .next t) :
    t.errcode = 0 ∨ (t.errcode.toNat ≤ 11 ∧ t.outLen = 0 ∧ t.outVal = 0 ∧ ∀ k, t.outBuf.read k = none) := by
  rcases exec_next_cases h with ⟨k, rfl⟩ | ⟨out, val, -, rfl⟩
  · exact .inr ⟨(errCode_range k).2, rfl, rfl, fun _ => rfl⟩
  · exact .inl rfl

/-- Settles O12: the four cases of the execution frame carry over to any state with the same operands. -/
theorem resultDependsOnlyOnSnapshot : Obligations.ResultDependsOnlyOnSnapshot := by
  unfold Obligations.ResultDependsOnlyOnSnapshot
  intro i s s' hc ha hb hn hm
  exact ⟨sameResult_exec hc ha hb hn hm, fun t => exec_whole_or_error⟩

/-! ### The invariant, operation by operation -/

/-- A result's buffer defines exactly the bytes below the result's length. -/
theorem Memory.isSome_read_ofBytes (bs : List Byte) (k : Nat) :
    ((Memory.ofBytes bs).read k).isSome = decide (k < bs.length) := by
  rw [Bool.eq_iff_iff]
  simp

section
variable {s : State} (h : s.Inv)
include h

/-- The invariant speaks of none of IE, OVERRUN, the RESET input and the model's own records. -/
theorem State.Inv.of_unwatched {ie ov ra : Bool} {ep dr : Nat} {rd : Option Word} {ib : List Event} :
    ({ s with ie := ie, overrun := ov, resetAsserted := ra, epoch := ep, drawn := dr, readData := rd, inbox := ib } :
      State).Inv :=
  { h with }

theorem State.Inv.start (w : Word) : (s.start w).Inv :=
  { h with
    outForm := rfl
    outDefined := fun _ => by simp
    outFits := Nat.zero_le _
    errKnown := Nat.zero_le _
    errNoResult := fun _ => ⟨rfl, rfl⟩
    busyNoResult := fun _ => ⟨rfl, rfl, rfl, rfl⟩
    busySnap := fun _ => rfl }

theorem State.Inv.completeErr (k : ErrKind) : (s.completeErr k).Inv :=
  { h with
    outForm := rfl
    outDefined := fun _ => by simp
    outFits := Nat.zero_le _
    errKnown := (errCode_range k).2
    errNoResult := fun _ => ⟨rfl, rfl⟩
    busyNoResult := fun hp => nomatch hp
    busySnap := fun hp => nomatch hp }

/-- BUF_CAP is at most 1024, so the length of a result that fits is not cut by the 32 bits of OUT_LEN. -/
theorem State.Inv.completeOk {out : List Byte} (val : Word) (hl : out.length ≤ s.cfg.bufCap) :
    (s.completeOk out val).Inv :=
  have hcap : s.cfg.bufCap ≤ 1024 := (Config.wf_bounds h.config).2.1
  have hlen : (s.completeOk out val).outLen.toNat = out.length := by
    rw [State.completeOk_outLen, BitVec.toNat_ofNat, Nat.mod_eq_of_lt (by omega)]
  { h with
    outForm := Memory.ofBytes_wf out
    outDefined := fun k => by rw [hlen]; exact Memory.isSome_read_ofBytes out k
    outFits := hlen ▸ hl
    errKnown := Nat.zero_le _
    errNoResult := fun he => absurd rfl he
    busyNoResult := fun hp => nomatch hp
    busySnap := fun hp => nomatch hp }

/-- A STATUS write can only clear DONE, which is 0 while BUSY. -/
theorem State.Inv.writeStatus (v : Word) : (s.writeStatus v).Inv :=
  { h with
    busyNoResult := fun hp => by
      obtain ⟨hd, hres⟩ := h.busyNoResult hp
      exact ⟨by simp [hd], hres⟩ }

/-- While IDLE the operand registers are free: SNAP is tied to them only while BUSY. -/
theorem State.Inv.setOperands (hp : s.phase = .idle) (a b n : Word) :
    ({ s with argA := a, argB := b, inLen := n } : State).Inv :=
  { h with busySnap := fun hb => by rw [hp] at hb; cases hb }

theorem State.Inv.windowWrite {t : State} (hw : WindowWrite s t) : t.Inv ∧ t.cfg = s.cfg := by
  rcases hw with rfl | ⟨-, rfl⟩ | ⟨-, m, rfl, hform, hrange⟩
  · exact ⟨h, rfl⟩
  · exact ⟨h.of_unwatched, rfl⟩
  · exact ⟨{ h with
      inForm := hform h.inForm
      inRange := fun k hk => (hrange k hk).trans (h.inRange k hk) }, rfl⟩

theorem State.Inv.writeReg (r : Reg) (v : Word) : (s.writeReg r v).Inv ∧ (s.writeReg r v).cfg = s.cfg := by
  rcases writeReg_cases s r v with e | ⟨-, e⟩ | ⟨-, e⟩ | ⟨-, e⟩ | ⟨-, -, e⟩ | ⟨hp, a, b, n, e⟩ <;> rw [e]
  · exact ⟨h, rfl⟩
  · exact ⟨h.of_unwatched, rfl⟩
  · exact ⟨h.writeStatus v, rfl⟩
  · exact ⟨h.of_unwatched, rfl⟩
  · exact ⟨h.start v, rfl⟩
  · exact ⟨h.setOperands hp a b n, rfl⟩

theorem State.Inv.hostAccess {a : Access} {t : State} (ht : hostAccess a s = .next t) : t.Inv ∧ t.cfg = s.cfg := by
  obtain ⟨-, ⟨n, off, -, -, rfl⟩ | ⟨n, off, v, -, -, rfl⟩⟩ := hostAccess_next ht
  · obtain ⟨w, d, e, -⟩ := hostRead_frame s n off
    rw [e]
    exact ⟨h.of_unwatched, rfl⟩
  · rcases hostWrite_cases s n off v with ⟨r, -, e⟩ | hw
    · rw [e]
      exact h.writeReg r v
    · exact h.windowWrite hw

theorem State.Inv.engineTurn {t : State} (ht : engineTurn s = .next t) : t.Inv ∧ t.cfg = s.cfg := by
  rcases engineTurn_next ht with ⟨-, -, hc⟩ | ⟨-, rfl⟩
  · rcases complete_next_cases hc with ⟨k, rfl⟩ | ⟨out, val, hl, rfl⟩
    · exact ⟨h.completeErr k, rfl⟩
    · exact ⟨h.completeOk val hl, rfl⟩
  · exact ⟨h, rfl⟩

/-- Reset keeps the parameters, and its values meet the invariant with any parameters in range. -/
theorem State.Inv.afterReset : s.afterReset.Inv where
  config := h.config
  inForm := rfl
  inRange := fun _ _ => rfl
  outForm := rfl
  outDefined := fun _ => by simp
  outFits := Nat.zero_le _
  errKnown := Nat.zero_le _
  errNoResult := fun _ => ⟨rfl, rfl⟩
  busyNoResult := fun hp => nomatch hp
  busySnap := fun hp => nomatch hp

theorem State.Inv.releaseReset : s.releaseReset.Inv ∧ s.releaseReset.cfg = s.cfg := by
  cases hr : s.resetAsserted with
  | false => rw [State.releaseReset_of_released hr]; exact ⟨h, rfl⟩
  | true => rw [State.releaseReset_of_asserted hr]; exact ⟨h.afterReset, rfl⟩

end

/-- Settles O60: taking an event off the inbox keeps the invariant, and so does each kind of event. -/
theorem stepKeepsInvariant : Obligations.StepKeepsInvariant := by
  unfold Obligations.StepKeepsInvariant
  intro s t h hs
  have hpop : ∀ rest, ({ s with inbox := rest } : State).Inv := fun _ => h.of_unwatched
  rcases step_cases hs with ⟨rest, -, he⟩ | ⟨a, rest, -, ha⟩ | ⟨rest, -, rfl⟩ | ⟨rest, -, rfl⟩
  · exact (hpop rest).engineTurn he
  · exact (hpop rest).hostAccess ha
  · exact ⟨(hpop rest).of_unwatched, rfl⟩
  · exact (hpop rest).releaseReset

end Sys2Proof.Machine
end

section
/-! PROOFS. The state family (10_state.md): what a register read answers, what a register write does, what stays while a
command is in flight, and when DONE and OVERRUN change. -/

namespace Sys2Proof.Machine

/-! ### Accesses to a register by its name -/

theorem admitted_regOffset (r : Reg) : admitted 4 (regOffset r) = true :=
  (admitted_iff _ _).mpr (.inl ⟨rfl, (regOffset_lt r).2⟩)

theorem hostRead_regOffset (s : State) (r : Reg) :
    s.hostRead 4 (regOffset r) = { s with readData := some (s.regRead r) } := by
  simp only [State.hostRead, if_pos (regOffset_lt r).1, State.readRegister, regAt_regOffset]

theorem hostWrite_regOffset (s : State) (r : Reg) (v : Word) : s.hostWrite 4 (regOffset r) v = s.writeReg r v := by
  simp only [State.hostWrite, if_pos (regOffset_lt r).1, regAt_regOffset]

/-- With RESET released, a read of a register answers it and changes nothing else. -/
theorem hostAccess_read_regOffset {s : State} (hr : s.resetAsserted = false) (r : Reg) :
    hostAccess (.read 4 (regOffset r)) s = .next { s with readData := some (s.regRead r) } := by
  rw [hostAccess_read hr (admitted_regOffset r), hostRead_regOffset]

/-- With RESET released, a write to a register is performed. -/
theorem hostAccess_write_regOffset {s : State} (hr : s.resetAsserted = false) (r : Reg) (v : Word) :
    hostAccess (.write 4 (regOffset r) v) s = .next (s.writeReg r v) := by
  rw [hostAccess_write v hr (admitted_regOffset r), hostWrite_regOffset]

/-! ### The registers that are not stored as words, bit by bit -/

/-- CTRL has one live bit, IE (10_state.md R23). -/
theorem getLsbD_regRead_ctrl (s : State) (k : Nat) :
    (s.regRead .ctrl).getLsbD k = (decide (k = 0) && s.ie) := by
  rw [State.regRead, BitVec.getLsbD_setWidth, BitVec.getLsbD_ofBool]
  by_cases hk : k = 0 <;> simp [hk]

/-- The bits of STATUS (10_state.md R25). -/
theorem getLsbD_status (s : State) (k : Nat) :
    s.status.getLsbD k =
      if k = 0 then s.busy else if k = 1 then s.done else if k = 2 then s.err else if k = 3 then s.overrun
      else false := by
  simp only [State.status, BitVec.getLsbD_append, BitVec.getLsbD_ofBool]
  match k with
  | 0 | 1 | 2 | 3 => simp
  | k + 4 => simp

/-- ERRCODE is zero-extended (10_state.md R29). -/
theorem getLsbD_regRead_errcode (s : State) (k : Nat) : (s.regRead .errcode).getLsbD k = s.errcode.getLsbD k := by
  rw [State.regRead, BitVec.getLsbD_setWidth]
  by_cases hk : k < 32
  · simp [hk]
  · simp [hk, BitVec.getLsbD_of_ge s.errcode k (by omega)]

/-- Settles O46: an access by the register's name, and the three registers that are read bit by bit. -/
theorem registerReadAnswers : Obligations.RegisterReadAnswers := by
  unfold Obligations.RegisterReadAnswers
  refine ⟨rfl, rfl, rfl, rfl, rfl, rfl, rfl, rfl, rfl, rfl, rfl, fun s => ?_⟩
  have hstatus : ∀ k, (s.regRead .status).getLsbD k =
      if k = 0 then decide (s.phase = .busy) else if k = 1 then s.done
      else if k = 2 then decide (s.errcode ≠ 0) else if k = 3 then s.overrun else false := by
    intro k
    rw [State.regRead, getLsbD_status]
    simp [State.busy, State.err, beq_eq_decide, bne]
  exact ⟨hostAccess_read_regOffset, rfl, rfl, getLsbD_regRead_ctrl s, rfl, hstatus, getLsbD_regRead_errcode s,
    rfl, rfl, rfl, rfl, rfl⟩

/-- Settles O49: each write is the register's own, and the operand registers are open while IDLE. -/
theorem registerWritesTakeEffect : Obligations.RegisterWritesTakeEffect := by
  unfold Obligations.RegisterWritesTakeEffect
  intro s v hr
  have hw : ∀ r, hostAccess (.write 4 (regOffset r) v) s = .next (s.writeReg r v) :=
    fun r => hostAccess_write_regOffset hr r v
  refine ⟨hw .ctrl, hw .status, fun hp => ?_⟩
  have hb : ¬ s.busy = true := by simp [hp]
  exact ⟨(hw .argA).trans (congrArg _ (if_neg hb)), (hw .argB).trans (congrArg _ (if_neg hb)),
    (hw .inLen).trans (congrArg _ (if_neg hb))⟩

/-! ### A command in flight -/

/-- Everything a release of RESET can do. -/
theorem releaseReset_cases (s : State) :
    s.releaseReset = s ∨ (s.resetAsserted = true ∧ s.releaseReset = s.afterReset) := by
  cases hr : s.resetAsserted with
  | true => exact .inr ⟨rfl, State.releaseReset_of_asserted hr⟩
  | false => exact .inl (State.releaseReset_of_released hr)

/-- A step that leaves a command in flight changes no more than IE, the flags, the RESET input, the answer, the count of
draws and the inbox: the engine's turn would end the command, and so would a reset. -/
theorem step_busy_frame {s t : State} (h : step s = .next t) (hs : s.phase = .busy) (ht : t.phase = .busy) :
    t = { s with
      ie := t.ie
      done := t.done
      overrun := t.overrun
      resetAsserted := t.resetAsserted
      readData := t.readData
      drawn := t.drawn
      inbox := t.inbox } := by
  rcases step_cases h with ⟨rest, -, he⟩ | ⟨a, rest, -, ha⟩ | ⟨rest, -, rfl⟩ | ⟨rest, -, rfl⟩
  · rcases engineTurn_next he with ⟨-, -, hc⟩ | ⟨-, rfl⟩
    · rcases complete_next_cases hc with ⟨k, rfl⟩ | ⟨out, val, -, rfl⟩ <;> cases ht
    · rfl
  · rw [hostAccess_busy ha hs]
  · rfl
  · rcases releaseReset_cases { s with inbox := rest } with hr | ⟨-, hr⟩
    · rw [hr]
    · rw [hr] at ht
      cases ht

/-- Settles O57: the frame of a step that leaves the command in flight names none of these fields. -/
theorem operandsFrozenWhileBusy : Obligations.OperandsFrozenWhileBusy := by
  unfold Obligations.OperandsFrozenWhileBusy
  intro s t h hs ht
  rw [step_busy_frame h hs ht]
  exact ⟨rfl, rfl, rfl, rfl, rfl, rfl, rfl, rfl, rfl, rfl, rfl⟩

/-! ### DONE and OVERRUN -/

/-- The ways the event `e` may change DONE and OVERRUN (10_state.md R25, R26, R28, R42). -/
inductive FlagChange (e : Event) (s t : State) : Prop where
  | kept (done : t.done = s.done) (overrun : t.overrun = s.overrun)
  | acknowledged (v : Word) (event : e = .access (.write 4 0x010 v)) (done : t.done = (s.done && !v.getLsbD 1))
      (overrun : t.overrun = (s.overrun && !v.getLsbD 3))
  | started (v : Word) (event : e = .access (.write 4 0x00C v)) (idle : s.phase = .idle) (done : t.done = false)
      (overrun : t.overrun = s.overrun)
  | dropped (n : Nat) (off : Offset) (v : Word) (event : e = .access (.write n off v)) (busy : s.phase = .busy)
      (done : t.done = s.done) (overrun : t.overrun = true)
  | ended (busy : s.phase = .busy) (idle : t.phase = .idle) (done : t.done = true) (overrun : t.overrun = s.overrun)
  | reset (event : e = .releaseReset) (asserted : s.resetAsserted = true) (done : t.done = false)
      (overrun : t.overrun = false)

/-- An admitted access to a register is 32 bits wide. -/
theorem width_of_admitted_regOffset {n : Nat} {r : Reg} (h : admitted n (regOffset r) = true) : n = 4 := by
  have := (regOffset_lt r).1
  rcases (admitted_iff _ _).mp h with ⟨hn, -⟩ | ⟨-, hoff⟩ <;> omega

theorem writeReg_flagChange (s : State) (r : Reg) (v : Word) :
    FlagChange (.access (.write 4 (regOffset r) v)) s (s.writeReg r v) := by
  rcases writeReg_cases s r v with h | ⟨-, h⟩ | ⟨rfl, h⟩ | ⟨hp, h⟩ | ⟨hp, rfl, h⟩ | ⟨-, a, b, n, h⟩ <;> rw [h]
  · exact .kept rfl rfl
  · exact .kept rfl rfl
  · exact .acknowledged v rfl rfl rfl
  · exact .dropped _ _ v rfl hp rfl rfl
  · exact .started v rfl hp rfl rfl
  · exact .kept rfl rfl

theorem WindowWrite.flagChange {s t : State} (h : WindowWrite s t) (n : Nat) (off : Offset) (v : Word) :
    FlagChange (.access (.write n off v)) s t := by
  rcases h with rfl | ⟨hp, rfl⟩ | ⟨-, m, rfl, -⟩
  · exact .kept rfl rfl
  · exact .dropped n off v rfl hp rfl rfl
  · exact .kept rfl rfl

theorem hostAccess_flagChange {a : Access} {s t : State} (h : hostAccess a s = .next t) :
    FlagChange (.access a) s t := by
  obtain ⟨-, ⟨n, off, rfl, -, rfl⟩ | ⟨n, off, v, rfl, ha, rfl⟩⟩ := hostAccess_next h
  · obtain ⟨w, d, hread, -⟩ := hostRead_frame s n off
    rw [hread]
    exact .kept rfl rfl
  · rcases hostWrite_cases s n off v with ⟨r, rfl, hw⟩ | hw
    · obtain rfl := width_of_admitted_regOffset ha
      rw [hw]
      exact writeReg_flagChange s r v
    · exact hw.flagChange n off v

theorem engineTurn_flagChange {s t : State} (h : engineTurn s = .next t) : FlagChange .engine s t := by
  rcases engineTurn_next h with ⟨-, hp, hc⟩ | ⟨-, rfl⟩
  · rcases complete_next_cases hc with ⟨k, rfl⟩ | ⟨out, val, -, rfl⟩ <;> exact .ended hp rfl rfl rfl
  · exact .kept rfl rfl

theorem releaseReset_flagChange (s : State) : FlagChange .releaseReset s s.releaseReset := by
  rcases releaseReset_cases s with h | ⟨hr, h⟩ <;> rw [h]
  · exact .kept rfl rfl
  · exact .reset rfl hr rfl rfl

/-- Taking an event off the inbox moves no flag. -/
theorem FlagChange.of_inbox {e : Event} {s t : State} {rest : List Event}
    (h : FlagChange e { s with inbox := rest } t) : FlagChange e s t := by
  cases h with
  | kept done overrun => exact .kept done overrun
  | acknowledged v event done overrun => exact .acknowledged v event done overrun
  | started v event idle done overrun => exact .started v event idle done overrun
  | dropped n off v event busy done overrun => exact .dropped n off v event busy done overrun
  | ended busy idle done overrun => exact .ended busy idle done overrun
  | reset event asserted done overrun => exact .reset event asserted done overrun

/-- A step changes DONE and OVERRUN as the event it takes may: the first of the inbox, or, with nothing there, the
engine's turn. -/
theorem step_flagChange {s t : State} (h : step s = .next t) :
    ∃ e, FlagChange e s t ∧ (e = .engine ∨ ∃ rest, s.inbox = e :: rest) := by
  rcases step_cases h with ⟨rest, -, he⟩ | ⟨a, rest, hi, ha⟩ | ⟨rest, hi, rfl⟩ | ⟨rest, hi, rfl⟩
  · exact ⟨.engine, (engineTurn_flagChange he).of_inbox, .inl rfl⟩
  · exact ⟨.access a, (hostAccess_flagChange ha).of_inbox, .inr ⟨rest, hi⟩⟩
  · exact ⟨.assertReset, .kept rfl rfl, .inr ⟨rest, hi⟩⟩
  · exact ⟨.releaseReset, (releaseReset_flagChange _).of_inbox, .inr ⟨rest, hi⟩⟩

section
variable {e : Event} {s t : State} (h : FlagChange e s t)
include h

theorem FlagChange.done_rises (hs : s.done = false) (ht : t.done = true) : s.phase = .busy ∧ t.phase = .idle := by
  cases h with
  | ended busy idle _ _ => exact ⟨busy, idle⟩
  | _ => simp_all

theorem FlagChange.done_falls (hs : s.done = true) (ht : t.done = false) :
    (∃ v, e = .access (.write 4 0x010 v) ∧ v.getLsbD 1 = true) ∨
      (∃ v, e = .access (.write 4 0x00C v) ∧ s.phase = .idle) ∨
      (e = .releaseReset ∧ s.resetAsserted = true) := by
  cases h with
  | acknowledged v event done _ => exact .inl ⟨v, event, by simpa [hs, ht] using done⟩
  | started v event idle _ _ => exact .inr (.inl ⟨v, event, idle⟩)
  | reset event asserted _ _ => exact .inr (.inr ⟨event, asserted⟩)
  | _ => simp_all

theorem FlagChange.overrun_rises (hs : s.overrun = false) (ht : t.overrun = true) :
    s.phase = .busy ∧ ∃ n off v, e = .access (.write n off v) := by
  cases h with
  | dropped n off v event busy _ _ => exact ⟨busy, n, off, v, event⟩
  | _ => simp_all

theorem FlagChange.overrun_falls (hs : s.overrun = true) (ht : t.overrun = false) :
    (∃ v, e = .access (.write 4 0x010 v) ∧ v.getLsbD 3 = true) ∨ (e = .releaseReset ∧ s.resetAsserted = true) := by
  cases h with
  | acknowledged v event _ overrun => exact .inl ⟨v, event, by simpa [hs, ht] using overrun⟩
  | reset event asserted _ _ => exact .inr ⟨event, asserted⟩
  | _ => simp_all

end

/-- Settles O58: each clause is read off the change of the event the step takes, which, unless it is the engine's, is
the first of the inbox. -/
theorem flagsChangeOnlyAsListed : Obligations.FlagsChangeOnlyAsListed := by
  unfold Obligations.FlagsChangeOnlyAsListed
  intro s t h
  obtain ⟨e, hc, he⟩ := step_flagChange h
  have hfirst : e ≠ .engine → ∃ rest, s.inbox = e :: rest := he.resolve_left
  refine ⟨hc.done_rises, fun hs ht => ?_, fun hs ht => ?_, fun hs ht => ?_⟩
  · rcases hc.done_falls hs ht with ⟨v, rfl, hv⟩ | ⟨v, rfl, hp⟩ | ⟨rfl, hr⟩ <;> obtain ⟨rest, hi⟩ := hfirst nofun
    · exact .inl ⟨v, rest, hi, hv⟩
    · exact .inr (.inl ⟨v, rest, hi, hp⟩)
    · exact .inr (.inr ⟨rest, hi, hr⟩)
  · obtain ⟨hp, n, off, v, rfl⟩ := hc.overrun_rises hs ht
    obtain ⟨rest, hi⟩ := hfirst nofun
    exact ⟨hp, n, off, v, rest, hi⟩
  · rcases hc.overrun_falls hs ht with ⟨v, rfl, hv⟩ | ⟨rfl, hr⟩ <;> obtain ⟨rest, hi⟩ := hfirst nofun
    · exact .inl ⟨v, rest, hi, hv⟩
    · exact .inr ⟨rest, hi, hr⟩

end Sys2Proof.Machine
end

section
/-! PROOFS. The memory family (20_memory.md): which accesses are performed, that a read has no side effect, what reads
zero and ignores writes, and how the buffer windows store and pack byte lanes. -/

namespace Sys2Proof.Machine

/-! ### Admission -/

/-- The step on a waiting host access is that access. -/
theorem step_access {s : State} {a : Access} {rest : List Event} (h : s.inbox = .access a :: rest) :
    step s = hostAccess a { s with inbox := rest } := step_of_event h

/-- With RESET released, an access that is not admitted gets a bus error (20_memory.md R53). -/
theorem hostAccess_of_not_admitted {s : State} {n : Nat} {off : Offset} (v : Word) (hr : s.resetAsserted = false)
    (ha : ¬ admitted n off = true) :
    hostAccess (.read n off) s = .refused .busError ∧ hostAccess (.write n off v) s = .refused .busError := by
  simp [hostAccess, hr, ha]

/-- A write leaves the inbox and the last answer alone. -/
theorem hostWrite_keeps_records (s : State) (n : Nat) (off : Offset) (v : Word) :
    (s.hostWrite n off v).inbox = s.inbox ∧ (s.hostWrite n off v).readData = s.readData := by
  rcases hostWrite_cases s n off v with ⟨r, -, h⟩ | h | ⟨-, h⟩ | ⟨-, m, h, -⟩ <;> rw [h]
  · rcases writeReg_cases s r v with h | ⟨-, h⟩ | ⟨-, h⟩ | ⟨-, h⟩ | ⟨-, -, h⟩ | ⟨-, _, _, _, h⟩ <;> rw [h] <;>
      exact ⟨rfl, rfl⟩
  all_goals exact ⟨rfl, rfl⟩

/-- Settles O43: the three classes are exactly what `admitted` leaves out. -/
theorem unadmittedAccessIsRefused : Obligations.UnadmittedAccessIsRefused := by
  unfold Obligations.UnadmittedAccessIsRefused
  intro s n off v rest hr hn
  have ha : ¬ admitted n off = true := by rw [admitted_iff]; omega
  obtain ⟨hread, hwrite⟩ := hostAccess_of_not_admitted (s := { s with inbox := rest }) v hr ha
  exact ⟨fun hi => (step_access hi).trans hread, fun hi => (step_access hi).trans hwrite⟩

/-- Settles O44: the access is admitted; a read changes only the answer and the count, a write neither record. -/
theorem admittedAccessIsPerformed : Obligations.AdmittedAccessIsPerformed := by
  unfold Obligations.AdmittedAccessIsPerformed
  intro s n off v rest hr hn
  have ha : admitted n off = true := (admitted_iff n off).mpr hn
  constructor <;> intro hi
  · obtain ⟨w, d, hread, -⟩ := hostRead_frame { s with inbox := rest } n off
    refine ⟨_, (step_access hi).trans (hostAccess_read hr ha), ?_⟩
    rw [hread]
    exact ⟨rfl, rfl⟩
  · exact ⟨_, (step_access hi).trans (hostAccess_write v hr ha), hostWrite_keeps_records _ n off v⟩

/-! ### A read has no side effect -/

/-- What a read answers and how many free bytes it draws is fixed but for the count it starts from: it reads neither
the last answer nor, except to name the free bytes, the count. -/
def ReadsUniformly {α : Type} (s : State) (read : State → α × State) : Prop :=
  ∃ (c : Nat) (f : Nat → α), ∀ w d,
    read { s with readData := w, drawn := d } = (f d, { s with readData := w, drawn := d + c })

theorem readByte_readsUniformly (s : State) (off : Offset) : ReadsUniformly s (·.readByte off) := by
  rcases readByte_uniform s off with ⟨b, h⟩ | h
  · exact ⟨0, fun _ => b, h⟩
  · exact ⟨1, Config.anyByte, h⟩

theorem readLanes_readsUniformly (s : State) (off : Offset) : ReadsUniformly s (·.readLanes off) := by
  obtain ⟨c0, f0, h0⟩ := readByte_readsUniformly s off
  obtain ⟨c1, f1, h1⟩ := readByte_readsUniformly s (off + 1)
  obtain ⟨c2, f2, h2⟩ := readByte_readsUniformly s (off + 2)
  obtain ⟨c3, f3, h3⟩ := readByte_readsUniformly s (off + 3)
  refine ⟨c0 + c1 + c2 + c3,
    fun d => wordOfLanes (f0 d) (f1 (d + c0)) (f2 (d + c0 + c1)) (f3 (d + c0 + c1 + c2)), fun w d => ?_⟩
  simp only [State.readLanes, h0, h1, h2, h3, Nat.add_assoc]

/-- A register's value does not depend on the model's own records. -/
theorem readRegister_of_unwatched (s : State) (off : Offset) (w : Option Word) (d : Nat) :
    ({ s with readData := w, drawn := d } : State).readRegister off = s.readRegister off := rfl

/-- A host read, whatever was answered before and however many free bytes were drawn. -/
theorem hostRead_uniform (s : State) (n : Nat) (off : Offset) :
    ∃ (c : Nat) (f : Nat → Word), ∀ w d,
      ({ s with readData := w, drawn := d } : State).hostRead n off =
        { s with readData := some (f d), drawn := d + c } := by
  unfold State.hostRead
  split
  · exact ⟨0, fun _ => s.readRegister off, fun w d => by rw [readRegister_of_unwatched]; rfl⟩
  · split
    · obtain ⟨c, f, h⟩ := readLanes_readsUniformly s off
      exact ⟨c, f, fun w d => by simp only [h]⟩
    · obtain ⟨c, f, h⟩ := readByte_readsUniformly s off
      exact ⟨c, fun d => (f d).setWidth 32, fun w d => by simp only [h]⟩

/-- Settles O45: a read that drew none answers the same from the state it left. -/
theorem readsHaveNoSideEffect : Obligations.ReadsHaveNoSideEffect := by
  unfold Obligations.ReadsHaveNoSideEffect
  intro s t n off h
  obtain ⟨hr, ⟨_, _, ⟨rfl, rfl⟩, ha, rfl⟩ | ⟨_, _, _, hw, -⟩⟩ := hostAccess_next h
  · obtain ⟨c, f, hread⟩ := hostRead_uniform s n off
    have hs : s.hostRead n off = { s with readData := some (f s.drawn), drawn := s.drawn + c } :=
      hread s.readData s.drawn
    rw [hs]
    refine ⟨rfl, Nat.le_add_right _ _, fun hd => ?_⟩
    have hc : c = 0 := by simpa using hd
    subst hc
    exact (hostAccess_read (s := { s with readData := some (f s.drawn), drawn := s.drawn + 0 }) hr ha).trans
      (congrArg _ (hread _ _))
  · cases hw

/-! ### Accesses outside the register region -/

/-- With RESET released, a byte read outside the register region that draws none answers its byte, zero-extended. -/
theorem hostAccess_readByte {s : State} {off : Offset} {b : Byte} (hr : s.resetAsserted = false)
    (ho : 0x400 ≤ off.toNat) (h : s.readByte off = (b, s)) :
    hostAccess (.read 1 off) s = .next { s with readData := some (b.setWidth 32) } := by
  rw [hostAccess_read hr ((admitted_iff _ _).mpr (.inr ⟨rfl, ho⟩)), State.hostRead, if_neg (Nat.not_lt.mpr ho),
    if_neg (by decide)]
  simp only [h]

/-- With RESET released, an aligned word read outside the register region whose bytes draw none packs them. -/
theorem hostAccess_readWord {s : State} {off : Offset} (b : Nat → Byte) (hr : s.resetAsserted = false)
    (ho : 0x400 ≤ off.toNat) (ha : off.toNat % 4 = 0)
    (h : ∀ j < 4, ∀ o : Offset, o.toNat = off.toNat + j → s.readByte o = (b j, s)) :
    hostAccess (.read 4 off) s = .next { s with readData := some (wordOfLanes (b 0) (b 1) (b 2) (b 3)) } := by
  have h0 : s.readByte off = (b 0, s) := h 0 (by decide) _ rfl
  have h1 : s.readByte (off + 1) = (b 1, s) := h 1 (by decide) _ (toNat_add_lane ha (by decide))
  have h2 : s.readByte (off + 2) = (b 2, s) := h 2 (by decide) _ (toNat_add_lane ha (by decide))
  have h3 : s.readByte (off + 3) = (b 3, s) := h 3 (by decide) _ (toNat_add_lane ha (by decide))
  rw [hostAccess_read hr ((admitted_iff _ _).mpr (.inl ⟨rfl, ha⟩)), State.hostRead, if_neg (Nat.not_lt.mpr ho),
    if_pos rfl]
  simp only [State.readLanes, h0, h1, h2, h3]

/-- With RESET released, a byte write outside the register region is a write of bits 7:0. -/
theorem hostAccess_writeByte {s : State} {off : Offset} (v : Word) (hr : s.resetAsserted = false)
    (ho : 0x400 ≤ off.toNat) : hostAccess (.write 1 off v) s = .next (s.writeByte off (laneByte v 0)) := by
  rw [hostAccess_write v hr ((admitted_iff _ _).mpr (.inr ⟨rfl, ho⟩)), State.hostWrite, if_neg (Nat.not_lt.mpr ho),
    if_neg (by decide)]

/-- With RESET released, an aligned word write outside the register region is a write of its lanes. -/
theorem hostAccess_writeWord {s : State} {off : Offset} (v : Word) (hr : s.resetAsserted = false)
    (ho : 0x400 ≤ off.toNat) (ha : off.toNat % 4 = 0) :
    hostAccess (.write 4 off v) s = .next (s.writeLanes off v) := by
  rw [hostAccess_write v hr ((admitted_iff _ _).mpr (.inl ⟨rfl, ha⟩)), State.hostWrite, if_neg (Nat.not_lt.mpr ho),
    if_pos rfl]

/-! ### What reads zero and ignores writes -/

/-- An offset outside the register region that no buffer byte stands at (20_memory.md R51, R57). -/
def NoByteAt (c : Config) (k : Nat) : Prop :=
  (0x400 + c.bufCap ≤ k ∧ k < 0x800) ∨ (0x800 + c.bufCap ≤ k ∧ k < 0xC00) ∨ 0xC00 ≤ k

theorem readByte_of_noByteAt {s : State} {off : Offset} (h : NoByteAt s.cfg off.toNat) : s.readByte off = (0, s) := by
  rcases h with ⟨hl, hu⟩ | ⟨hl, hu⟩ | hl
  · rw [readByte_inWindow s (i := off.toNat - 0x400) (by omega) (by omega), if_neg (by omega)]
  · exact readByte_outWindow_beyond (i := off.toNat - 0x800) (by omega) (by omega) (by omega)
  · simp only [State.readByte, regionOf_reserved hl]

/-- A byte write past the IN bytes, in the IN window or after it, changes nothing. -/
theorem writeByte_past_in {s : State} {off : Offset} (b : Byte)
    (h : 0x400 + s.cfg.bufCap ≤ off.toNat ∨ 0x800 ≤ off.toNat) : s.writeByte off b = s := by
  unfold State.writeByte
  split
  · next i hi =>
    obtain ⟨ho, hlt⟩ := regionOf_eq_inWindow hi
    exact if_neg (by omega)
  · rfl

/-- A word write whose lanes all lie past the IN bytes changes nothing. -/
theorem writeLanes_past_in {s : State} {off : Offset} (v : Word) (ha : off.toNat % 4 = 0)
    (h : 0x400 + s.cfg.bufCap ≤ off.toNat ∨ 0x800 ≤ off.toNat) : s.writeLanes off v = s := by
  have h1 : (off + 1).toNat = off.toNat + 1 := toNat_add_lane ha (by decide)
  have h2 : (off + 2).toNat = off.toNat + 2 := toNat_add_lane ha (by decide)
  have h3 : (off + 3).toNat = off.toNat + 3 := toNat_add_lane ha (by decide)
  rw [State.writeLanes, writeByte_past_in _ h, writeByte_past_in (off := off + 1) _ (by omega),
    writeByte_past_in (off := off + 2) _ (by omega), writeByte_past_in (off := off + 3) _ (by omega)]

/-- An aligned word access to a reserved offset of the register region. -/
theorem hostAccess_reservedRegister {s : State} {off : Offset} (v : Word) (hr : s.resetAsserted = false)
    (hl : 0x02C ≤ off.toNat) (hu : off.toNat < 0x400) (ha : off.toNat % 4 = 0) :
    hostAccess (.read 4 off) s = .next { s with readData := some 0 } ∧ hostAccess (.write 4 off v) s = .next s := by
  have had : admitted 4 off = true := (admitted_iff _ _).mpr (.inl ⟨rfl, ha⟩)
  constructor
  · rw [hostAccess_read hr had, State.hostRead, if_pos hu, State.readRegister, regAt_eq_none hl]
  · rw [hostAccess_write v hr had, State.hostWrite, if_pos hu, regAt_eq_none hl]

/-- Settles O47: reserved registers, offsets without a buffer byte, the read-only registers and the OUT window. -/
theorem reservedSpaceReadsZeroIgnoresWrites : Obligations.ReservedSpaceReadsZeroIgnoresWrites := by
  unfold Obligations.ReservedSpaceReadsZeroIgnoresWrites
  intro s off v hr
  have hword : 0x400 + s.cfg.bufCap ≤ off.toNat ∨ 0x800 ≤ off.toNat → off.toNat % 4 = 0 →
      hostAccess (.write 4 off v) s = .next s := fun h ha => by
    rw [hostAccess_writeWord v hr (by omega) ha, writeLanes_past_in v ha h]
  have hbyte : 0x400 + s.cfg.bufCap ≤ off.toNat ∨ 0x800 ≤ off.toNat →
      hostAccess (.write 1 off v) s = .next s := fun h => by
    rw [hostAccess_writeByte v hr (by omega), writeByte_past_in _ h]
  refine ⟨fun h => ⟨fun ha => ?_, fun ho => ?_⟩, fun r hm => ?_, fun hl _ => ⟨hword (.inr hl), hbyte (.inr hl)⟩⟩
  · rcases h with ⟨hl, hu⟩ | h
    · exact hostAccess_reservedRegister v hr hl hu ha
    · exact ⟨hostAccess_readWord (fun _ => 0) hr (by omega) ha fun j hj o ho =>
        readByte_of_noByteAt (by unfold NoByteAt; omega), hword (by omega) ha⟩
  · have hno : NoByteAt s.cfg off.toNat := by unfold NoByteAt; omega
    exact ⟨hostAccess_readByte hr ho (readByte_of_noByteAt hno), hbyte (by omega)⟩
  · rw [hostAccess_write_regOffset hr]
    simp only [List.mem_cons, List.not_mem_nil, or_false] at hm
    rcases hm with rfl | rfl | rfl | rfl | rfl <;> rfl

/-! ### Byte lanes of the buffer windows -/

/-- `t` is `s` with the first `n` bytes of the word `v` stored from IN offset `i` on, those below BUF_CAP. -/
def StoresLanes (s : State) (i : Nat) (v : Word) (n : Nat) (t : State) : Prop :=
  ∃ m : Memory, t = { s with inBuf := m } ∧ ∀ k, m.read k =
    if i ≤ k ∧ k < i + n ∧ k < s.cfg.bufCap then some (laneByte v (k - i)) else s.inBuf.read k

theorem storesLanes_zero (s : State) (i : Nat) (v : Word) : StoresLanes s i v 0 s :=
  ⟨s.inBuf, rfl, fun _ => (if_neg (by omega)).symm⟩

/-- The write of the next byte, while IDLE, stores the next lane. -/
theorem StoresLanes.writeByte {s t : State} {i n : Nat} {v : Word} (h : StoresLanes s i v n t) (hp : s.phase = .idle)
    {off : Offset} (ho : off.toNat = 0x400 + (i + n)) (hi : i + n < 0x400) :
    StoresLanes s i v (n + 1) (t.writeByte off (laneByte v n)) := by
  obtain ⟨m, rfl, hm⟩ := h
  by_cases hc : i + n < s.cfg.bufCap
  · refine ⟨m.write (i + n) (laneByte v n), ?_, fun k => ?_⟩
    · simp [State.writeByte, regionOf_inWindow ho hi, hc, State.busy, hp]
    · rw [Memory.read_write, hm]
      by_cases hk : k = i + n
      · rw [if_pos hk, if_pos (by omega), show k - i = n by omega]
      · simp only [if_neg hk, show k < i + (n + 1) ↔ k < i + n by omega]
  · refine ⟨m, writeByte_past_in (s := { s with inBuf := m }) _ (.inl (by dsimp only; omega)), fun k => ?_⟩
    rw [hm]
    congr 1
    simp only [eq_iff_iff]
    omega

/-- An aligned word write to the IN window while IDLE stores its four lanes. -/
theorem storesLanes_writeLanes {s : State} {off : Offset} {i : Nat} (v : Word) (hp : s.phase = .idle)
    (ho : off.toNat = 0x400 + i) (hi : i < 0x400) (ha : i % 4 = 0) : StoresLanes s i v 4 (s.writeLanes off v) := by
  have hoff : off.toNat % 4 = 0 := by omega
  have hlane : ∀ j < 4, (off + BitVec.ofNat 12 j).toNat = 0x400 + (i + j) := fun j hj => by
    rw [toNat_add_lane hoff hj]; omega
  exact ((((storesLanes_zero s i v).writeByte hp ho hi).writeByte hp (hlane 1 (by decide)) (by omega)).writeByte hp
    (hlane 2 (by decide)) (by omega)).writeByte hp (hlane 3 (by decide)) (by omega)

/-- Settles O50: a word write stores four lanes, a byte write the first. -/
theorem inWindowWriteStoresLanes : Obligations.InWindowWriteStoresLanes := by
  unfold Obligations.InWindowWriteStoresLanes
  intro s off v i hr hp ho hi
  constructor
  · intro ha
    obtain ⟨m, ht, hm⟩ := storesLanes_writeLanes v hp ho hi ha
    exact ⟨m, by rw [hostAccess_writeWord v hr (by omega) (by omega), ht], hm⟩
  · obtain ⟨m, ht, hm⟩ := (storesLanes_zero s i v).writeByte hp ho hi
    refine ⟨m, by rw [hostAccess_writeByte v hr (by omega), ht], fun k => ?_⟩
    rw [hm]
    by_cases hk : k = i
    · subst hk
      simp [laneByte]
    · rw [if_neg (by omega), if_neg (by omega)]

/-- A word's value from its four lanes (20_memory.md R54). -/
theorem toNat_wordOfLanes (b0 b1 b2 b3 : Byte) :
    (wordOfLanes b0 b1 b2 b3).toNat =
      b0.toNat + 2 ^ 8 * b1.toNat + 2 ^ 16 * b2.toNat + 2 ^ 24 * b3.toNat := by
  unfold wordOfLanes
  rw [BitVec.toNat_append, ← Nat.shiftLeft_add_eq_or_of_lt b0.isLt, BitVec.toNat_append,
    ← Nat.shiftLeft_add_eq_or_of_lt b1.isLt, BitVec.toNat_append, ← Nat.shiftLeft_add_eq_or_of_lt b2.isLt]
  simp only [Nat.shiftLeft_eq]
  omega

/-- A buffer byte with a defined value reads as that value, in either window. -/
theorem readByte_of_defined {s : State} {off : Offset} {i : Nat} {m : Memory} {b : Byte}
    (hm : (off.toNat = 0x400 + i ∧ m = s.inBuf) ∨ (off.toNat = 0x800 + i ∧ m = s.outBuf)) (hi : i < 0x400)
    (hc : i < s.cfg.bufCap) (hb : m.read i = some b) : s.readByte off = (b, s) := by
  rcases hm with ⟨ho, rfl⟩ | ⟨ho, rfl⟩
  · rw [readByte_inWindow s ho hi, if_pos hc, State.inByte, hb, Option.getD_some]
  · exact readByte_outWindow_defined ho hi hc hb

/-- Settles O51: the lanes of a read are the bytes of its window, defined in either window, or any in IN. -/
theorem bufferReadsPackLanes : Obligations.BufferReadsPackLanes := by
  unfold Obligations.BufferReadsPackLanes
  intro s off i hr hi
  constructor
  · intro b0 b1 b2 b3 m hm hb0
    refine ⟨fun hc => hostAccess_readByte hr (by omega) (readByte_of_defined hm hi hc hb0), ?_⟩
    intro ha hc hb1 hb2 hb3
    refine ⟨wordOfLanes b0 b1 b2 b3, ?_, toNat_wordOfLanes b0 b1 b2 b3⟩
    have hdef : ∀ j < 4, m.read (i + j) = some ([b0, b1, b2, b3].getD j 0) := by
      intro j hj
      match j with
      | 0 => exact hb0
      | 1 => exact hb1
      | 2 => exact hb2
      | 3 => exact hb3
    exact hostAccess_readWord ([b0, b1, b2, b3].getD · 0) hr (by omega) (by omega) fun j hj o ho =>
      readByte_of_defined (hm.imp (.imp_left fun h => by omega) (.imp_left fun h => by omega)) (by omega) (by omega)
        (hdef j hj)
  · intro b hb ho
    have hbyte : ∀ (j : Nat) (o : Offset), i + j < 0x400 → o.toNat = off.toNat + j →
        s.readByte o = (b (i + j), s) := fun j o hj hoj => by
      rw [readByte_inWindow s (i := i + j) (by omega) hj, hb]
      rfl
    exact ⟨hostAccess_readByte hr (by omega) (hbyte 0 off hi rfl), fun ha =>
      hostAccess_readWord (fun j => b (i + j)) hr (by omega) (by omega) fun j hj o => hbyte j o (by omega)⟩

end Sys2Proof.Machine
end

section
/-! PROOFS. The encoding family (30_encoding.md): words and fields determine each other, the decoder and the encoder are
inverse, a word decodes exactly when it is legal, masks and matches select commands, and ignored operands. -/

namespace Sys2Proof

/-! ### Words and their fields -/

/-- Where each bit of a word comes from (30_encoding.md R70). -/
theorem getLsbD_pack (f : CmdFields) (k : Nat) :
    (pack f).getLsbD k =
      if k < 6 then f.op.getLsbD k
      else if k < 8 then f.rsvLow.getLsbD (k - 6)
      else if k = 8 then f.alph
      else if k = 9 then f.tven
      else f.rsvHigh.getLsbD (k - 10) := by
  have happ : (pack f).getLsbD k = BitVec.getLsbD (w := 22 + 1 + 1 + 2 + 6)
      (f.rsvHigh ++ BitVec.ofBool f.tven ++ BitVec.ofBool f.alph ++ f.rsvLow ++ f.op) k := rfl
  simp only [happ, BitVec.getLsbD_append, BitVec.getLsbD_ofBool]
  grind

@[simp] theorem unpack_pack (f : CmdFields) : unpack (pack f) = f := by
  have hop : (pack f).extractLsb' 0 6 = f.op :=
    BitVec.eq_of_getLsbD_eq fun k hk => by simp [getLsbD_pack, hk]
  have hlow : (pack f).extractLsb' 6 2 = f.rsvLow :=
    BitVec.eq_of_getLsbD_eq fun k hk => by simp [getLsbD_pack, hk, show 6 + k < 8 by omega]
  have hhigh : (pack f).extractLsb' 10 22 = f.rsvHigh :=
    BitVec.eq_of_getLsbD_eq fun k hk => by
      simp [getLsbD_pack, hk, show ¬ 10 + k < 6 by omega, show ¬ 10 + k < 8 by omega, show 10 + k ≠ 8 by omega,
        show 10 + k ≠ 9 by omega]
  simp only [unpack, hop, hlow, hhigh, getLsbD_pack]
  rfl

@[simp] theorem pack_unpack (w : Word) : pack (unpack w) = w := by
  refine BitVec.eq_of_getLsbD_eq fun k hk => ?_
  simp only [getLsbD_pack, unpack, BitVec.getLsbD_extractLsb']
  grind

theorem unpack_eq_iff {w : Word} {f : CmdFields} : unpack w = f ↔ w = pack f :=
  ⟨fun h => h ▸ (pack_unpack w).symm, fun h => h ▸ unpack_pack f⟩

/-! ### The decoder, arm by arm -/

section
variable {f : CmdFields} {j : Instr}

theorem decodePlain_eq_ok {i : Instr} : decodePlain i f = .ok j ↔ f.alph = false ∧ f.tven = false ∧ j = i := by
  unfold decodePlain
  cases f.alph <;> cases f.tven <;> simp [eq_comm]

theorem decodePerAlph_eq_ok {c32 b58 : Instr} :
    decodePerAlph c32 b58 f = .ok j ↔ f.tven = false ∧ j = if f.alph then b58 else c32 := by
  unfold decodePerAlph
  cases f.tven <;> simp [eq_comm (a := j)]

theorem decodeXconv_eq_ok {i : Bool → Instr} : decodeXconv i f = .ok j ↔ f.alph = false ∧ j = i f.tven := by
  unfold decodeXconv
  cases f.alph <;> simp [eq_comm]

end

theorem decodeFields_fieldsOf (i : Instr) : decodeFields (fieldsOf i) = .ok i := by cases i <;> rfl

/-- Only a command's own fields decode to it: each arm fixes OP, and its kind of command fixes ALPH and TVEN. -/
theorem eq_fieldsOf_of_decodeFields {f : CmdFields} {i : Instr} (h : decodeFields f = .ok i) : f = fieldsOf i := by
  obtain ⟨op, low, alph, tven, high⟩ := f
  unfold decodeFields at h
  split at h
  · cases h
  · next hr =>
    obtain ⟨rfl, rfl⟩ : high = 0 ∧ low = 0 := by simpa using hr
    simp only at h
    split at h
    case h_15 => cases h
    all_goals
      rename_i hop
      obtain rfl := (BitVec.toNat_eq_nat.mp hop).2
    case h_1 | h_2 | h_5 | h_6 | h_11 | h_12 =>
      obtain ⟨rfl, rfl, rfl⟩ := decodePlain_eq_ok.mp h
      rfl
    case h_3 | h_4 | h_7 | h_8 | h_9 | h_10 =>
      obtain ⟨rfl, rfl⟩ := decodePerAlph_eq_ok.mp h
      cases alph <;> rfl
    case h_13 | h_14 =>
      obtain ⟨rfl, rfl⟩ := decodeXconv_eq_ok.mp h
      rfl

theorem decode_eq_ok_iff {w : Word} {i : Instr} : decode w = .ok i ↔ w = encode i := by
  rw [encode, ← unpack_eq_iff]
  exact ⟨eq_fieldsOf_of_decodeFields, fun h => (congrArg decodeFields h).trans (decodeFields_fieldsOf i)⟩

/-- Settles O1: a word and its fields determine each other, and so do a command and its fields. -/
theorem decodeInvertsEncode : Obligations.DecodeInvertsEncode := by
  unfold Obligations.DecodeInvertsEncode
  exact fun w i => decode_eq_ok_iff

/-- Settles O4: each word is the word of its command. -/
theorem sampleWordsDecode : Obligations.SampleWordsDecode := by
  unfold Obligations.SampleWordsDecode
  simp only [decode_eq_ok_iff]
  decide

/-! ### Masks -/

/-- Words are masked field by field. -/
theorem pack_and_pack (f m : CmdFields) :
    pack f &&& pack m =
      pack ⟨f.op &&& m.op, f.rsvLow &&& m.rsvLow, f.alph && m.alph, f.tven && m.tven, f.rsvHigh &&& m.rsvHigh⟩ := by
  refine BitVec.eq_of_getLsbD_eq fun k _ => ?_
  simp only [BitVec.getLsbD_and, getLsbD_pack]
  split_ifs <;> rfl

theorem and_pack_eq_pack_iff {w : Word} {m p : CmdFields} :
    w &&& pack m = pack p ↔
      (unpack w).op &&& m.op = p.op ∧ (unpack w).rsvLow &&& m.rsvLow = p.rsvLow ∧
      ((unpack w).alph && m.alph) = p.alph ∧ ((unpack w).tven && m.tven) = p.tven ∧
      (unpack w).rsvHigh &&& m.rsvHigh = p.rsvHigh := by
  conv_lhs => rw [← pack_unpack w, pack_and_pack, ← unpack_eq_iff, unpack_pack]
  cases p
  rw [CmdFields.mk.injEq]

/-- The mask of R77 clears every bit but the reserved ones. -/
theorem and_reservedMask_eq_zero_iff (w : Word) :
    w &&& 0xFFFFFCC0 = 0 ↔ (unpack w).rsvHigh = 0 ∧ (unpack w).rsvLow = 0 := by
  have hm : (0xFFFFFCC0 : Word) = pack ⟨0, BitVec.allOnes 2, false, false, BitVec.allOnes 22⟩ := by decide
  have hz : (0 : Word) = pack ⟨0, 0, false, false, 0⟩ := by decide
  rw [hm, hz, and_pack_eq_pack_iff]
  simp only [BitVec.and_allOnes]
  simp [and_comm]

/-- The mask of the XCONV rows clears TVEN alone. -/
theorem and_xconvMask_eq_iff (w : Word) (op : BitVec 6) :
    w &&& 0xFFFFFDFF = pack ⟨op, 0, false, false, 0⟩ ↔ ∃ tven, w = pack ⟨op, 0, false, tven, 0⟩ := by
  have hm : (0xFFFFFDFF : Word) = pack ⟨BitVec.allOnes 6, BitVec.allOnes 2, true, false, BitVec.allOnes 22⟩ := by
    decide
  rw [hm, and_pack_eq_pack_iff]
  simp only [BitVec.and_allOnes, ← unpack_eq_iff]
  cases unpack w
  simp

/-! ### Legal words -/

theorem CmdFields.wf_iff {f : CmdFields} :
    f.wf = true ↔
      f.op.toNat ∈ [0x01, 0x02, 0x03, 0x04, 0x05, 0x06, 0x08, 0x09, 0x0A, 0x0B, 0x0C, 0x0D, 0x10, 0x11] ∧
      (f.rsvHigh = 0 ∧ f.rsvLow = 0) ∧
      (f.alph = false ∨ f.op.toNat ∈ [0x03, 0x04, 0x08, 0x09, 0x0A, 0x0B]) ∧
      (f.tven = false ∨ f.op.toNat ∈ [0x10, 0x11]) := by
  simp only [CmdFields.wf, CmdFields.opAssigned, CmdFields.reservedClear, CmdFields.alphAllowed, CmdFields.tvenAllowed,
    Bool.and_eq_true, Bool.or_eq_true, Bool.not_eq_true', decide_eq_true_eq, beq_iff_eq, and_assoc]

theorem wf_fieldsOf (i : Instr) : (fieldsOf i).wf = true := by
  cases i with
  | xconvC32ToB58 tven | xconvB58ToC32 tven => cases tven <;> decide
  | _ => decide

/-- Well-formed fields decode: OP picks the arm, and the arm asks no more of ALPH and TVEN than R72 and R73 do. -/
theorem exists_decodeFields_of_wf {f : CmdFields} (h : f.wf = true) : ∃ i, decodeFields f = .ok i := by
  obtain ⟨hop, ⟨hhigh, hlow⟩, ha, ht⟩ := CmdFields.wf_iff.mp h
  have hr : ¬ (f.rsvHigh ≠ 0 ∨ f.rsvLow ≠ 0) := by simp [hhigh, hlow]
  unfold decodeFields
  rw [if_neg hr]
  split
  case h_15 => simp_all
  all_goals
    rename_i hk
    rw [hk] at ha ht
  case h_1 | h_2 | h_5 | h_6 | h_11 | h_12 =>
    exact ⟨_, decodePlain_eq_ok.mpr ⟨by simpa using ha, by simpa using ht, rfl⟩⟩
  case h_3 | h_4 | h_7 | h_8 | h_9 | h_10 => exact ⟨_, decodePerAlph_eq_ok.mpr ⟨by simpa using ht, rfl⟩⟩
  case h_13 | h_14 => exact ⟨_, decodeXconv_eq_ok.mpr ⟨by simpa using ha, rfl⟩⟩

theorem exists_decode_iff_wf (w : Word) : (∃ i, decode w = .ok i) ↔ (unpack w).wf = true :=
  ⟨fun ⟨i, h⟩ => eq_fieldsOf_of_decodeFields h ▸ wf_fieldsOf i, exists_decodeFields_of_wf⟩

/-- Settles O2: the conditions of `legal(w)` are those of its fields. -/
theorem decodesExactlyLegalWords : Obligations.DecodesExactlyLegalWords := by
  unfold Obligations.DecodesExactlyLegalWords
  intro w
  rw [and_reservedMask_eq_zero_iff, exists_decode_iff_wf]
  exact CmdFields.wf_iff

/-! ### Rows of the opcode map -/

/-- A row without a free bit selects the one word of its command. -/
theorem fixedRow_selects (w : Word) {p : Word} {i : Instr} (hp : p = encode i) :
    w &&& 0xFFFFFFFF = p ↔ ∃ j ∈ [i], decode w = .ok j := by
  have hm : (0xFFFFFFFF : Word) = BitVec.allOnes 32 := rfl
  rw [hm, BitVec.and_allOnes]
  simp [decode_eq_ok_iff, hp]

/-- An XCONV row selects the two words of its command. -/
theorem xconvRow_selects (w : Word) {p : Word} {op : BitVec 6} {i : Bool → Instr}
    (hi : ∀ tven, fieldsOf (i tven) = ⟨op, 0, false, tven, 0⟩) (hp : p = encode (i false)) :
    w &&& 0xFFFFFDFF = p ↔ ∃ j ∈ [i false, i true], decode w = .ok j := by
  rw [hp, encode, hi, and_xconvMask_eq_iff]
  simp [decode_eq_ok_iff, encode, hi]

/-- Settles O3: the eighteen rows without a free bit, then the two XCONV rows. -/
theorem opcodeRowsSelectCommands : Obligations.OpcodeRowsSelectCommands := by
  unfold Obligations.OpcodeRowsSelectCommands
  intro row hrow w
  simp only [opcodeTable, List.cons_append, List.nil_append, List.mem_cons, List.not_mem_nil, or_false] at hrow
  rcases hrow with rfl | rfl | rfl | rfl | rfl | rfl | rfl | rfl | rfl | rfl | rfl | rfl | rfl | rfl | rfl | rfl | rfl |
    rfl | rfl | rfl
  iterate 18 exact fixedRow_selects w (by decide)
  · exact xconvRow_selects w (fun _ => rfl) (by decide)
  · exact xconvRow_selects w (fun _ => rfl) (by decide)

end Sys2Proof

namespace Sys2Proof.Machine

/-! ### Ignored operands -/

/-- A computation whose row of R75 names no ARG_A does not read it; XCONV with TVEN = 0 takes the table's version. -/
theorem bodyOf_ignores_argA {i : Instr} (h : usesArgA i = false) (c : Config) (n : Snapshot) (x : Word) :
    bodyOf i c { n with argA := x } = bodyOf i c n := by
  cases i <;> cases h <;> rfl

theorem bodyOf_ignores_argB {i : Instr} (h : usesArgB i = false) (c : Config) (n : Snapshot) (x : Word) :
    bodyOf i c { n with argB := x } = bodyOf i c n := by
  cases i <;> cases h <;> rfl

/-- Two states in which the command's computation and whatever input it reads are the same give one result. -/
theorem sameResult_of_sameBody {i : Instr} {s s' : State} (hc : s.cfg = s'.cfg) (hn : s.snap.inLen = s'.snap.inLen)
    (hb : bodyOf i s.cfg s'.snap = bodyOf i s.cfg s.snap)
    (hm : readsInput i = true → ∀ k < s.snap.inLen.toNat, s.inBuf.read k = s'.inBuf.read k) :
    SameResult (exec i s) (exec i s') := by
  rcases exec_cases i s with ⟨hl, he⟩ | ⟨hl, hr, ⟨k, hk, hu⟩, he⟩ | ⟨t, hr, ht, he⟩ | ⟨hl, hr, he⟩ <;> rw [he]
  · rw [exec_of_input_too_long (hc ▸ hn ▸ hl)]
    simp
  · rw [exec_of_unwritten hr (hc ▸ hn ▸ hl) (hn ▸ hk) ((hm hr k hk).symm.trans hu)]
    simp
  · rw [exec_of_hasInput hr (ht.congr hc hn (hm hr)), ← hc, hb]
    exact sameResult_finish hc _
  · rw [exec_of_not_reading hr (hc ▸ hn ▸ hl), ← hc, hb]
    exact sameResult_finish hc _

/-- Settles O13: the computation is the same for any value of an ignored register, and SYMAT reads no input. -/
theorem ignoredOperandsDoNotMatter : Obligations.IgnoredOperandsDoNotMatter := by
  unfold Obligations.IgnoredOperandsDoNotMatter
  intro i s x m
  refine ⟨fun h => ?_, fun h => ?_, fun h => ?_⟩
  · exact sameResult_of_sameBody rfl rfl (bodyOf_ignores_argA h s.cfg s.snap x) fun _ _ _ => rfl
  · exact sameResult_of_sameBody rfl rfl (bodyOf_ignores_argB h s.cfg s.snap x) fun _ _ _ => rfl
  · exact sameResult_of_sameBody rfl rfl rfl fun hr => by simp [h] at hr

end Sys2Proof.Machine
end

section
/-! PROOFS. The radix family (40_radix.md): what the two conversions make of a list, their round trips, the number of
digits, and the completions of RADIX.TODIGITS and RADIX.TOBYTES. -/

namespace Sys2Proof.Machine

/-! ### What the conversions make of a list -/

theorem sameNumber_toDigits (bs : List Byte) {R : Nat} (hR : 2 ≤ R) : SameNumber 256 R (natsOf bs) (toDigits bs R) :=
  sameNumber_reradix _ hR

theorem sameNumber_toBytes (ds : List Nat) (R : Nat) : SameNumber R 256 ds (natsOf (toBytes ds R)) := by
  rw [natsOf_toBytes]
  exact sameNumber_reradix ds (by decide)

/-- Settles O33: either list stands for the same number as its conversion, which determines it. -/
theorem radixRoundTrip : Obligations.RadixRoundTrip := by
  unfold Obligations.RadixRoundTrip
  intro R hR _
  exact ⟨fun bs => toBytes_eq ((sameNumber_toDigits bs hR).symm (natsOf_lt bs)),
    fun ds hd => toDigits_eq hR ((sameNumber_toBytes ds R).symm hd)⟩

/-- Settles O34: leading zeros are part of what a conversion keeps. -/
theorem leadingZerosPreserved : Obligations.LeadingZerosPreserved := by
  unfold Obligations.LeadingZerosPreserved
  intro R hR _
  exact ⟨fun bs => (sameNumber_toDigits bs hR).zeros, fun ds _ => (sameNumber_toBytes ds R).zeros⟩

/-! ### The number of digits -/

theorem length_eq_lz_add_length_drop (xs : List Nat) : xs.length = lz xs + (xs.drop (lz xs)).length := by
  rw [List.length_drop, Nat.add_sub_cancel' (lz_le_length xs)]

/-- A list for 0 is leading zeros only. -/
theorem length_eq_lz_of_valueOf_eq_zero {R : Nat} {xs : List Nat} (hR : 0 < R) (h : valueOf R xs = 0) :
    xs.length = lz xs := by
  have hnil : xs.drop (lz xs) = [] := by
    by_contra hne
    exact valueOf_ne_zero hR hne (drop_lz_head_ne_zero xs) ((valueOf_drop_lz R xs).trans h)
  rw [length_eq_lz_add_length_drop xs, hnil, List.length_nil, Nat.add_zero]

/-- After the leading zeros, a list of `n + 1` digits stands for a number from R^n up to, but not including, R^(n+1). -/
theorem length_eq_log_of_valueOf_ne_zero {R : Nat} {xs : List Nat} (hx : ∀ x ∈ xs, x < R) (h : valueOf R xs ≠ 0) :
    xs.length = lz xs + Nat.log R (valueOf R xs) + 1 := by
  rw [length_eq_lz_add_length_drop xs, ← valueOf_drop_lz R xs, Nat.add_assoc]
  rw [← valueOf_drop_lz R xs] at h
  have hbelow : ∀ x ∈ xs.drop (lz xs), x < R := fun x hm => hx x (List.mem_of_mem_drop hm)
  have hhead := drop_lz_head_ne_zero xs
  cases hd : xs.drop (lz xs) with
  | nil => exact absurd (by rw [hd, valueOf]) h
  | cons y ys =>
    rw [hd] at hbelow hhead
    have hlow : R ^ ys.length ≤ valueOf R (y :: ys) := pow_le_valueOf ys (by simpa using hhead)
    have hhigh : valueOf R (y :: ys) < R ^ (ys.length + 1) := valueOf_lt_pow hbelow
    rw [Nat.log_eq_of_pow_le_of_lt_pow hlow hhigh, List.length_cons]

/-- Settles O35: the digits have the zeros and the number of the bytes, and these two give the length of either list. -/
theorem digitCount : Obligations.DigitCount := by
  unfold Obligations.DigitCount
  intro R bs hR
  obtain ⟨hz, hb, hv⟩ := sameNumber_toDigits bs hR
  rw [← hz, ← hv]
  refine ⟨length_eq_log_of_valueOf_ne_zero hb, fun h => ?_⟩
  calc (toDigits bs R).length = lz (toDigits bs R) := length_eq_lz_of_valueOf_eq_zero (by omega) h
    _ = lz (natsOf bs) := hz
    _ = (natsOf bs).length := (length_eq_lz_of_valueOf_eq_zero (by decide) (hv ▸ h)).symm
    _ = bs.length := length_natsOf bs

/-! ### The two commands -/

section
variable {c : Config} {n : Snapshot}

theorem radixToDigitsBody_of_bad_radix (bs : List Byte) (h : n.argA.toNat < 2 ∨ n.argA.toNat > 256) :
    radixToDigitsBody c n bs = .error .badArgument :=
  if_pos ((badRadix_iff _).mpr h)

theorem radixToDigitsBody_of_radix (bs : List Byte) (h2 : 2 ≤ n.argA.toNat) (h256 : n.argA.toNat ≤ 256) :
    radixToDigitsBody c n bs = .ok (bytesOf (toDigits bs n.argA.toNat), 0) :=
  if_neg fun h => by have := (badRadix_iff _).mp h; omega

theorem radixToBytesBody_of_bad_argument (ds : List Byte)
    (h : n.argA.toNat < 2 ∨ n.argA.toNat > 256 ∨ ∃ d ∈ ds, d.toNat ≥ n.argA.toNat) :
    radixToBytesBody c n ds = .error .badArgument := by
  unfold radixToBytesBody
  split
  · rfl
  · next hr =>
    rw [badRadix_iff] at hr
    exact if_pos (by simpa using (or_assoc.mpr h).resolve_left hr)

theorem radixToBytesBody_of_digits (ds : List Byte) (h2 : 2 ≤ n.argA.toNat) (h256 : n.argA.toNat ≤ 256)
    (hd : ∀ d ∈ ds, d.toNat < n.argA.toNat) : radixToBytesBody c n ds = .ok (toBytes (natsOf ds) n.argA.toNat, 0) := by
  unfold radixToBytesBody
  rw [if_neg fun h => by have := (badRadix_iff _).mp h; omega, if_neg (by simpa using hd)]

end

/-- Settles O15: the computation fails on its radix test, or gives the digits, which are only checked against BUF_CAP. -/
theorem radixToDigitsResult : Obligations.RadixToDigitsResult := by
  unfold Obligations.RadixToDigitsResult
  intro s bs ds hin
  rw [exec_of_hasInput rfl hin, bodyOf]
  refine ⟨fun hbad => ?_, fun h2 h256 hsame => ?_⟩
  · rw [radixToDigitsBody_of_bad_radix bs hbad, finish_error]
  · rw [radixToDigitsBody_of_radix bs h2 h256, toDigits_eq h2 hsame, finish_ok, length_bytesOf]

/-- Settles O16: the computation fails on its radix or digit test, or gives the bytes, no more of them than digits. -/
theorem radixToBytesResult : Obligations.RadixToBytesResult := by
  unfold Obligations.RadixToBytesResult
  intro s ds bs hin
  rw [exec_of_hasInput rfl hin, bodyOf]
  refine ⟨fun hbad => ?_, fun h2 h256 hd hsame => ?_⟩
  · rw [radixToBytesBody_of_bad_argument ds hbad, finish_error]
  · have hdigits : ∀ x ∈ natsOf ds, x < s.snap.argA.toNat := List.forall_mem_map.mpr hd
    have hlen : bs.length ≤ ds.length := by simpa using hsame.length_le hdigits h256 h2
    rw [radixToBytesBody_of_digits ds h2 h256 hd, toBytes_eq hsame, finish_ok, if_pos (hlen.trans hin.fits)]

end Sys2Proof.Machine
end

section
/-! PROOFS. The alphabet family (41_alphabet.md): the tables and their two lookups, what the ALPHA commands answer, and
which decoders see only the normalized text. -/

namespace Sys2Proof.Machine

/-! ### The tables and norm32 -/

/-- Settles O36: an index is below the radix and has the normalized byte as its symbol, and symbols are normalized. -/
theorem alphabetIsBijection : Obligations.AlphabetIsBijection := by
  unfold Obligations.AlphabetIsBijection
  constructor
  · intro alph i hi
    exact indexOf_eq_some.mpr ⟨hi, (normFor_symbolAt hi).symm⟩
  · intro c i h
    exact indexOf_eq_some (alph := .c32).mp h

/-- The homoglyph map of 41_alphabet.md R113 on byte values. -/
theorem toNat_norm32 (c : Byte) :
    (norm32 c).toNat =
      if c.toNat ∈ [0x49, 0x69, 0x4C, 0x6C] then 0x31
      else if c.toNat ∈ [0x4F, 0x6F] then 0x30
      else if 0x61 ≤ c.toNat ∧ c.toNat ≤ 0x7A then c.toNat - 0x20
      else c.toNat := by
  have hone : c = 0x49 ∨ c = 0x69 ∨ c = 0x4C ∨ c = 0x6C ↔ c.toNat ∈ [0x49, 0x69, 0x4C, 0x6C] := by
    simp [← BitVec.toNat_inj]
  have hzero : c = 0x4F ∨ c = 0x6F ↔ c.toNat ∈ [0x4F, 0x6F] := by simp [← BitVec.toNat_inj]
  have hlower : 0x61 ≤ c ∧ c ≤ 0x7A ↔ 0x61 ≤ c.toNat ∧ c.toNat ≤ 0x7A := by simp [BitVec.le_def]
  unfold norm32
  simp only [hone, hzero, hlower]
  split_ifs with h1 h0 hl
  · rfl
  · rfl
  · have hge : (0x20 : Byte) ≤ c := BitVec.le_def.mpr (Nat.le_trans (by decide) hl.1)
    exact BitVec.toNat_sub_of_le hge
  · rfl

/-! ### ALPHA.SYMAT -/

@[simp] theorem readsInput_symAtOf (alph : Alph) : readsInput (symAtOf alph) = false := by cases alph <;> rfl

@[simp] theorem bodyOf_symAtOf (alph : Alph) : bodyOf (symAtOf alph) = alphaSymAtBody alph := by cases alph <;> rfl

theorem alphaSymAtBody_of_lt {alph : Alph} {c : Config} {n : Snapshot} (bs : List Byte)
    (h : n.argA.toNat < radixOf alph) : alphaSymAtBody alph c n bs = .ok ([symbolAt alph n.argA.toNat], 0) :=
  if_neg (Nat.not_le.mpr h)

theorem alphaSymAtBody_of_ge {alph : Alph} {c : Config} {n : Snapshot} (bs : List Byte)
    (h : n.argA.toNat ≥ radixOf alph) : alphaSymAtBody alph c n bs = .error .badArgument :=
  if_pos h

/-- Settles O17: the tables by computation; SYMAT tests its index against the radix, and one symbol fits the buffer. -/
theorem symAtResult : Obligations.SymAtResult := by
  unfold Obligations.SymAtResult
  refine ⟨by decide, by decide, fun alph => ⟨(length_tableOf alph).symm, fun i => getElem?_tableOf, ?_⟩⟩
  intro s hcap hlen
  rw [exec_of_not_reading (readsInput_symAtOf alph) hlen, bodyOf_symAtOf]
  constructor
  · intro c hc
    obtain ⟨hlt, rfl⟩ := lt_of_getElem?_tableOf hc
    have hfits : 1 ≤ s.cfg.bufCap := by omega
    rw [alphaSymAtBody_of_lt [] hlt, finish_ok, List.length_singleton, if_pos hfits]
  · intro hge
    rw [alphaSymAtBody_of_ge [] hge, finish_error]

/-! ### ALPHA.INDEXOF -/

@[simp] theorem readsInput_indexOfOf (alph : Alph) : readsInput (indexOfOf alph) = true := by cases alph <;> rfl

@[simp] theorem bodyOf_indexOfOf (alph : Alph) : bodyOf (indexOfOf alph) = alphaIndexOfBody alph := by
  cases alph <;> rfl

section
variable {alph : Alph} {c : Config} {n : Snapshot}

theorem alphaIndexOfBody_of_length_ne_one {t : List Byte} (h : t.length ≠ 1) :
    alphaIndexOfBody alph c n t = .error .badArgument := by
  match t with
  | [] => rfl
  | [_] => exact absurd rfl h
  | _ :: _ :: _ => rfl

theorem alphaIndexOfBody_of_index {x : Byte} {v : Nat} (h : indexOf alph x = some v) :
    alphaIndexOfBody alph c n [x] = .ok ([], BitVec.ofNat 32 v) := by
  simp [alphaIndexOfBody, h]

theorem alphaIndexOfBody_of_no_index {x : Byte} (h : indexOf alph x = none) :
    alphaIndexOfBody alph c n [x] = .error .invalidSymbol := by
  simp [alphaIndexOfBody, h]

end

/-- Settles O18: the computation tests the length, then answers the lookup of the one byte; no OUT byte has to fit. -/
theorem indexOfResult : Obligations.IndexOfResult := by
  unfold Obligations.IndexOfResult
  intro alph s t hin
  rw [exec_of_hasInput (readsInput_indexOfOf alph) hin, bodyOf_indexOfOf]
  constructor
  · intro hlen
    rw [alphaIndexOfBody_of_length_ne_one hlen, finish_error]
  · rintro c rfl
    constructor
    · intro v hv
      have hindex : indexOf alph c = some v := indexOf_eq_some.mpr (lt_of_getElem?_tableOf hv)
      rw [alphaIndexOfBody_of_index hindex, finish_ok, List.length_nil, if_pos (Nat.zero_le _)]
    · intro hnot
      rw [alphaIndexOfBody_of_no_index (indexOf_eq_none.mpr hnot), finish_error]

/-! ### ALPHA.NORMALIZE -/

/-- Settles O19: the result is the text mapped by norm32, as long as the input, so it fits. -/
theorem normalizeResult : Obligations.NormalizeResult := by
  unfold Obligations.NormalizeResult
  intro s t hin
  have hlen : (t.map norm32).length = t.length := List.length_map ..
  refine ⟨t.map norm32, ?_, hlen, ?_⟩
  · rw [exec_of_hasInput rfl hin, bodyOf, alphaNormalizeBody, finish_ok, if_pos (hlen ▸ hin.fits)]
  · intro k c d hc hd
    rw [List.getElem?_map, hc] at hd
    cases hd
    exact toNat_norm32 c

/-! ### Texts that agree after normalization -/

/-- A command on two inputs for which its computation gives the same answer has one result. -/
theorem sameResult_of_sameAnswer {i : Instr} {s s' : State} {t t' : List Byte} (hr : readsInput i = true)
    (ht : HasInput s t) (ht' : HasInput s' t') (hc : s.cfg = s'.cfg) (ha : s.snap.argA = s'.snap.argA)
    (hb : s.snap.argB = s'.snap.argB) (h : bodyOf i s.cfg s.snap t = bodyOf i s.cfg s.snap t') :
    SameResult (exec i s) (exec i s') := by
  rw [exec_of_hasInput hr ht, exec_of_hasInput hr ht', ← hc, ← bodyOf_congr i s.cfg ha hb, h]
  exact sameResult_finish hc _

section
variable {t t' : List Byte} (h : t.map norm32 = t'.map norm32)
include h

theorem indexAll_eq_of_map_norm32_eq : indexAll .c32 t = indexAll .c32 t' := by
  rw [← indexAll_map_norm32 t, h, indexAll_map_norm32]

theorem plainDec_eq_of_map_norm32_eq (m : Nat) : plainDec .c32 t m = plainDec .c32 t' m := by
  rw [plainDec, plainDec, indexAll_eq_of_map_norm32_eq h]

theorem checkDecC32_eq_of_map_norm32_eq (c : Config) : checkDecC32 c t = checkDecC32 c t' := by
  rw [checkDecC32, checkDecC32, h]

/-- The first character is compared as it stands, and only the rest is normalized (90_conflicts.md C6). -/
theorem addrDec_eq_of_map_norm32_eq (hhead : t.head? = t'.head?) (c : Config) : addrDec c t = addrDec c t' := by
  match t, t', hhead with
  | [], [], _ => rfl
  | x :: rest, x' :: rest', hhead =>
    obtain rfl : x = x' := Option.some.inj hhead
    have hrest : rest.map norm32 = rest'.map norm32 := (List.cons.inj h).2
    rw [addrDec, addrDec, checkDecC32_eq_of_map_norm32_eq hrest]

end

/-- Settles O37: each of the four commands looks at its text only through a decoder that normalizes it. -/
theorem homoglyphsDecodeIdentically : Obligations.HomoglyphsDecodeIdentically := by
  unfold Obligations.HomoglyphsDecodeIdentically
  intro s s' t t' ht ht' hc ha hb h
  refine ⟨?_, ?_, fun hhead => ⟨?_, fun tven => ?_⟩⟩ <;> refine sameResult_of_sameAnswer rfl ht ht' hc ha hb ?_
  · simp only [bodyOf, plainDecodeBody, plainDec_eq_of_map_norm32_eq h]
  · simp only [bodyOf, checkDecodeC32Body, checkDecC32_eq_of_map_norm32_eq h]
  · simp only [bodyOf, addrDecodeBody, addrDec_eq_of_map_norm32_eq h hhead]
  · simp only [bodyOf, xconvC32ToB58Body, addrDec_eq_of_map_norm32_eq h hhead]

end Sys2Proof.Machine
end

section
/-! PROOFS. The plain codec family (42_plain_codec.md): hex texts and their case, what the two conversions make of a
text, and the completions of PLAIN.ENCODE and PLAIN.DECODE. -/

namespace Sys2Proof.Machine

/-! ### Texts of even length -/

theorem evenText_of_even {h : List Byte} (hl : h.length % 2 = 0) : evenText h = h := if_neg (by omega)

theorem evenText_of_odd {h : List Byte} (hl : h.length % 2 = 1) : evenText h = 0x30 :: h := if_pos hl

theorem evenText_evenText (h : List Byte) : evenText (evenText h) = evenText h := by
  obtain ⟨n, hn⟩ := evenText_length h
  exact evenText_of_even (by omega)

theorem mem_evenText_of_mem {h : List Byte} {c : Byte} (hc : c ∈ h) : c ∈ evenText h := by
  unfold evenText
  split
  · exact List.mem_cons_of_mem _ hc
  · exact hc

/-- The '0' before a text of odd length may be written or left out (42_plain_codec.md R130). -/
theorem hexParse_evenText (h : List Byte) : hexParse (evenText h) = hexParse h := by
  cases hp : hexParse h with
  | ok bs =>
    rw [hexParse_eq_ok, hexText_iff, evenText_evenText]
    exact hexText_iff.mp (hexParse_eq_ok.mp hp)
  | error k =>
    obtain ⟨rfl, c, hc, hnot⟩ := hexParse_eq_error.mp hp
    exact hexParse_eq_error.mpr ⟨rfl, c, mem_evenText_of_mem hc, hnot⟩

/-! ### Rendered hex -/

/-- The two digits of byte `k` stand at `2 * k` and `2 * k + 1` (42_plain_codec.md R131). -/
theorem getElem?_hexRender (bs : List Byte) (k : Nat) :
    (hexRender bs)[2 * k]? = bs[k]?.map (fun b => hexDigit (b.toNat / 16)) ∧
      (hexRender bs)[2 * k + 1]? = bs[k]?.map (fun b => hexDigit (b.toNat % 16)) := by
  induction bs generalizing k with
  | nil => simp [hexRender]
  | cons b bs ih =>
    cases k with
    | zero => simp [hexRender]
    | succ k => simpa [hexRender, Nat.mul_succ] using ih k

/-- The digit of a nibble is a digit 0-9 or a letter a-f. -/
theorem toNat_hexDigit {v : Nat} (h : v < 16) : (hexDigit v).toNat = if v < 10 then 0x30 + v else 0x57 + v := by
  unfold hexDigit
  split <;> exact byteOf_toNat (by omega)

theorem isHexDigit_hexDigit {v : Nat} (h : v < 16) : IsHexDigit (hexDigit v) v := by
  unfold IsHexDigit
  rw [toNat_hexDigit h]
  split <;> omega

theorem hexText_hexRender (bs : List Byte) : HexText (hexRender bs) bs := by
  have heven : evenText (hexRender bs) = hexRender bs := evenText_of_even (by simp)
  rw [hexText_iff, heven]
  refine ⟨length_hexRender bs, fun k b hb => ?_⟩
  obtain ⟨hhi, hlo⟩ := getElem?_hexRender bs k
  rw [hb] at hhi hlo
  exact ⟨⟨_, hhi, isHexDigit_hexDigit (by omega)⟩, ⟨_, hlo, isHexDigit_hexDigit (by omega)⟩⟩

/-- Every character of a rendered text is the digit of a nibble. -/
theorem exists_hexDigit_of_mem_hexRender {bs : List Byte} {c : Byte} (h : c ∈ hexRender bs) :
    ∃ v < 16, c = hexDigit v := by
  induction bs with
  | nil => cases h
  | cons b bs ih =>
    rw [hexRender, List.mem_cons, List.mem_cons] at h
    rcases h with rfl | rfl | h
    · exact ⟨_, by omega, rfl⟩
    · exact ⟨_, by omega, rfl⟩
    · exact ih h

/-- Settles O23: byte by byte, the two digits written are the digits of the two nibbles. -/
theorem hexRenderIsLowercaseHexText : Obligations.HexRenderIsLowercaseHexText := by
  unfold Obligations.HexRenderIsLowercaseHexText
  intro bs
  refine ⟨hexText_hexRender bs, length_hexRender bs, fun c hc => ?_⟩
  obtain ⟨v, hv, rfl⟩ := exists_hexDigit_of_mem_hexRender hc
  rw [toNat_hexDigit hv]
  split <;> omega

/-! ### The case of letters -/

/-- A byte's value with the uppercase letters up to `last` made lowercase. -/
def lowerUpTo (last : Nat) (c : Byte) : Nat :=
  if 0x41 ≤ c.toNat ∧ c.toNat ≤ last then c.toNat + 0x20 else c.toNat

section
variable {last : Nat} (hF : 0x46 ≤ last) (hZ : last ≤ 0x5A)
include hF hZ

/-- A character is the digit `v` exactly when its lowercase is the one `hexRender` writes for `v`: it does not matter
whether letters after F are made lowercase too. -/
theorem isHexDigit_iff_lowerUpTo {c : Byte} {v : Nat} :
    IsHexDigit c v ↔ v < 16 ∧ lowerUpTo last c = (hexDigit v).toNat := by
  unfold IsHexDigit lowerUpTo
  constructor
  · intro h
    have hv : v < 16 := by omega
    rw [toNat_hexDigit hv]
    split <;> split <;> omega
  · rintro ⟨hv, h⟩
    rw [toNat_hexDigit hv] at h
    split at h <;> split at h <;> omega

theorem hexval_eq_of_lowerUpTo_eq {c c' : Byte} (h : lowerUpTo last c = lowerUpTo last c') :
    hexval c = hexval c' := by
  apply Option.ext
  intro v
  rw [hexval_eq_some, hexval_eq_some, isHexDigit_iff_lowerUpTo hF hZ, isHexDigit_iff_lowerUpTo hF hZ, h]

/-- Texts that agree in lowercase parse alike. -/
theorem hexvals_eq_of_map_lowerUpTo_eq {h h' : List Byte} (heq : h.map (lowerUpTo last) = h'.map (lowerUpTo last)) :
    hexvals h = hexvals h' := by
  induction h generalizing h' with
  | nil =>
    obtain rfl : h' = [] := by simpa using heq.symm
    rfl
  | cons c h ih =>
    cases h' with
    | nil => cases heq
    | cons c' h' =>
      obtain ⟨hc, hrest⟩ := List.cons.inj heq
      rw [hexvals, hexvals, hexval_eq_of_lowerUpTo_eq hF hZ hc, ih hrest]

/-- Rendering the bytes of a text gives it back in lowercase and with an even number of digits. -/
theorem HexText.map_toNat_hexRender {h bs : List Byte} (ht : HexText h bs) :
    (hexRender bs).map BitVec.toNat = (evenText h).map (lowerUpTo last) := by
  obtain ⟨hlen, hdigits⟩ := hexText_iff.mp ht
  apply List.ext_getElem?
  intro j
  rw [List.getElem?_map, List.getElem?_map]
  obtain ⟨hhi, hlo⟩ := getElem?_hexRender bs (j / 2)
  cases hb : bs[j / 2]? with
  | none =>
    have hj : 2 * bs.length ≤ j := by have := List.getElem?_eq_none_iff.mp hb; omega
    rw [List.getElem?_eq_none (by simpa using hj), List.getElem?_eq_none (by omega)]
    rfl
  | some b =>
    obtain ⟨⟨c, hc, hcd⟩, ⟨d, hd, hdd⟩⟩ := hdigits _ b hb
    rw [hb] at hhi hlo
    rcases Nat.mod_two_eq_zero_or_one j with hj | hj
    · rw [show 2 * (j / 2) = j by omega] at hc hhi
      rw [hhi, hc]
      exact congrArg some ((isHexDigit_iff_lowerUpTo hF hZ).mp hcd).2.symm
    · rw [show 2 * (j / 2) + 1 = j by omega] at hd hlo
      rw [hlo, hd]
      exact congrArg some ((isHexDigit_iff_lowerUpTo hF hZ).mp hdd).2.symm

end

/-- PLAIN.ENCODE looks at its text only through `hexParse`. -/
theorem plainEncodeBody_eq_of_hexParse_eq {h h' : List Byte} (heq : hexParse h = hexParse h') (alph : Alph) (c : Config)
    (n : Snapshot) : plainEncodeBody alph c n h = plainEncodeBody alph c n h' := by
  rw [plainEncodeBody, plainEncodeBody, heq]

/-- Settles O38: texts with the same lowercase have the same values, and `hexParse` puts the '0' before an odd text. -/
theorem hexCaseAndParityDoNotMatter : Obligations.HexCaseAndParityDoNotMatter := by
  unfold Obligations.HexCaseAndParityDoNotMatter
  intro alph c n h h'
  constructor
  · intro heq
    have hvals : hexvals h = hexvals h' := hexvals_eq_of_map_lowerUpTo_eq (last := 0x5A) (by decide) (by decide) heq
    exact plainEncodeBody_eq_of_hexParse_eq (by rw [hexParse, hexParse, hvals]) alph c n
  · intro hodd
    have heven : hexParse (0x30 :: h) = hexParse h := by rw [← evenText_of_odd hodd, hexParse_evenText]
    exact plainEncodeBody_eq_of_hexParse_eq heven alph c n

/-! ### The two conversions -/

@[simp] theorem length_padFront (m : Nat) (x : Byte) (xs : List Byte) :
    (padFront m x xs).length = max xs.length m := by
  rw [padFront, List.length_append, List.length_replicate]
  omega

/-- A list that is long enough is not padded. -/
theorem padFront_of_le {m : Nat} {xs : List Byte} (x : Byte) (h : m ≤ xs.length) : padFront m x xs = xs := by
  rw [padFront, Nat.sub_eq_zero_of_le h]
  rfl

section
variable {alph : Alph}

/-- An encoding is the unpadded one, padded. -/
theorem plainEnc_eq_padFront (bs : List Byte) (m : Nat) :
    plainEnc alph bs m = padFront m (symbolAt alph 0) (plainEnc alph bs 0) := by
  simp [plainEnc, padFront]

/-- The encoding of bytes whose digits are known (42_plain_codec.md R132). -/
theorem plainEnc_of_sameNumber {bs : List Byte} {ds : List Nat} (m : Nat)
    (h : SameNumber 256 (radixOf alph) (natsOf bs) ds) :
    plainEnc alph bs m = padFront m (symbolAt alph 0) (ds.map (symbolAt alph)) := by
  rw [plainEnc_eq_padFront, plainEnc_zero h]

/-- The decoding of a text whose bytes are known (42_plain_codec.md R133). -/
theorem plainDec_of_spells {t : List Byte} {ds : List Nat} {bs : List Byte} (m : Nat) (ht : Spells alph t ds)
    (h : SameNumber (radixOf alph) 256 ds (natsOf bs)) : plainDec alph t m = .ok (padFront m 0 bs) := by
  simp only [plainDec, indexAll_eq_ok.mpr ht, toBytes_eq h]

theorem plainDec_of_notSymbols {t : List Byte} (m : Nat) (h : NotSymbols alph t) :
    plainDec alph t m = .error .invalidSymbol := by
  simp only [plainDec, indexAll_eq_error.mpr ⟨rfl, h⟩]

/-- Decoding an unpadded encoding gives its bytes: the symbols spell the digits, which stand for the bytes. -/
theorem plainDec_plainEnc (bs : List Byte) : plainDec alph (plainEnc alph bs 0) 0 = .ok bs := by
  have hsame := sameNumber_toDigits bs (radixOf_ge alph)
  rw [plainEnc_zero hsame, plainDec_of_spells 0 (spells_map_symbolAt hsame.below) (hsame.symm (natsOf_lt bs)),
    padFront_of_le 0 (Nat.zero_le _)]

end

/-- Settles O39: a floor that adds nothing leaves the unpadded encoding, and the bytes render as the text they came
from. -/
theorem plainRoundTrip : Obligations.PlainRoundTrip := by
  unfold Obligations.PlainRoundTrip
  intro alph h bs m hp hm
  constructor
  · rw [plainEnc_eq_padFront, padFront_of_le _ hm, plainDec_plainEnc]
  · have hrender := (hexParse_eq_ok.mp hp).map_toNat_hexRender (last := 0x46) (by decide) (by decide)
    rw [hrender, evenText]
    split <;> rfl

/-! ### The two commands -/

@[simp] theorem readsInput_plainEncodeOf (alph : Alph) : readsInput (plainEncodeOf alph) = true := by
  cases alph <;> rfl

@[simp] theorem bodyOf_plainEncodeOf (alph : Alph) : bodyOf (plainEncodeOf alph) = plainEncodeBody alph := by
  cases alph <;> rfl

@[simp] theorem readsInput_plainDecodeOf (alph : Alph) : readsInput (plainDecodeOf alph) = true := by
  cases alph <;> rfl

@[simp] theorem bodyOf_plainDecodeOf (alph : Alph) : bodyOf (plainDecodeOf alph) = plainDecodeBody alph := by
  cases alph <;> rfl

section
variable {alph : Alph} {c : Config} {n : Snapshot}

theorem plainEncodeBody_of_notHex {h : List Byte} (hn : NotHex h) :
    plainEncodeBody alph c n h = .error .invalidHex := by
  simp only [plainEncodeBody, hexParse_eq_error.mpr ⟨rfl, hn⟩]

theorem plainEncodeBody_of_hexText {h bs : List Byte} (ht : HexText h bs) :
    plainEncodeBody alph c n h = .ok (plainEnc alph bs n.argB.toNat, 0) := by
  simp only [plainEncodeBody, hexParse_eq_ok.mpr ht]

theorem plainDecodeBody_of_error {t : List Byte} {k : ErrKind} (h : plainDec alph t n.argB.toNat = .error k) :
    plainDecodeBody alph c n t = .error k := by
  simp only [plainDecodeBody, h]

theorem plainDecodeBody_of_ok {t bs : List Byte} (h : plainDec alph t n.argB.toNat = .ok bs) :
    plainDecodeBody alph c n t = .ok (hexRender bs, 0) := by
  simp only [plainDecodeBody, h]

end

/-- Settles O21: the computation fails on its hex test, or gives the padded encoding, which is only checked against
BUF_CAP. -/
theorem plainEncodeResult : Obligations.PlainEncodeResult := by
  unfold Obligations.PlainEncodeResult
  intro alph s h hin
  rw [exec_of_hasInput (readsInput_plainEncodeOf alph) hin, bodyOf_plainEncodeOf]
  constructor
  · intro hnot
    rw [plainEncodeBody_of_notHex hnot, finish_error]
  · intro bs ds ht hsame
    rw [plainEncodeBody_of_hexText ht, plainEnc_of_sameNumber _ hsame, finish_ok, length_padFront, padFront,
      List.length_map]

/-- Settles O22: the computation fails on its symbol test, or renders the padded bytes, two characters each. -/
theorem plainDecodeResult : Obligations.PlainDecodeResult := by
  unfold Obligations.PlainDecodeResult
  intro alph s t hin
  rw [exec_of_hasInput (readsInput_plainDecodeOf alph) hin, bodyOf_plainDecodeOf]
  constructor
  · intro hnot
    rw [plainDecodeBody_of_error (plainDec_of_notSymbols _ hnot), finish_error]
  · intro ds bs ht hsame
    rw [plainDecodeBody_of_ok (plainDec_of_spells _ ht hsame), finish_ok, length_hexRender, length_padFront, padFront]

end Sys2Proof.Machine
end

section
/-! PROOFS. The checksum family (43_checksum.md): a checksum as a prefix of the outer hash, and the completion of
CHECKSUM. -/

namespace Sys2Proof.Machine

/-- The first 4 bytes of a digest, one by one. -/
theorem take_four_toList (d : Vector Byte 32) : d.toList.take 4 = [d[0], d[1], d[2], d[3]] := by
  have hlen : d.toList.length = 32 := d.length_toList
  simp [List.take_succ_eq_append_getElem, hlen]

/-- A checksum is a prefix of the outer hash (43_checksum.md R140). -/
theorem checksum_eq_take (c : Config) (bs : List Byte) :
    checksum c bs = (hash256 c (hash256 c bs).toList).toList.take 4 :=
  (take_four_toList _).symm

/-- Settles O20: the computation never fails, and its 4 bytes fit in a buffer of at least 64. -/
theorem checksumResult : Obligations.ChecksumResult := by
  unfold Obligations.ChecksumResult
  intro s bs hcap hin
  have hfits : (checksum s.cfg bs).length ≤ s.cfg.bufCap := by rw [length_checksum]; omega
  rw [exec_of_hasInput rfl hin, bodyOf, checksumBody, finish_ok, if_pos hfits, checksum_eq_take]

end Sys2Proof.Machine
end

section
/-! PROOFS. The check codec family (44_check_codec.md): what the two encoders and the two decoders answer, the
completions of the CHECK commands, and the round trip. -/

namespace Sys2Proof.Machine

/-! ### The encoders -/

section
variable {c : Config} {v : Nat} {h p sum : List Byte} {ds : List Nat}

theorem checkEncC32_of_bad_version (h : List Byte) (hv : v > 31) : checkEncC32 c v h = .error .invalidVersion :=
  if_pos hv

theorem checkEncB58_of_bad_version (h : List Byte) (hv : v > 255) : checkEncB58 c v h = .error .invalidVersion :=
  if_pos hv

theorem checkEncC32_of_notHex (hv : v ≤ 31) (hn : NotHex h) : checkEncC32 c v h = .error .invalidHex := by
  rw [checkEncC32, if_neg (Nat.not_lt.mpr hv), hexParse_eq_error.mpr ⟨rfl, hn⟩]

theorem checkEncB58_of_notHex (hv : v ≤ 255) (hn : NotHex h) : checkEncB58 c v h = .error .invalidHex := by
  rw [checkEncB58, if_neg (Nat.not_lt.mpr hv), hexParse_eq_error.mpr ⟨rfl, hn⟩]

/-- The version's symbol, then the symbols of payload and checksum (44_check_codec.md R151). -/
theorem checkEncC32_of_hexText (hv : v ≤ 31) (hh : HexText h p) (hsum : Checked c v p sum)
    (hsame : SameNumber 256 32 (natsOf (p ++ sum)) ds) :
    checkEncC32 c v h = .ok ((v :: ds).map (symbolAt .c32)) := by
  rw [checkEncC32, if_neg (Nat.not_lt.mpr hv), hexParse_eq_ok.mpr hh]
  simp only [hsum, plainEnc_zero (alph := .c32) hsame, List.map_cons]

/-- The symbols of version byte, payload and checksum as one number (44_check_codec.md R152). -/
theorem checkEncB58_of_hexText (hv : v ≤ 255) (hh : HexText h p) (hsum : Checked c v p sum)
    (hsame : SameNumber 256 58 (natsOf (byteOf v :: p ++ sum)) ds) :
    checkEncB58 c v h = .ok (ds.map (symbolAt .b58)) := by
  rw [checkEncB58, if_neg (Nat.not_lt.mpr hv), hexParse_eq_ok.mpr hh]
  simp only [hsum, plainEnc_zero (alph := .b58) hsame]

/-- A version in range and a hex text encode to a check text of that version and of the bytes the text denotes. -/
theorem checkEncC32_isCheckC32 (c : Config) (hv : v ≤ 31) (hh : HexText h p) :
    ∃ t, checkEncC32 c v h = .ok t ∧ IsCheckC32 c t v p := by
  have hsame := sameNumber_toDigits (p ++ checksum c (byteOf v :: p)) (R := 32) (by decide)
  have hbelow : ∀ d ∈ v :: toDigits (p ++ checksum c (byteOf v :: p)) 32, d < radixOf .c32 :=
    List.forall_mem_cons.mpr ⟨Nat.lt_succ_of_le hv, hsame.below⟩
  exact ⟨_, checkEncC32_of_hexText hv hh rfl hsame, _, _, spells_map_symbolAt hbelow, length_checksum c _,
    hsame.symm (natsOf_lt _), rfl⟩

theorem checkEncB58_isCheckB58 (c : Config) (hv : v ≤ 255) (hh : HexText h p) :
    ∃ t, checkEncB58 c v h = .ok t ∧ IsCheckB58 c t v p := by
  have hsame := sameNumber_toDigits (byteOf v :: p ++ checksum c (byteOf v :: p)) (R := 58) (by decide)
  exact ⟨_, checkEncB58_of_hexText hv hh rfl hsame, _, _, Nat.lt_succ_of_le hv, spells_map_symbolAt hsame.below,
    length_checksum c _, hsame.symm (natsOf_lt _), rfl⟩

end

/-! ### The decoders -/

section
variable {c : Config} {t : List Byte} {ds : List Nat}

theorem checkDecC32_of_notSymbols (h : NotSymbols .c32 t) : checkDecC32 c t = .error .invalidSymbol := by
  rw [checkDecC32, indexAll_map_norm32, indexAll_eq_error.mpr ⟨rfl, h⟩]

theorem checkDecB58_of_notSymbols (h : NotSymbols .b58 t) : checkDecB58 c t = .error .invalidSymbol := by
  rw [checkDecB58, indexAll_eq_error.mpr ⟨rfl, h⟩]

/-- The empty text has no version symbol (44_check_codec.md R153). -/
@[simp] theorem checkDecC32_nil (c : Config) : checkDecC32 c [] = .error .tooShort := rfl

/-- A text whose version and bytes are known is decided by its length and its checksum (44_check_codec.md R153). -/
theorem checkDecC32_of_spells {v : Nat} {bs : List Byte} (ht : Spells .c32 t (v :: ds))
    (hsame : SameNumber 32 256 ds (natsOf bs)) :
    checkDecC32 c t = if bs.length < 4 then .error .tooShort else splitCheck c v bs := by
  rw [checkDecC32, indexAll_map_norm32, indexAll_eq_ok.mpr ht]
  simp only [toBytes_eq hsame]

/-- A text whose bytes are known is decided by their number and the checksum, the first byte being the version
(44_check_codec.md R154). -/
theorem checkDecB58_of_spells {bs : List Byte} (ht : Spells .b58 t ds) (hsame : SameNumber 58 256 ds (natsOf bs)) :
    checkDecB58 c t = if bs.length < 5 then .error .tooShort else splitCheck c (bs.headD 0).toNat bs.tail := by
  rw [checkDecB58, indexAll_eq_ok.mpr ht]
  simp only [toBytes_eq hsame]

section
variable {p sum : List Byte} (hlen : sum.length = 4)
include hlen

/-- With 4 bytes after the payload, the checksum decides. -/
theorem checkDecC32_of_payload {v : Nat} (ht : Spells .c32 t (v :: ds))
    (hsame : SameNumber 32 256 ds (natsOf (p ++ sum))) :
    checkDecC32 c t = if Checked c v p sum then .ok (v, p) else .error .checksumMismatch := by
  have hlong : ¬ (p ++ sum).length < 4 := by rw [List.length_append]; omega
  rw [checkDecC32_of_spells ht hsame, if_neg hlong, splitCheck_append hlen]

theorem checkDecB58_of_payload {v : Byte} (ht : Spells .b58 t ds)
    (hsame : SameNumber 58 256 ds (natsOf (v :: p ++ sum))) :
    checkDecB58 c t = if Checked c v.toNat p sum then .ok (v.toNat, p) else .error .checksumMismatch := by
  have hlong : ¬ (v :: p ++ sum).length < 5 := by rw [List.length_append, List.length_cons]; omega
  rw [checkDecB58_of_spells ht hsame, if_neg hlong]
  exact splitCheck_append hlen

end

/-- A check text decodes to its version and payload. -/
theorem IsCheckC32.checkDecC32_eq {v : Nat} {p : List Byte} (h : IsCheckC32 c t v p) :
    checkDecC32 c t = .ok (v, p) := by
  obtain ⟨ds, sum, ht, hlen, hsame, hsum⟩ := h
  rw [checkDecC32_of_payload hlen ht hsame, if_pos hsum]

theorem IsCheckB58.checkDecB58_eq {v : Nat} {p : List Byte} (h : IsCheckB58 c t v p) :
    checkDecB58 c t = .ok (v, p) := by
  obtain ⟨ds, sum, hv, ht, hlen, hsame, hsum⟩ := h
  rw [checkDecB58_of_payload hlen ht hsame, byteOf_toNat hv, if_pos hsum]

end

/-- Settles O40: an encoding is a check text of the version and the parsed bytes, and decoding reads these off it. -/
theorem checkRoundTrip : Obligations.CheckRoundTrip := by
  unfold Obligations.CheckRoundTrip
  intro c v h p hp
  have hh : HexText h p := hexParse_eq_ok.mp hp
  refine ⟨fun hv => ?_, checkEncC32_of_bad_version h, fun hv => ?_, checkEncB58_of_bad_version h⟩
  · obtain ⟨t, henc, ht⟩ := checkEncC32_isCheckC32 c hv hh
    exact ⟨t, henc, ht.checkDecC32_eq⟩
  · obtain ⟨t, henc, ht⟩ := checkEncB58_isCheckB58 c hv hh
    exact ⟨t, henc, ht.checkDecB58_eq⟩

/-! ### The four commands -/

@[simp] theorem encodedResult_error (k : ErrKind) : encodedResult (.error k) = .error k := rfl
@[simp] theorem encodedResult_ok (t : List Byte) : encodedResult (.ok t) = .ok (t, 0) := rfl
@[simp] theorem decodedResult_error (k : ErrKind) : decodedResult (.error k) = .error k := rfl
@[simp] theorem decodedResult_ok (v : Nat) (p : List Byte) :
    decodedResult (.ok (v, p)) = .ok (hexRender p, BitVec.ofNat 32 v) := rfl

/-- Settles O24: the encoder tests the version, then the hex; its text is only checked against BUF_CAP. -/
theorem checkEncodeC32Result : Obligations.CheckEncodeC32Result := by
  unfold Obligations.CheckEncodeC32Result
  intro s h hin
  rw [exec_of_hasInput rfl hin, bodyOf, checkEncodeC32Body]
  refine ⟨fun hv => ?_, fun hv hn => ?_, fun p sum ds hv hh hsum hsame => ?_⟩
  · rw [checkEncC32_of_bad_version h hv, encodedResult_error, finish_error]
  · rw [checkEncC32_of_notHex hv hn, encodedResult_error, finish_error]
  · rw [checkEncC32_of_hexText hv hh hsum hsame, encodedResult_ok, finish_ok, List.length_map, List.length_cons]

/-- Settles O25: as O24, with the whole byte range for versions and no symbol of the version's own. -/
theorem checkEncodeB58Result : Obligations.CheckEncodeB58Result := by
  unfold Obligations.CheckEncodeB58Result
  intro s h hin
  rw [exec_of_hasInput rfl hin, bodyOf, checkEncodeB58Body]
  refine ⟨fun hv => ?_, fun hv hn => ?_, fun p sum ds hv hh hsum hsame => ?_⟩
  · rw [checkEncB58_of_bad_version h hv, encodedResult_error, finish_error]
  · rw [checkEncB58_of_notHex hv hn, encodedResult_error, finish_error]
  · rw [checkEncB58_of_hexText hv hh hsum hsame, encodedResult_ok, finish_ok, List.length_map]

/-- Settles O26: the decoder tests the symbols, the length and the checksum; the payload's hex is only checked against
BUF_CAP. -/
theorem checkDecodeC32Result : Obligations.CheckDecodeC32Result := by
  unfold Obligations.CheckDecodeC32Result
  intro s t hin
  rw [exec_of_hasInput rfl hin, bodyOf, checkDecodeC32Body]
  refine ⟨fun hn => ?_, fun hnil => ?_, fun v ds bs ht hsame => ⟨fun hshort => ?_, ?_⟩⟩
  · rw [checkDecC32_of_notSymbols hn, decodedResult_error, finish_error]
  · rw [hnil, checkDecC32_nil, decodedResult_error, finish_error]
  · rw [checkDecC32_of_spells ht hsame, if_pos hshort, decodedResult_error, finish_error]
  · rintro p sum rfl hlen
    rw [checkDecC32_of_payload hlen ht hsame]
    constructor <;> intro hsum
    · rw [if_neg hsum, decodedResult_error, finish_error]
    · rw [if_pos hsum, decodedResult_ok, finish_ok, length_hexRender]

/-- Settles O27: as O26, with the first byte as the version, which is zero-extended into OUT_VAL. -/
theorem checkDecodeB58Result : Obligations.CheckDecodeB58Result := by
  unfold Obligations.CheckDecodeB58Result
  intro s t hin
  rw [exec_of_hasInput rfl hin, bodyOf, checkDecodeB58Body]
  refine ⟨fun hn => ?_, fun ds bs ht hsame => ⟨fun hshort => ?_, ?_⟩⟩
  · rw [checkDecB58_of_notSymbols hn, decodedResult_error, finish_error]
  · rw [checkDecB58_of_spells ht hsame, if_pos hshort, decodedResult_error, finish_error]
  · rintro v p sum rfl hlen
    rw [checkDecB58_of_payload hlen ht hsame]
    constructor <;> intro hsum
    · rw [if_neg hsum, decodedResult_error, finish_error]
    · rw [if_pos hsum, decodedResult_ok, finish_ok, length_hexRender, BitVec.ofNat_toNat]

end Sys2Proof.Machine
end

section
/-! PROOFS. The address codec family (45_address_codec.md): what decodes to a version and a payload, what the encoder and
the decoder answer, the round trips, and the completions of the ADDR commands. -/

namespace Sys2Proof.Machine

/-! ### Check texts -/

section
variable {c : Config} {t : List Byte} {v : Nat} {p : List Byte}

/-- The last check of a decoder passes only on a payload and its checksum, with the version it was asked about
(44_check_codec.md R153, R154). -/
theorem splitCheck_eq_ok {w : Nat} {bs : List Byte} (hlen : 4 ≤ bs.length) (h : splitCheck c w bs = .ok (v, p)) :
    v = w ∧ ∃ sum, bs = p ++ sum ∧ sum.length = 4 ∧ Checked c v p sum := by
  obtain ⟨q, sum, rfl, hsum⟩ : ∃ q sum, bs = q ++ sum ∧ sum.length = 4 :=
    ⟨bs.take (bs.length - 4), bs.drop (bs.length - 4), (List.take_append_drop ..).symm, by simp; omega⟩
  rw [splitCheck_append hsum] at h
  split at h
  · next hchecked =>
    cases h
    exact ⟨rfl, sum, rfl, hsum, hchecked⟩
  · cases h

/-- The decoder accepts no other texts than check texts (44_check_codec.md R153). -/
theorem checkDecC32_eq_ok : checkDecC32 c t = .ok (v, p) ↔ IsCheckC32 c t v p := by
  refine ⟨fun h => ?_, IsCheckC32.checkDecC32_eq⟩
  cases hall : indexAll .c32 t with
  | error k =>
    rw [checkDecC32_of_notSymbols (indexAll_eq_error.mp hall).2] at h
    cases h
  | ok ds =>
    have ht : Spells .c32 t ds := indexAll_eq_ok.mp hall
    cases ds with
    | nil =>
      obtain rfl : t = [] := List.map_eq_nil_iff.mp ht.1
      cases h
    | cons w ds =>
      have hsame := sameNumber_toBytes ds 32
      rw [checkDecC32_of_spells ht hsame] at h
      split at h
      · cases h
      · next hlong =>
        obtain ⟨rfl, sum, hbs, hlen, hsum⟩ := splitCheck_eq_ok (Nat.not_lt.mp hlong) h
        exact ⟨ds, sum, ht, hlen, hbs ▸ hsame, hsum⟩

/-- A canonical text is the symbols of the digits it spells. -/
theorem Spells.eq_map_symbolAt {ds : List Nat} (h : Spells .c32 t ds) (hc : CanonicalC32 t) :
    t = ds.map (symbolAt .c32) := by
  have hfix : ∀ x ∈ c32Table, norm32 x = x := by decide
  calc t = t.map id := (List.map_id t).symm
    _ = t.map norm32 := List.map_congr_left fun x hx => (hfix x (hc x hx)).symm
    _ = ds.map (symbolAt .c32) := h.1

/-- A canonical check text is the encoding of its version and payload: the payload and the checksum have one digit list
only, and the digits one canonical spelling. -/
theorem IsCheckC32.checkEncC32_hexRender (h : IsCheckC32 c t v p) (hc : CanonicalC32 t) :
    checkEncC32 c v (hexRender p) = .ok t := by
  obtain ⟨ds, sum, ht, -, hsame, hsum⟩ := h
  obtain ⟨hv, hds⟩ := List.forall_mem_cons.mp ht.2
  rw [ht.eq_map_symbolAt hc]
  exact checkEncC32_of_hexText (Nat.le_of_lt_succ hv) (hexText_hexRender p) hsum (hsame.symm hds)

end

/-! ### The encoder -/

theorem addrPrefix_eq : addrPrefix = 0x53 := rfl

section
variable {c : Config} {v : Nat} {h : List Byte}

theorem addrEnc_of_bad_length (hl : h.length + h.length % 2 ≠ 40) : addrEnc c v h = .error .invalidPayloadLength :=
  if_pos hl

section
variable (hl : h.length + h.length % 2 = 40)
include hl

theorem addrEnc_of_check_error {k : ErrKind} (hk : checkEncC32 c v h = .error k) : addrEnc c v h = .error k := by
  rw [addrEnc, if_neg (not_not.mpr hl), hk]

theorem addrEnc_of_check_ok {t : List Byte} (ht : checkEncC32 c v h = .ok t) : addrEnc c v h = .ok (0x53 :: t) := by
  rw [addrEnc, if_neg (not_not.mpr hl), ht, addrPrefix_eq]

end

/-- A version in range and a hex text of 20 bytes encode to an address of that version and of those bytes. -/
theorem addrEnc_isAddress (c : Config) {p : List Byte} (hl : h.length + h.length % 2 = 40) (hv : v ≤ 31)
    (hh : HexText h p) : ∃ t, addrEnc c v h = .ok t ∧ IsAddress c t v p := by
  obtain ⟨t, henc, ht⟩ := checkEncC32_isCheckC32 c hv hh
  have hp : p.length = 20 := by have := hh.length_eq; omega
  exact ⟨_, addrEnc_of_check_ok hl henc, t, rfl, hp, ht⟩

end

/-! ### The decoder -/

section
variable {c : Config}

theorem addrDec_of_missing_prefix {t : List Byte} (h : t.head? ≠ some 0x53) : addrDec c t = .error .missingPrefix := by
  cases t with
  | nil => rfl
  | cons x rest => rw [addrDec, addrPrefix_eq, if_pos fun hx => h (congrArg some hx)]

section
variable {rest : List Byte}

theorem addrDec_of_check_error {k : ErrKind} (h : checkDecC32 c rest = .error k) :
    addrDec c (0x53 :: rest) = .error k := by
  rw [addrDec, addrPrefix_eq, if_neg (not_not.mpr rfl), h]

/-- Behind the prefix, a check text is decided by the length of its payload (45_address_codec.md R162). -/
theorem addrDec_of_isCheckC32 {v : Nat} {p : List Byte} (h : IsCheckC32 c rest v p) :
    addrDec c (0x53 :: rest) = if p.length ≠ 20 then .error .invalidPayloadLength else .ok (v, p) := by
  rw [addrDec, addrPrefix_eq, if_neg (not_not.mpr rfl), h.checkDecC32_eq]

end

/-- The decoder accepts exactly the addresses. -/
theorem addrDec_eq_ok {t : List Byte} {v : Nat} {p : List Byte} : addrDec c t = .ok (v, p) ↔ IsAddress c t v p := by
  constructor
  · intro h
    by_cases hhead : t.head? = some 0x53
    · obtain ⟨rest, rfl⟩ := List.head?_eq_some_iff.mp hhead
      cases hdec : checkDecC32 c rest with
      | error k =>
        rw [addrDec_of_check_error hdec] at h
        cases h
      | ok r =>
        have hcheck : IsCheckC32 c rest r.1 r.2 := checkDecC32_eq_ok.mp hdec
        rw [addrDec_of_isCheckC32 hcheck] at h
        split at h
        · cases h
        · next hp =>
          cases h
          exact ⟨rest, rfl, not_not.mp hp, hcheck⟩
    · rw [addrDec_of_missing_prefix hhead] at h
      cases h
  · rintro ⟨rest, rfl, hp, hcheck⟩
    rw [addrDec_of_isCheckC32 hcheck, if_neg (not_not.mpr hp)]

end

/-- A canonical address is the encoding of its version and payload. -/
theorem IsAddress.addrEnc_hexRender {c : Config} {t : List Byte} {v : Nat} {p : List Byte} (h : IsAddress c t v p)
    (hc : CanonicalC32 t) : addrEnc c v (hexRender p) = .ok t := by
  obtain ⟨rest, rfl, hp, hcheck⟩ := h
  have hl : (hexRender p).length + (hexRender p).length % 2 = 40 := by rw [length_hexRender, hp]
  exact addrEnc_of_check_ok hl (hcheck.checkEncC32_hexRender (List.forall_mem_cons.mp hc).2)

/-- Settles O41: an encoding is an address of the version and the parsed bytes, and what decodes is an address, which if
canonical is the encoding of what it decodes to. -/
theorem addressRoundTrip : Obligations.AddressRoundTrip := by
  unfold Obligations.AddressRoundTrip
  intro c v
  constructor
  · intro h p hv hp hl
    obtain ⟨t, henc, ht⟩ := addrEnc_isAddress c hl hv (hexParse_eq_ok.mp hp)
    exact ⟨t, henc, addrDec_eq_ok.mpr ht⟩
  · intro t p hc hdec
    exact (addrDec_eq_ok.mp hdec).addrEnc_hexRender hc

/-! ### The two commands -/

/-- An address takes at most 50 characters: prefix and version, and at most two a byte of payload and checksum. -/
theorem length_le_of_addressDigits {p sum : List Byte} {ds : List Nat} (hp : p.length = 20) (hsum : sum.length = 4)
    (hsame : SameNumber 256 32 (natsOf (p ++ sum)) ds) : ds.length + 2 ≤ 50 := by
  have hle := hsame.length_le_double (natsOf_lt _) (by decide)
  rw [length_natsOf, List.length_append, hp, hsum] at hle
  omega

section
variable {s : State} {t : List Byte} {k : ErrKind} (hin : HasInput s t)
include hin

theorem exec_addrEncode_of_error (h : addrEnc s.cfg s.snap.argA.toNat t = .error k) :
    exec .addrEncode s = .next (s.completeErr k) := by
  rw [exec_of_hasInput rfl hin, bodyOf, addrEncodeBody, h, encodedResult_error, finish_error]

theorem exec_addrDecode_of_error (h : addrDec s.cfg t = .error k) :
    exec .addrDecode s = .next (s.completeErr k) := by
  rw [exec_of_hasInput rfl hin, bodyOf, addrDecodeBody, h, decodedResult_error, finish_error]

end

/-- Settles O28: the encoder tests the length, then the version, then the hex; its address is shorter than the least
BUF_CAP. -/
theorem addrEncodeResult : Obligations.AddrEncodeResult := by
  unfold Obligations.AddrEncodeResult
  intro s h hwf hin
  refine ⟨fun h39 h40 => exec_addrEncode_of_error hin (addrEnc_of_bad_length (by omega)), fun hlen => ?_⟩
  have hl : h.length + h.length % 2 = 40 := by omega
  refine ⟨fun hv => ?_, fun hv hn => ?_, fun p sum ds hv hh hsum hsame => ?_⟩
  · exact exec_addrEncode_of_error hin (addrEnc_of_check_error hl (checkEncC32_of_bad_version h hv))
  · exact exec_addrEncode_of_error hin (addrEnc_of_check_error hl (checkEncC32_of_notHex hv hn))
  · have hp : p.length = 20 := by have := hh.length_eq; omega
    have hbound := length_le_of_addressDigits hp (hsum ▸ length_checksum ..) hsame
    obtain ⟨hcap, -⟩ := Config.wf_bounds hwf
    have hfits : (0x53 :: (s.snap.argA.toNat :: ds).map (symbolAt .c32)).length ≤ s.cfg.bufCap := by
      rw [List.length_cons, List.length_map, List.length_cons]
      omega
    rw [exec_of_hasInput rfl hin, bodyOf, addrEncodeBody,
      addrEnc_of_check_ok hl (checkEncC32_of_hexText hv hh hsum hsame), encodedResult_ok, finish_ok, if_pos hfits]

/-- Settles O29: the decoder tests the prefix, then what the check decoder tests, then the payload's length; the hex of
20 bytes is shorter than the least BUF_CAP. -/
theorem addrDecodeResult : Obligations.AddrDecodeResult := by
  unfold Obligations.AddrDecodeResult
  intro s t hwf hin
  refine ⟨fun hhead => exec_addrDecode_of_error hin (addrDec_of_missing_prefix hhead), ?_, fun v p haddr => ?_⟩
  · rintro rest rfl
    refine ⟨fun hn => ?_, fun hnil => ?_, fun v ds bs ht hsame => ⟨fun hshort => ?_, fun p sum hbs hlen hsum => ?_⟩,
      fun v p hcheck hp => ?_⟩ <;> apply exec_addrDecode_of_error hin
    · exact addrDec_of_check_error (checkDecC32_of_notSymbols hn)
    · exact addrDec_of_check_error (hnil ▸ checkDecC32_nil _)
    · apply addrDec_of_check_error
      rw [checkDecC32_of_spells ht hsame, if_pos hshort]
    · subst hbs
      apply addrDec_of_check_error
      rw [checkDecC32_of_payload hlen ht hsame, if_neg hsum]
    · rw [addrDec_of_isCheckC32 hcheck, if_pos hp]
  · rw [exec_of_hasInput rfl hin, bodyOf, addrDecodeBody, addrDec_eq_ok.mpr haddr, decodedResult_ok, finish_ok]
    obtain ⟨-, -, hp, -⟩ := haddr
    obtain ⟨hcap, -⟩ := Config.wf_bounds hwf
    have hfits : (hexRender p).length ≤ s.cfg.bufCap := by rw [length_hexRender, hp]; omega
    rw [if_pos hfits]

end Sys2Proof.Machine
end

section
/-! PROOFS. The cross-base family (46_cross_base.md): what the two conversions answer, the completions of the XCONV
commands, the errors they share with the decoders of their source texts, and the round trips. -/

namespace Sys2Proof.Machine

/-! ### Completions -/

section
variable {s : State} {i : Instr} {t out : List Byte} {val : Word}

theorem exec_of_body_error {k : ErrKind} (hr : readsInput i = true) (hin : HasInput s t)
    (h : bodyOf i s.cfg s.snap t = .error k) : exec i s = .next (s.completeErr k) := by
  rw [exec_of_hasInput hr hin, h, finish_error]

theorem exec_of_body_ok (hr : readsInput i = true) (hin : HasInput s t)
    (h : bodyOf i s.cfg s.snap t = .ok (out, val)) (hfits : out.length ≤ s.cfg.bufCap) :
    exec i s = .next (s.completeOk out val) := by
  rw [exec_of_hasInput hr hin, h, finish_ok, if_pos hfits]

/-- Completion without an error is completion with what the computation gave. -/
theorem body_ok_of_exec {u : State} (hr : readsInput i = true) (hin : HasInput s t) (h : exec i s = .next u)
    (he : u.errcode = 0) :
    ∃ out val, bodyOf i s.cfg s.snap t = .ok (out, val) ∧ out.length ≤ s.cfg.bufCap ∧ u = s.completeOk out val := by
  rw [exec_of_hasInput hr hin] at h
  cases h
  rcases finish_cases s (bodyOf i s.cfg s.snap t) with ⟨k, hk, -⟩ | hok
  · rw [hk, State.completeErr_errcode] at he
    exact absurd he (errCode_range k).1
  · exact hok

/-- A command that reads its input completes on too long an input, or with what its computation makes of it. -/
theorem exec_reading_cases {u : State} (hr : readsInput i = true) (h : exec i s = .next u) :
    (s.snap.inLen.toNat > s.cfg.bufCap ∧ u = s.completeErr .capacityExceeded) ∨
      ∃ t, HasInput s t ∧ u = s.finish (bodyOf i s.cfg s.snap t) := by
  rcases exec_cases i s with ⟨hlong, he⟩ | ⟨-, -, -, he⟩ | ⟨t, -, hin, he⟩ | ⟨-, hn, -⟩
  · cases h.symm.trans he
    exact .inl ⟨hlong, rfl⟩
  · cases h.symm.trans he
  · cases h.symm.trans he
    exact .inr ⟨t, hin, rfl⟩
  · cases hr.symm.trans hn

/-- A result shorter than 2^32 bytes is the output of its completion, and no other list is. -/
theorem hasOutput_completeOk_iff {out' : List Byte} (hlen : out.length < 2 ^ 32) :
    HasOutput (s.completeOk out val) out' ↔ out = out' := by
  have hnat : (s.completeOk out val).outLen.toNat = out.length := by
    rw [State.completeOk_outLen, BitVec.toNat_ofNat, Nat.mod_eq_of_lt hlen]
  constructor
  · intro h
    have hl : out.length = out'.length := hnat.symm.trans h.len
    refine List.ext_getElem? fun k => ?_
    by_cases hk : k < out'.length
    · simpa using h.bytes k hk
    · rw [List.getElem?_eq_none (by omega), List.getElem?_eq_none (by omega)]
  · rintro rfl
    exact ⟨hnat, fun k _ => by simp⟩

end

/-! ### The target version -/

/-- The target version is ARG_A, or the table's entry (46_cross_base.md R171). -/
theorem resolve_eq_ok {tven : Bool} {a tv : Nat} {entry : Option Nat} :
    resolve tven a entry = .ok tv ↔ tven = true ∧ tv = a ∨ tven = false ∧ entry = some tv := by
  cases tven <;> cases entry <;> simp [resolve, eq_comm]

theorem resolve_no_entry (a : Nat) : resolve false a none = .error .noEquivalentVersion := rfl

/-! ### The two conversions -/

/-- What both conversions do with a decoded source text: the target version from ARG_A or the table, then the encoding
of the same payload (46_cross_base.md R172, R173). -/
def convertDecoded (tven : Bool) (a : Nat) (entry : Nat → Option Nat)
    (enc : Nat → List Byte → Except ErrKind (List Byte)) (dec : Except ErrKind (Nat × List Byte)) :
    Except ErrKind (List Byte × Word) :=
  match dec with
  | .error k => .error k
  | .ok (v, p) =>
    match resolve tven a (entry v) with
    | .error k => .error k
    | .ok tv => convertedResult tv (enc tv (hexRender p))

theorem xconvC32ToB58Body_eq (tven : Bool) (c : Config) (n : Snapshot) (t : List Byte) :
    xconvC32ToB58Body tven c n t =
      convertDecoded tven n.argA.toNat (vmapToB58 c.vmap) (checkEncB58 c) (addrDec c t) := rfl

theorem xconvB58ToC32Body_eq (tven : Bool) (c : Config) (n : Snapshot) (t : List Byte) :
    xconvB58ToC32Body tven c n t =
      convertDecoded tven n.argA.toNat (vmapToC32 c.vmap) (addrEnc c) (checkDecB58 c t) := rfl

section
variable {tven : Bool} {a v tv : Nat} {p out : List Byte} {k : ErrKind} {entry : Nat → Option Nat}
  {enc : Nat → List Byte → Except ErrKind (List Byte)} {dec : Except ErrKind (Nat × List Byte)}

@[simp] theorem convertDecoded_of_source_error : convertDecoded tven a entry enc (.error k) = .error k := rfl

theorem convertDecoded_of_no_entry (h : entry v = none) :
    convertDecoded false a entry enc (.ok (v, p)) = .error .noEquivalentVersion := by
  simp only [convertDecoded, h, resolve_no_entry]

section
variable (htv : resolve tven a (entry v) = .ok tv)
include htv

theorem convertDecoded_of_encode_error (h : enc tv (hexRender p) = .error k) :
    convertDecoded tven a entry enc (.ok (v, p)) = .error k := by
  simp only [convertDecoded, htv, h, convertedResult]

theorem convertDecoded_of_encode_ok (h : enc tv (hexRender p) = .ok out) :
    convertDecoded tven a entry enc (.ok (v, p)) = .ok (out, BitVec.ofNat 32 tv) := by
  simp only [convertDecoded, htv, h, convertedResult]

end

/-- A conversion by the table that succeeds has decoded its source, found an entry and encoded the payload for it. -/
theorem of_convertDecoded_eq_ok {val : Word} (h : convertDecoded false a entry enc dec = .ok (out, val)) :
    ∃ v p tv, dec = .ok (v, p) ∧ entry v = some tv ∧ enc tv (hexRender p) = .ok out := by
  match dec with
  | .error k => cases h
  | .ok (v, p) =>
    cases hentry : entry v with
    | none => rw [convertDecoded_of_no_entry hentry] at h; cases h
    | some tv =>
      have htv : resolve false a (entry v) = .ok tv := resolve_eq_ok.mpr (.inr ⟨rfl, hentry⟩)
      cases henc : enc tv (hexRender p) with
      | error k => rw [convertDecoded_of_encode_error htv henc] at h; cases h
      | ok t =>
        rw [convertDecoded_of_encode_ok htv henc] at h
        cases h
        exact ⟨v, p, tv, rfl, hentry, henc⟩

end

/-! ### The two commands -/

/-- The b58 text of an address has at most 50 characters: two a byte of version, payload and checksum. -/
theorem length_le_of_addressDigits58 {v : Byte} {p sum : List Byte} {ds : List Nat} (hp : p.length = 20)
    (hsum : sum.length = 4) (hsame : SameNumber 256 58 (natsOf (v :: p ++ sum)) ds) : ds.length ≤ 50 := by
  have hle := hsame.length_le_double (natsOf_lt _) (by decide)
  rw [length_natsOf, List.length_append, List.length_cons, hp, hsum] at hle
  exact hle

section
variable {s : State} {t p : List Byte} {v : Nat} {tven : Bool} (hin : HasInput s t)
include hin

theorem exec_xconvC32ToB58_of_error {k : ErrKind} (haddr : IsAddress s.cfg t v p)
    (h : convertDecoded tven s.snap.argA.toNat (vmapToB58 s.cfg.vmap) (checkEncB58 s.cfg) (.ok (v, p)) = .error k) :
    exec (.xconvC32ToB58 tven) s = .next (s.completeErr k) :=
  exec_of_body_error rfl hin (by rw [bodyOf, xconvC32ToB58Body_eq, addrDec_eq_ok.mpr haddr, h])

theorem exec_xconvB58ToC32_of_error {k : ErrKind} (hcheck : IsCheckB58 s.cfg t v p)
    (h : convertDecoded tven s.snap.argA.toNat (vmapToC32 s.cfg.vmap) (addrEnc s.cfg) (.ok (v, p)) = .error k) :
    exec (.xconvB58ToC32 tven) s = .next (s.completeErr k) :=
  exec_of_body_error rfl hin (by rw [bodyOf, xconvB58ToC32Body_eq, hcheck.checkDecB58_eq, h])

end

/-- Settles O30: the source decodes, so the table and the encoder's version test decide; the text is shorter than the
least BUF_CAP. -/
theorem xconvC32ToB58Result : Obligations.XconvC32ToB58Result := by
  unfold Obligations.XconvC32ToB58Result
  intro tven s t v p hwf hin haddr
  obtain ⟨hcap, -, hfst, -, hrange⟩ := Config.wf_bounds hwf
  refine ⟨?_, ?_, fun tv sum ds htarget hsum hsame => ?_⟩
  · rintro rfl hnone
    exact exec_xconvC32ToB58_of_error hin haddr (convertDecoded_of_no_entry (vmapToB58_eq_none.mpr hnone))
  · rintro rfl hbig
    exact exec_xconvC32ToB58_of_error hin haddr
      (convertDecoded_of_encode_error (resolve_eq_ok.mpr (.inl ⟨rfl, rfl⟩)) (checkEncB58_of_bad_version _ hbig))
  · have hresolve : resolve tven s.snap.argA.toNat (vmapToB58 s.cfg.vmap v) = .ok tv ∧ tv ≤ 255 := by
      rcases htarget with ⟨htven, ha, hle⟩ | ⟨htven, hmem⟩
      · exact ⟨resolve_eq_ok.mpr (.inl ⟨htven, ha⟩), hle⟩
      · exact ⟨resolve_eq_ok.mpr (.inr ⟨htven, vmapToB58_eq_some hfst hmem⟩), (hrange _ hmem).2⟩
    have henc := checkEncB58_of_hexText hresolve.2 (hexText_hexRender p) hsum hsame
    have hbody : bodyOf (.xconvC32ToB58 tven) s.cfg s.snap t = .ok (ds.map (symbolAt .b58), BitVec.ofNat 32 tv) := by
      rw [bodyOf, xconvC32ToB58Body_eq, addrDec_eq_ok.mpr haddr, convertDecoded_of_encode_ok hresolve.1 henc]
    obtain ⟨-, -, hp, -⟩ := haddr
    have hlen := length_le_of_addressDigits58 hp (hsum ▸ length_checksum ..) hsame
    exact exec_of_body_ok rfl hin hbody (by rw [List.length_map]; omega)

/-- Settles O31: the source decodes, so the table and then the encoder's length and version tests decide; the address is
shorter than the least BUF_CAP. -/
theorem xconvB58ToC32Result : Obligations.XconvB58ToC32Result := by
  unfold Obligations.XconvB58ToC32Result
  intro tven s t v p hwf hin hcheck
  obtain ⟨hcap, -, -, hsnd, -⟩ := Config.wf_bounds hwf
  refine ⟨?_, fun tv htarget => ?_⟩
  · rintro rfl hnone
    exact exec_xconvB58ToC32_of_error hin hcheck (convertDecoded_of_no_entry (vmapToC32_eq_none.mpr hnone))
  · have hresolve : resolve tven s.snap.argA.toNat (vmapToC32 s.cfg.vmap v) = .ok tv :=
      resolve_eq_ok.mpr (htarget.imp_right fun ⟨htven, hmem⟩ => ⟨htven, vmapToC32_eq_some hsnd hmem⟩)
    have heven : (hexRender p).length + (hexRender p).length % 2 = 2 * p.length := (hexText_hexRender p).length_eq
    refine ⟨fun hp => ?_, fun hp hbig => ?_, fun sum ds hp hle hsum hsame => ?_⟩
    · exact exec_xconvB58ToC32_of_error hin hcheck
        (convertDecoded_of_encode_error hresolve (addrEnc_of_bad_length (by omega)))
    · exact exec_xconvB58ToC32_of_error hin hcheck (convertDecoded_of_encode_error hresolve
        (addrEnc_of_check_error (by omega) (checkEncC32_of_bad_version _ hbig)))
    · have henc := addrEnc_of_check_ok (by omega) (checkEncC32_of_hexText hle (hexText_hexRender p) hsum hsame)
      have hlen := length_le_of_addressDigits hp (hsum ▸ length_checksum ..) hsame
      refine exec_of_body_ok rfl hin ?_ (by rw [List.length_cons, List.length_map, List.length_cons]; omega)
      rw [bodyOf, xconvB58ToC32Body_eq, hcheck.checkDecB58_eq, convertDecoded_of_encode_ok hresolve henc]

/-! ### Errors of the source text -/

section
variable {s u : State} (tven : Bool)

/-- An error of ADDR.DECODE is one of its text or of its length: the hex of an address always fits. -/
theorem exec_xconvC32ToB58_of_addrDecode_error (hwf : s.cfg.wf = true) (h : exec .addrDecode s = .next u)
    (he : u.errcode ≠ 0) : exec (.xconvC32ToB58 tven) s = .next u := by
  rcases exec_reading_cases rfl h with ⟨hlong, rfl⟩ | ⟨t, hin, -⟩
  · exact exec_of_input_too_long hlong
  · cases hdec : addrDec s.cfg t with
    | error k =>
      rw [← h, exec_addrDecode_of_error hin hdec]
      exact exec_of_body_error rfl hin (by rw [bodyOf, xconvC32ToB58Body_eq, hdec, convertDecoded_of_source_error])
    | ok r =>
      obtain ⟨-, -, hvalid⟩ := addrDecodeResult s t hwf hin
      cases h.symm.trans (hvalid r.1 r.2 (addrDec_eq_ok.mp hdec))
      exact absurd rfl he

/-- An error of CHECK.DECODE.B58 that is not for lack of room is one of its text. -/
theorem exec_xconvB58ToC32_of_checkDecodeB58_error (h : exec .checkDecodeB58 s = .next u) (he : u.errcode ≠ 0)
    (hroom : u.errcode ≠ errCode .capacityExceeded) : exec (.xconvB58ToC32 tven) s = .next u := by
  rcases exec_reading_cases rfl h with ⟨-, rfl⟩ | ⟨t, hin, rfl⟩
  · exact absurd rfl hroom
  · rw [bodyOf, checkDecodeB58Body] at he hroom ⊢
    cases hdec : checkDecB58 s.cfg t with
    | error k =>
      rw [decodedResult_error, finish_error]
      exact exec_of_body_error rfl hin (by rw [bodyOf, xconvB58ToC32Body_eq, hdec, convertDecoded_of_source_error])
    | ok r =>
      rw [hdec, decodedResult_ok, finish_ok] at he hroom
      split at he
      · exact absurd rfl he
      · next hlong => rw [if_neg hlong] at hroom; exact absurd rfl hroom

end

/-- Settles O32: where the decoder of the source text fails, XCONV completes in the same state. -/
theorem xconvReportsSourceErrors : Obligations.XconvReportsSourceErrors := by
  unfold Obligations.XconvReportsSourceErrors
  intro tven s t hwf
  constructor
  · intro h he
    rw [exec_xconvC32ToB58_of_addrDecode_error tven hwf h he]
    exact ⟨rfl, rfl, rfl, fun _ => rfl⟩
  · intro h he hroom
    rw [exec_xconvB58ToC32_of_checkDecodeB58_error tven h he hroom]
    exact ⟨rfl, rfl, rfl, fun _ => rfl⟩

/-! ### The round trips -/

section
variable {c : Config} {t : List Byte} {v : Nat} {p : List Byte}

/-- The b58 decoder accepts no other texts than check texts (44_check_codec.md R154). -/
theorem checkDecB58_eq_ok : checkDecB58 c t = .ok (v, p) ↔ IsCheckB58 c t v p := by
  refine ⟨fun h => ?_, IsCheckB58.checkDecB58_eq⟩
  cases hall : indexAll .b58 t with
  | error k =>
    rw [checkDecB58_of_notSymbols (indexAll_eq_error.mp hall).2] at h
    cases h
  | ok ds =>
    have ht : Spells .b58 t ds := indexAll_eq_ok.mp hall
    have hsame := sameNumber_toBytes ds 58
    rw [checkDecB58_of_spells ht hsame] at h
    split at h
    · cases h
    · next hlong =>
      obtain ⟨b, bs, hbytes⟩ : ∃ b bs, toBytes ds 58 = b :: bs := List.exists_cons_of_length_pos (by omega)
      rw [hbytes] at h hlong hsame
      obtain ⟨rfl, sum, hbs, hlen, hsum⟩ := splitCheck_eq_ok (by simpa using hlong) h
      obtain rfl : bs = p ++ sum := hbs
      refine ⟨ds, sum, b.isLt, ht, hlen, ?_, hsum⟩
      rwa [List.headD_cons, byteOf_of_toNat]

/-- A b58 check text is the encoding of its version and payload: no two b58 texts spell the same digits. -/
theorem IsCheckB58.checkEncB58_hexRender (h : IsCheckB58 c t v p) : checkEncB58 c v (hexRender p) = .ok t := by
  obtain ⟨ds, sum, hv, ht, -, hsame, hsum⟩ := h
  have htext : t = ds.map (symbolAt .b58) := (List.map_id t).symm.trans ht.1
  rw [htext]
  exact checkEncB58_of_hexText (Nat.le_of_lt_succ hv) (hexText_hexRender p) hsum (hsame.symm ht.2)

section
variable {out : List Byte} {val : Word} (n n' : Snapshot) (hwf : c.wf = true)
include hwf

/-- From a canonical address across and back (46_cross_base.md R174): the b58 text decodes to the target version and the
payload, and the table leads back to the version of the address. -/
theorem xconvB58ToC32Body_of_xconvC32ToB58Body (hc : CanonicalC32 t)
    (h : xconvC32ToB58Body false c n t = .ok (out, val)) :
    ∃ w, xconvB58ToC32Body false c n' out = .ok (t, w) := by
  obtain ⟨-, -, -, hsnd, hrange⟩ := Config.wf_bounds hwf
  rw [xconvC32ToB58Body_eq] at h
  obtain ⟨v, p, tv, hdec, hentry, henc⟩ := of_convertDecoded_eq_ok h
  have hmem : (v, tv) ∈ c.vmap := mem_of_vmapToB58 hentry
  obtain ⟨out', henc', hcheck⟩ := checkEncB58_isCheckB58 c (hrange _ hmem).2 (hexText_hexRender p)
  obtain rfl : out' = out := Except.ok.inj (henc'.symm.trans henc)
  have hback : addrEnc c v (hexRender p) = .ok t := (addrDec_eq_ok.mp hdec).addrEnc_hexRender hc
  have hresolve := resolve_eq_ok (a := n'.argA.toNat).mpr (.inr ⟨rfl, vmapToC32_eq_some hsnd hmem⟩)
  rw [xconvB58ToC32Body_eq, hcheck.checkDecB58_eq, convertDecoded_of_encode_ok hresolve hback]
  exact ⟨_, rfl⟩

/-- From a b58 text across and back: as above, and a b58 text is always canonical. -/
theorem xconvC32ToB58Body_of_xconvB58ToC32Body (h : xconvB58ToC32Body false c n t = .ok (out, val)) :
    ∃ w, xconvC32ToB58Body false c n' out = .ok (t, w) := by
  obtain ⟨-, -, hfst, -, hrange⟩ := Config.wf_bounds hwf
  rw [xconvB58ToC32Body_eq] at h
  obtain ⟨v, p, tv, hdec, hentry, henc⟩ := of_convertDecoded_eq_ok h
  have hmem : (tv, v) ∈ c.vmap := mem_of_vmapToC32 hentry
  have hlen : (hexRender p).length + (hexRender p).length % 2 = 40 := by
    by_contra hbad
    cases (addrEnc_of_bad_length hbad).symm.trans henc
  obtain ⟨out', henc', haddr⟩ := addrEnc_isAddress c hlen (hrange _ hmem).1 (hexText_hexRender p)
  obtain rfl : out' = out := Except.ok.inj (henc'.symm.trans henc)
  have hback : checkEncB58 c v (hexRender p) = .ok t := (checkDecB58_eq_ok.mp hdec).checkEncB58_hexRender
  have hresolve := resolve_eq_ok (a := n'.argA.toNat).mpr (.inr ⟨rfl, vmapToB58_eq_some hfst hmem⟩)
  rw [xconvC32ToB58Body_eq, addrDec_eq_ok.mpr haddr, convertDecoded_of_encode_ok hresolve hback]
  exact ⟨_, rfl⟩

end

end

/-- If the computation of `j` undoes that of `i`, then `j`, given the output of `i`, completes with the input of `i`. -/
theorem hasOutput_of_body_undone {i j : Instr} {s u s' u' : State} {t out : List Byte} (hi : readsInput i = true)
    (hj : readsInput j = true) (hwf : s.cfg.wf = true) (hcfg : s.cfg = s'.cfg) (hin : HasInput s t)
    (hin' : HasInput s' out) (hout : HasOutput u out) (he : u.errcode = 0)
    (hundo : ∀ val, bodyOf i s.cfg s.snap t = .ok (out, val) → ∃ w, bodyOf j s.cfg s'.snap out = .ok (t, w))
    (h : exec i s = .next u) (h' : exec j s' = .next u') : u'.errcode = 0 ∧ HasOutput u' t := by
  obtain ⟨-, hcap, -⟩ := Config.wf_bounds hwf
  have hfits := hin.fits
  obtain ⟨out', val, hbody, hlen, rfl⟩ := body_ok_of_exec hi hin h he
  obtain rfl : out' = out := (hasOutput_completeOk_iff (by omega)).mp hout
  obtain ⟨w, hw⟩ := hundo val hbody
  rw [exec_of_body_ok hj hin' (hcfg ▸ hw) (hcfg ▸ hfits)] at h'
  cases h'
  exact ⟨rfl, (hasOutput_completeOk_iff (by omega)).mpr rfl⟩

/-- Settles O42: either computation by the table undoes the other, the one to c32 up to canonical form. -/
theorem crossBaseRoundTrip : Obligations.CrossBaseRoundTrip := by
  unfold Obligations.CrossBaseRoundTrip
  intro s u s' u' t out hwf hcfg hin hin' hout he
  constructor
  · intro hc
    exact hasOutput_of_body_undone rfl rfl hwf hcfg hin hin' hout he fun _ =>
      xconvB58ToC32Body_of_xconvC32ToB58Body s.snap s'.snap hwf hc
  · exact hasOutput_of_body_undone rfl rfl hwf hcfg hin hin' hout he fun _ =>
      xconvC32ToB58Body_of_xconvB58ToC32Body s.snap s'.snap hwf

end Sys2Proof.Machine
end

section
/-! PROOFS. The exceptions family (60_exceptions.md): how a command starts, how a completion reports a result or an
error, what it leaves unchanged, which errors each command raises, and the IRQ line. -/

namespace Sys2Proof.Machine

/-! ### Illegal words and input beyond the buffer -/

/-- A word that is not legal completes with BadCommand, whatever its operands (30_encoding.md R77). -/
theorem complete_of_illegal {s : State} (h : (unpack s.snap.word).wf = false) :
    complete s = .next (s.completeErr .badCommand) := by
  cases hd : decode s.snap.word with
  | error e => exact complete_of_error hd
  | ok i =>
    have hwf := (exists_decode_iff_wf _).mp ⟨i, hd⟩
    cases h.symm.trans hwf

/-- Settles O6: in both cases the step is the engine's turn, and the turn completes the illegal word. -/
theorem illegalWordCompletesWithBadCommand : Obligations.IllegalWordCompletesWithBadCommand := by
  unfold Obligations.IllegalWordCompletesWithBadCommand
  intro s hr hp hw
  constructor
  · intro hi
    rw [step_of_empty hi, engineTurn_of_busy hr hp, complete_of_illegal hw]
    rfl
  · intro rest hi
    calc step s = engineTurn { s with inbox := rest } := step_of_event hi
      _ = complete { s with inbox := rest } := engineTurn_of_busy hr hp
      _ = .next (({ s with inbox := rest } : State).completeErr .badCommand) := complete_of_illegal hw

/-- Settles O11: the execution frame tests IN_LEN before it reads IN or runs the computation. -/
theorem inputCapacityPrecedesOwnErrors : Obligations.InputCapacityPrecedesOwnErrors := by
  unfold Obligations.InputCapacityPrecedesOwnErrors
  exact fun i s => exec_of_input_too_long

/-! ### The start of a command -/

theorem writeReg_cmd_of_idle {s : State} (hp : s.phase = .idle) (w : Word) : s.writeReg .cmd w = s.start w :=
  if_neg (by simp [hp])

/-- While BUSY a write to CMD or to an operand register is dropped (10_state.md R28). -/
theorem writeReg_of_busy {s : State} (hp : s.phase = .busy) {r : Reg} (hr : r ∈ [Reg.cmd, .argA, .argB, .inLen])
    (v : Word) : s.writeReg r v = s.dropWrite := by
  have hb : s.busy = true := s.busy_iff.mpr hp
  simp only [List.mem_cons, List.not_mem_nil, or_false] at hr
  rcases hr with rfl | rfl | rfl | rfl <;> exact if_pos hb

/-- Settles O7: the step is the write to CMD, which starts the command while IDLE and is dropped while BUSY. -/
theorem commandWriteStarts : Obligations.CommandWriteStarts := by
  unfold Obligations.CommandWriteStarts
  intro s w rest hr hi
  have hstep : step s = .next (({ s with inbox := rest } : State).writeReg .cmd w) :=
    (step_access hi).trans (hostAccess_write_regOffset (s := { s with inbox := rest }) hr .cmd w)
  constructor
  · intro hp
    rw [writeReg_cmd_of_idle (s := { s with inbox := rest }) hp] at hstep
    exact ⟨_, hstep, Memory.read_nil, rfl⟩
  · intro hp
    rw [hstep, writeReg_of_busy (s := { s with inbox := rest }) hp (by simp)]
    rfl

/-! ### What a completion writes -/

/-- STATUS of a block that is IDLE with DONE set: ERR and OVERRUN are what is left to tell (10_state.md R25). -/
theorem regRead_status_of_completed {t : State} (hp : t.phase = .idle) (hd : t.done = true) :
    t.regRead .status =
      if t.err then (if t.overrun then 0xE else 0x6) else (if t.overrun then 0xA else 0x2) := by
  have hb : t.busy = false := t.busy_eq_false.mpr hp
  rw [State.regRead, State.status, hb, hd]
  cases t.err <;> cases t.overrun <;> rfl

theorem err_completeErr (s : State) (k : ErrKind) : (s.completeErr k).err = true :=
  bne_iff_ne.mpr (errCode_range k).1

/-- BUF_CAP is at most 1024, so OUT_LEN does not cut the length of a result that fits. -/
theorem toNat_outLen_completeOk {s : State} {out : List Byte} (val : Word) (hcap : s.cfg.bufCap ≤ 1024)
    (hl : out.length ≤ s.cfg.bufCap) : (s.completeOk out val).outLen.toNat = out.length := by
  rw [State.completeOk_outLen, BitVec.toNat_ofNat, Nat.mod_eq_of_lt (by omega)]

/-- Settles O8: the two completions, field by field. -/
theorem completionCommitsResult : Obligations.CompletionCommitsResult := by
  unfold Obligations.CompletionCommitsResult
  intro s hcap
  constructor
  · intro out val hl
    exact ⟨_, rfl, rfl, toNat_outLen_completeOk val hcap hl, rfl, Memory.read_ofBytes out,
      regRead_status_of_completed rfl rfl⟩
  · intro k
    refine ⟨_, rfl, by cases k <;> rfl, rfl, rfl, Memory.read_nil, ?_⟩
    rw [regRead_status_of_completed rfl rfl, if_pos (err_completeErr s k), State.completeErr_overrun]

/-- Settles O9: a completion is an error without result, or a result that fits and defines the bytes below its
length. -/
theorem completionFrame : Obligations.CompletionFrame := by
  unfold Obligations.CompletionFrame
  intro i s t hwf h
  obtain ⟨-, hcap, -⟩ := Config.wf_bounds hwf
  rcases exec_next_cases h with ⟨k, rfl⟩ | ⟨out, val, hl, rfl⟩
  · exact ⟨rfl, rfl, rfl, rfl, rfl, rfl, rfl, rfl, rfl, rfl, rfl, rfl, rfl, rfl, rfl, fun _ => rfl, fun _ => by simp,
      Nat.zero_le _, fun _ => ⟨rfl, rfl⟩⟩
  · have hlen := toNat_outLen_completeOk val hcap hl
    exact ⟨rfl, rfl, rfl, rfl, rfl, rfl, rfl, rfl, rfl, rfl, rfl, rfl, rfl, rfl, rfl, fun _ => rfl,
      fun k => by rw [hlen]; exact Memory.isSome_read_ofBytes out k, hlen.trans_le hl, fun he => absurd rfl he⟩

/-! ### The errors of the shared computations -/

section
variable {c : Config} {v : Nat} {h t : List Byte} {k : ErrKind}

/-- The encoder to c32 tests the version, then the hex (44_check_codec.md R151). -/
theorem checkEncC32_error_cases (he : checkEncC32 c v h = .error k) :
    (k = .invalidVersion ∧ v > 31) ∨ (k = .invalidHex ∧ NotHex h) := by
  rcases Nat.lt_or_ge 31 v with hv | hv
  · cases (checkEncC32_of_bad_version h hv).symm.trans he
    exact .inl ⟨rfl, hv⟩
  · cases hp : hexParse h with
    | error k' =>
      have hn : NotHex h := (hexParse_eq_error.mp hp).2
      cases (checkEncC32_of_notHex hv hn).symm.trans he
      exact .inr ⟨rfl, hn⟩
    | ok p =>
      obtain ⟨t, henc, -⟩ := checkEncC32_isCheckC32 c hv (hexParse_eq_ok.mp hp)
      cases henc.symm.trans he

/-- The encoder to b58 tests the version, then the hex (44_check_codec.md R152). -/
theorem checkEncB58_error_cases (he : checkEncB58 c v h = .error k) :
    (k = .invalidVersion ∧ v > 255) ∨ (k = .invalidHex ∧ NotHex h) := by
  rcases Nat.lt_or_ge 255 v with hv | hv
  · cases (checkEncB58_of_bad_version h hv).symm.trans he
    exact .inl ⟨rfl, hv⟩
  · cases hp : hexParse h with
    | error k' =>
      have hn : NotHex h := (hexParse_eq_error.mp hp).2
      cases (checkEncB58_of_notHex hv hn).symm.trans he
      exact .inr ⟨rfl, hn⟩
    | ok p =>
      obtain ⟨t, henc, -⟩ := checkEncB58_isCheckB58 c hv (hexParse_eq_ok.mp hp)
      cases henc.symm.trans he

/-- The address encoder tests the length, then what the check encoder tests (45_address_codec.md R161). -/
theorem addrEnc_error_cases (he : addrEnc c v h = .error k) :
    k = .invalidPayloadLength ∨ (k = .invalidVersion ∧ v > 31) ∨ (k = .invalidHex ∧ NotHex h) := by
  by_cases hl : h.length + h.length % 2 = 40
  · cases henc : checkEncC32 c v h with
    | error k' =>
      cases (addrEnc_of_check_error hl henc).symm.trans he
      exact .inr (checkEncC32_error_cases henc)
    | ok t => cases (addrEnc_of_check_ok hl henc).symm.trans he
  · cases (addrEnc_of_bad_length hl).symm.trans he
    exact .inl rfl

theorem splitCheck_error {bs : List Byte} (he : splitCheck c v bs = .error k) : k = .checksumMismatch := by
  simp only [splitCheck] at he
  split at he
  · cases he
    rfl
  · cases he

/-- What a check decoder may raise (44_check_codec.md R153, R154). -/
def checkDecErrors : List ErrKind := [.invalidSymbol, .tooShort, .checksumMismatch]

theorem checkDecC32_error_mem (he : checkDecC32 c t = .error k) : k ∈ checkDecErrors := by
  cases hall : indexAll .c32 t with
  | error k' =>
    cases (checkDecC32_of_notSymbols (indexAll_eq_error.mp hall).2).symm.trans he
    decide
  | ok ds =>
    have ht : Spells .c32 t ds := indexAll_eq_ok.mp hall
    cases ds with
    | nil =>
      obtain rfl : t = [] := List.map_eq_nil_iff.mp ht.1
      cases he
      decide
    | cons w ds =>
      rw [checkDecC32_of_spells ht (sameNumber_toBytes ds 32)] at he
      split at he
      · cases he
        decide
      · rw [splitCheck_error he]
        decide

theorem checkDecB58_error_mem (he : checkDecB58 c t = .error k) : k ∈ checkDecErrors := by
  cases hall : indexAll .b58 t with
  | error k' =>
    cases (checkDecB58_of_notSymbols (indexAll_eq_error.mp hall).2).symm.trans he
    decide
  | ok ds =>
    rw [checkDecB58_of_spells (indexAll_eq_ok.mp hall) (sameNumber_toBytes ds 58)] at he
    split at he
    · cases he
      decide
    · rw [splitCheck_error he]
      decide

/-- The address decoder tests the prefix, then what the check decoder tests, then the payload's length
(45_address_codec.md R162). -/
theorem addrDec_error_mem (he : addrDec c t = .error k) : k ∈ errorsOf .addrDecode := by
  by_cases hhead : t.head? = some 0x53
  · obtain ⟨rest, rfl⟩ := List.head?_eq_some_iff.mp hhead
    cases hdec : checkDecC32 c rest with
    | error k' =>
      cases (addrDec_of_check_error hdec).symm.trans he
      have hcheck : k ∈ checkDecErrors ++ [.invalidPayloadLength] :=
        List.mem_append_left _ (checkDecC32_error_mem hdec)
      exact List.mem_cons_of_mem _ hcheck
    | ok r =>
      rw [addrDec_of_isCheckC32 (v := r.1) (p := r.2) (checkDecC32_eq_ok.mp hdec)] at he
      split at he <;> cases he
      decide
  · cases (addrDec_of_missing_prefix hhead).symm.trans he
    decide

end

/-! ### The lengths of results that always fit -/

theorem Spells.length_eq {alph : Alph} {t : List Byte} {ds : List Nat} (h : Spells alph t ds) :
    t.length = ds.length := by
  simpa using congrArg List.length h.1

/-- An address fits in the least BUF_CAP (00_scope.md R3). -/
theorem IsAddress.length_le {c : Config} {t : List Byte} {v : Nat} {p : List Byte} (h : IsAddress c t v p) :
    t.length ≤ 50 := by
  obtain ⟨rest, rfl, hp, ds, sum, ht, hsum, hsame, -⟩ := h
  have hds : ∀ d ∈ ds, d < 32 := (List.forall_mem_cons.mp ht.2).2
  have hle := length_le_of_addressDigits hp hsum (hsame.symm hds)
  rw [List.length_cons, ht.length_eq, List.length_cons]
  exact hle

/-- The address encoder gives addresses. -/
theorem isAddress_of_addrEnc {c : Config} {v : Nat} {h t : List Byte} (henc : addrEnc c v h = .ok t) :
    ∃ p, IsAddress c t v p := by
  have hl : h.length + h.length % 2 = 40 := by
    by_contra hl
    cases (addrEnc_of_bad_length hl).symm.trans henc
  have hv : v ≤ 31 := by
    by_contra hv
    cases (addrEnc_of_check_error hl (checkEncC32_of_bad_version h (Nat.lt_of_not_le hv))).symm.trans henc
  cases hp : hexParse h with
  | error k =>
    have hbad := checkEncC32_of_notHex (c := c) hv (hexParse_eq_error.mp hp).2
    cases (addrEnc_of_check_error hl hbad).symm.trans henc
  | ok p =>
    obtain ⟨t', henc', haddr⟩ := addrEnc_isAddress c hl hv (hexParse_eq_ok.mp hp)
    cases henc'.symm.trans henc
    exact ⟨p, haddr⟩

/-- The b58 text of a 20-byte payload fits in the least BUF_CAP. -/
theorem length_le_of_checkEncB58 {c : Config} {v : Nat} {p t : List Byte} (hp : p.length = 20)
    (henc : checkEncB58 c v (hexRender p) = .ok t) : t.length ≤ 50 := by
  have hv : v ≤ 255 := by
    by_contra hv
    cases (checkEncB58_of_bad_version _ (Nat.lt_of_not_le hv)).symm.trans henc
  have hsame := sameNumber_toDigits (byteOf v :: p ++ checksum c (byteOf v :: p)) (R := 58) (by decide)
  cases (checkEncB58_of_hexText hv (hexText_hexRender p) rfl hsame).symm.trans henc
  rw [List.length_map]
  exact length_le_of_addressDigits58 hp (length_checksum c _) hsame

/-! ### What each computation may answer -/

/-- The answer `r` is an error of the list `ks`, or a result that fits in `cap` bytes unless `ks` has the capacity
error. -/
def AnswersWithin (cap : Nat) (ks : List ErrKind) (r : Except ErrKind (List Byte × Word)) : Prop :=
  match r with
  | .error k => k ∈ ks
  | .ok (out, _) => out.length ≤ cap ∨ .capacityExceeded ∈ ks

section
variable {cap : Nat} {ks : List ErrKind}

@[simp] theorem answersWithin_error {k : ErrKind} : AnswersWithin cap ks (.error k) ↔ k ∈ ks := Iff.rfl

@[simp] theorem answersWithin_ok {out : List Byte} {val : Word} :
    AnswersWithin cap ks (.ok (out, val)) ↔ out.length ≤ cap ∨ .capacityExceeded ∈ ks := Iff.rfl

/-- Completion with such an answer has code 0 or the code of a kind in the list. -/
theorem errcode_finish_of_answersWithin {s : State} {r : Except ErrKind (List Byte × Word)}
    (h : AnswersWithin s.cfg.bufCap ks r) :
    (s.finish r).errcode = 0 ∨ ∃ k ∈ ks, (s.finish r).errcode = errCode k := by
  rcases finish_cases s r with ⟨k, hk, rfl | ⟨rfl, out, val, rfl, hlong⟩⟩ | ⟨out, val, -, -, hok⟩
  · exact .inr ⟨k, h, congrArg State.errcode hk⟩
  · exact .inr ⟨_, h.resolve_left (Nat.not_le.mpr hlong), congrArg State.errcode hk⟩
  · exact .inl (congrArg State.errcode hok)

theorem answersWithin_encodedResult {r : Except ErrKind (List Byte)} (herr : ∀ k, r = .error k → k ∈ ks)
    (hok : ∀ t, r = .ok t → t.length ≤ cap ∨ .capacityExceeded ∈ ks) : AnswersWithin cap ks (encodedResult r) := by
  cases r with
  | error k => exact herr k rfl
  | ok t => exact hok t rfl

theorem answersWithin_decodedResult {r : Except ErrKind (Nat × List Byte)} (herr : ∀ k, r = .error k → k ∈ ks)
    (hok : ∀ v p, r = .ok (v, p) → 2 * p.length ≤ cap ∨ .capacityExceeded ∈ ks) :
    AnswersWithin cap ks (decodedResult r) := by
  match r with
  | .error k => exact herr k rfl
  | .ok (v, p) =>
    rw [decodedResult_ok, answersWithin_ok, length_hexRender]
    exact hok v p rfl

theorem resolve_eq_error {tven : Bool} {a : Nat} {entry : Option Nat} {k : ErrKind}
    (h : resolve tven a entry = .error k) : tven = false ∧ k = .noEquivalentVersion := by
  cases tven <;> cases entry <;> cases h
  exact ⟨rfl, rfl⟩

/-- A conversion fails with its source text, for lack of a table entry, or with its encoder. -/
theorem answersWithin_convertDecoded {tven : Bool} {a : Nat} {entry : Nat → Option Nat}
    {enc : Nat → List Byte → Except ErrKind (List Byte)} {dec : Except ErrKind (Nat × List Byte)}
    (hdec : ∀ k, dec = .error k → k ∈ ks) (hentry : tven = false → .noEquivalentVersion ∈ ks)
    (henc : ∀ v p tv, dec = .ok (v, p) → resolve tven a (entry v) = .ok tv →
      (∀ k, enc tv (hexRender p) = .error k → k ∈ ks) ∧ (∀ t, enc tv (hexRender p) = .ok t → t.length ≤ cap)) :
    AnswersWithin cap ks (convertDecoded tven a entry enc dec) := by
  match dec with
  | .error k => exact hdec k rfl
  | .ok (v, p) =>
    cases hres : resolve tven a (entry v) with
    | error k =>
      obtain ⟨htven, rfl⟩ := resolve_eq_error hres
      simp only [convertDecoded, hres]
      exact hentry htven
    | ok tv =>
      obtain ⟨herr, hok⟩ := henc v p tv rfl hres
      cases hr : enc tv (hexRender p) with
      | error k =>
        rw [convertDecoded_of_encode_error hres hr]
        exact herr k hr
      | ok t =>
        rw [convertDecoded_of_encode_ok hres hr]
        exact .inl (hok t hr)

end

section
variable (c : Config) (n : Snapshot) (bs : List Byte)

theorem radixToDigitsBody_answersWithin :
    AnswersWithin c.bufCap (errorsOf .radixToDigits) (radixToDigitsBody c n bs) := by
  by_cases hbad : n.argA.toNat < 2 ∨ n.argA.toNat > 256
  · rw [radixToDigitsBody_of_bad_radix bs hbad]
    exact List.mem_cons_self
  · rw [radixToDigitsBody_of_radix bs (by omega) (by omega)]
    exact .inr (by decide)

theorem alphaIndexOfBody_answersWithin (alph : Alph) :
    AnswersWithin c.bufCap [.badArgument, .invalidSymbol] (alphaIndexOfBody alph c n bs) := by
  match bs with
  | [x] =>
    cases hx : indexOf alph x with
    | none => simp [alphaIndexOfBody_of_no_index hx]
    | some v => simp [alphaIndexOfBody_of_index hx]
  | [] | _ :: _ :: _ =>
    rw [alphaIndexOfBody_of_length_ne_one (by simp)]
    simp

theorem plainEncodeBody_answersWithin (alph : Alph) :
    AnswersWithin c.bufCap [.invalidHex, .capacityExceeded] (plainEncodeBody alph c n bs) := by
  cases hp : hexParse bs with
  | error k =>
    rw [plainEncodeBody_of_notHex (hexParse_eq_error.mp hp).2]
    simp
  | ok p =>
    rw [plainEncodeBody_of_hexText (hexParse_eq_ok.mp hp)]
    exact .inr (by decide)

theorem plainDecodeBody_answersWithin (alph : Alph) :
    AnswersWithin c.bufCap [.invalidSymbol, .capacityExceeded] (plainDecodeBody alph c n bs) := by
  cases hall : indexAll alph bs with
  | error k =>
    rw [plainDecodeBody_of_error (plainDec_of_notSymbols _ (indexAll_eq_error.mp hall).2)]
    simp
  | ok ds =>
    rw [plainDecodeBody_of_ok (plainDec_of_spells _ (indexAll_eq_ok.mp hall) (sameNumber_toBytes ds _))]
    exact .inr (by decide)

theorem checkEncodeC32Body_answersWithin :
    AnswersWithin c.bufCap (errorsOf .checkEncodeC32) (checkEncodeC32Body c n bs) := by
  refine answersWithin_encodedResult (fun k he => ?_) fun _ _ => .inr (by decide)
  rcases checkEncC32_error_cases he with ⟨rfl, -⟩ | ⟨rfl, -⟩ <;> decide

theorem checkEncodeB58Body_answersWithin :
    AnswersWithin c.bufCap (errorsOf .checkEncodeB58) (checkEncodeB58Body c n bs) := by
  refine answersWithin_encodedResult (fun k he => ?_) fun _ _ => .inr (by decide)
  rcases checkEncB58_error_cases he with ⟨rfl, -⟩ | ⟨rfl, -⟩ <;> decide

theorem checkDecodeC32Body_answersWithin :
    AnswersWithin c.bufCap (errorsOf .checkDecodeC32) (checkDecodeC32Body c n bs) :=
  answersWithin_decodedResult (fun _ he => List.mem_append_left [_] (checkDecC32_error_mem he))
    fun _ _ _ => .inr (by decide)

theorem checkDecodeB58Body_answersWithin :
    AnswersWithin c.bufCap (errorsOf .checkDecodeB58) (checkDecodeB58Body c n bs) :=
  answersWithin_decodedResult (fun _ he => List.mem_append_left [_] (checkDecB58_error_mem he))
    fun _ _ _ => .inr (by decide)

/-- The bytes of a number are no more than its digits in a smaller radix, so they fit where the digits did. -/
theorem radixToBytesBody_answersWithin (hbs : bs.length ≤ c.bufCap) :
    AnswersWithin c.bufCap (errorsOf .radixToBytes) (radixToBytesBody c n bs) := by
  by_cases hbad : n.argA.toNat < 2 ∨ n.argA.toNat > 256 ∨ ∃ d ∈ bs, d.toNat ≥ n.argA.toNat
  · rw [radixToBytesBody_of_bad_argument bs hbad]
    exact List.mem_cons_self
  · push Not at hbad
    obtain ⟨h2, h256, hd⟩ := hbad
    have hdigits : ∀ x ∈ natsOf bs, x < n.argA.toNat := List.forall_mem_map.mpr hd
    have hlen := (sameNumber_toBytes (natsOf bs) n.argA.toNat).length_le hdigits h256 h2
    rw [length_natsOf, length_natsOf] at hlen
    rw [radixToBytesBody_of_digits bs h2 h256 hd]
    exact .inl (hlen.trans hbs)

section
variable (hwf : c.wf = true)
include hwf

theorem alphaSymAtBody_answersWithin (alph : Alph) :
    AnswersWithin c.bufCap [.badArgument] (alphaSymAtBody alph c n bs) := by
  have hcap := (Config.wf_bounds hwf).1
  rcases Nat.lt_or_ge n.argA.toNat (radixOf alph) with hlt | hge
  · rw [alphaSymAtBody_of_lt bs hlt]
    exact .inl (by rw [List.length_singleton]; omega)
  · rw [alphaSymAtBody_of_ge bs hge]
    exact List.mem_cons_self

theorem checksumBody_answersWithin : AnswersWithin c.bufCap (errorsOf .checksum) (checksumBody c n bs) := by
  have hcap := (Config.wf_bounds hwf).1
  exact .inl (by rw [length_checksum]; omega)

theorem addrEncodeBody_answersWithin : AnswersWithin c.bufCap (errorsOf .addrEncode) (addrEncodeBody c n bs) := by
  have hcap := (Config.wf_bounds hwf).1
  refine answersWithin_encodedResult (fun k he => ?_) fun t henc => ?_
  · rcases addrEnc_error_cases he with rfl | ⟨rfl, -⟩ | ⟨rfl, -⟩ <;> decide
  · obtain ⟨p, haddr⟩ := isAddress_of_addrEnc henc
    have hlen := haddr.length_le
    exact .inl (by omega)

theorem addrDecodeBody_answersWithin : AnswersWithin c.bufCap (errorsOf .addrDecode) (addrDecodeBody c n bs) := by
  have hcap := (Config.wf_bounds hwf).1
  refine answersWithin_decodedResult (fun k => addrDec_error_mem) fun v p hdec => ?_
  obtain ⟨-, -, hp, -⟩ := addrDec_eq_ok.mp hdec
  exact .inl (by omega)

/-- The payload is rendered hex, so the encoder can only reject the version, and a version from the table is in
range. -/
theorem xconvC32ToB58Body_answersWithin (tven : Bool) :
    AnswersWithin c.bufCap (errorsOf (.xconvC32ToB58 tven)) (xconvC32ToB58Body tven c n bs) := by
  obtain ⟨hcap, -, -, -, hrange⟩ := Config.wf_bounds hwf
  rw [xconvC32ToB58Body_eq]
  refine answersWithin_convertDecoded (fun k he => List.mem_append_left [_] (addrDec_error_mem he)) ?_
    fun v p tv hdec hres => ⟨fun k he => ?_, fun t henc => ?_⟩
  · rintro rfl
    decide
  · rcases checkEncB58_error_cases he with ⟨rfl, hbad⟩ | ⟨-, hnot⟩
    · rcases resolve_eq_ok.mp hres with ⟨rfl, -⟩ | ⟨-, hentry⟩
      · decide
      · have htv := (hrange _ (mem_of_vmapToB58 hentry)).2
        exact absurd htv (Nat.not_le.mpr hbad)
    · exact absurd hnot (hexText_hexRender p).not_notHex
  · obtain ⟨-, -, hp, -⟩ := addrDec_eq_ok.mp hdec
    have hlen := length_le_of_checkEncB58 hp henc
    omega

theorem xconvB58ToC32Body_answersWithin (tven : Bool) :
    AnswersWithin c.bufCap (errorsOf (.xconvB58ToC32 tven)) (xconvB58ToC32Body tven c n bs) := by
  obtain ⟨hcap, -, -, -, hrange⟩ := Config.wf_bounds hwf
  rw [xconvB58ToC32Body_eq]
  refine answersWithin_convertDecoded (fun k he => List.mem_append_left [_, _] (checkDecB58_error_mem he)) ?_
    fun v p tv hdec hres => ⟨fun k he => ?_, fun t henc => ?_⟩
  · rintro rfl
    decide
  · rcases addrEnc_error_cases he with rfl | ⟨rfl, hbad⟩ | ⟨-, hnot⟩
    · simp [errorsOf]
    · rcases resolve_eq_ok.mp hres with ⟨rfl, -⟩ | ⟨-, hentry⟩
      · decide
      · have htv := (hrange _ (mem_of_vmapToC32 hentry)).1
        exact absurd htv (Nat.not_le.mpr hbad)
    · exact absurd hnot (hexText_hexRender p).not_notHex
  · obtain ⟨q, haddr⟩ := isAddress_of_addrEnc henc
    have hlen := haddr.length_le
    omega

/-- On input that fits, each command's computation fails only as the command's rules list, and has a result that fits
unless the rules list CapacityExceeded. -/
theorem bodyOf_answersWithin (hbs : bs.length ≤ c.bufCap) (i : Instr) :
    AnswersWithin c.bufCap (errorsOf i) (bodyOf i c n bs) := by
  cases i with
  | radixToDigits => exact radixToDigitsBody_answersWithin c n bs
  | radixToBytes => exact radixToBytesBody_answersWithin c n bs hbs
  | alphaSymAtC32 => exact alphaSymAtBody_answersWithin c n bs hwf .c32
  | alphaSymAtB58 => exact alphaSymAtBody_answersWithin c n bs hwf .b58
  | alphaIndexOfC32 => exact alphaIndexOfBody_answersWithin c n bs .c32
  | alphaIndexOfB58 => exact alphaIndexOfBody_answersWithin c n bs .b58
  | alphaNormalizeC32 => exact .inl ((List.length_map ..).trans_le hbs)
  | checksum => exact checksumBody_answersWithin c n bs hwf
  | plainEncodeC32 => exact plainEncodeBody_answersWithin c n bs .c32
  | plainEncodeB58 => exact plainEncodeBody_answersWithin c n bs .b58
  | plainDecodeC32 => exact plainDecodeBody_answersWithin c n bs .c32
  | plainDecodeB58 => exact plainDecodeBody_answersWithin c n bs .b58
  | checkEncodeC32 => exact checkEncodeC32Body_answersWithin c n bs
  | checkEncodeB58 => exact checkEncodeB58Body_answersWithin c n bs
  | checkDecodeC32 => exact checkDecodeC32Body_answersWithin c n bs
  | checkDecodeB58 => exact checkDecodeB58Body_answersWithin c n bs
  | addrEncode => exact addrEncodeBody_answersWithin c n bs hwf
  | addrDecode => exact addrDecodeBody_answersWithin c n bs hwf
  | xconvC32ToB58 tven => exact xconvC32ToB58Body_answersWithin c n bs hwf tven
  | xconvB58ToC32 tven => exact xconvB58ToC32Body_answersWithin c n bs hwf tven

end

end

/-- Settles O14: a completion with IN_LEN in range commits what the computation answers, on input that fits. -/
theorem eachCommandRaisesOnlyItsKinds : Obligations.EachCommandRaisesOnlyItsKinds := by
  unfold Obligations.EachCommandRaisesOnlyItsKinds
  intro i s t hwf hlen h
  have hans : ∀ bs : List Byte, bs.length ≤ s.cfg.bufCap →
      (s.finish (bodyOf i s.cfg s.snap bs)).errcode = 0 ∨
        ∃ k ∈ errorsOf i, (s.finish (bodyOf i s.cfg s.snap bs)).errcode = errCode k := fun bs hbs =>
    errcode_finish_of_answersWithin (bodyOf_answersWithin s.cfg s.snap bs hwf hbs i)
  rcases exec_cases i s with ⟨hlong, -⟩ | ⟨-, -, -, he⟩ | ⟨bs, -, hin, he⟩ | ⟨-, -, he⟩
  · exact absurd hlen (Nat.not_le.mpr hlong)
  · cases h.symm.trans he
  · cases h.symm.trans he
    exact hans bs hin.fits
  · cases h.symm.trans he
    exact hans [] (Nat.zero_le _)

/-! ### The IRQ line -/

theorem irq_of_done {s : State} (h : s.done = true) : s.irq = s.ie := by rw [State.irq, h, Bool.and_true]

theorem irq_of_not_done {s : State} (h : s.done = false) : s.irq = false := by rw [State.irq, h, Bool.and_false]

/-- Settles O53: a completion sets DONE, a start and a reset clear it, and each of the two register writes acts on one
conjunct. -/
theorem irqFollowsEnableAndDone : Obligations.IrqFollowsEnableAndDone := by
  unfold Obligations.IrqFollowsEnableAndDone
  intro s v
  refine ⟨by rw [State.irq, Bool.and_eq_true], fun i t h => ?_, fun hr => ?_, fun hr => ?_, rfl⟩
  · rcases exec_next_cases h with ⟨k, rfl⟩ | ⟨out, val, -, rfl⟩ <;> exact irq_of_done rfl
  · have hw : ∀ r, hostAccess (.write 4 (regOffset r) v) s = .next (s.writeReg r v) :=
      fun r => hostAccess_write_regOffset hr r v
    refine ⟨fun t h => ?_, fun t h => ?_, fun hp t h => ?_⟩
    · cases (hw .ctrl).symm.trans h
      rfl
    · cases (hw .status).symm.trans h
      exact (Bool.and_assoc ..).symm
    · cases (hw .cmd).symm.trans h
      rw [writeReg_cmd_of_idle hp]
      exact irq_of_not_done rfl
  · rw [State.releaseReset_of_asserted hr]
    exact irq_of_not_done rfl

end Sys2Proof.Machine
end

section
/-! PROOFS. The reset and hazards family (70_reset_and_hazards.md) and what else is left: the model fault, writes while
BUSY, free OUT bytes, the completion of a started command, and reset. -/

namespace Sys2Proof.Machine

/-! ### The model fault -/

theorem inWritten_eq_false {s : State} {k : Nat} : s.inWritten k = false ↔ s.inBuf.read k = none := by
  rw [State.inWritten, Option.isSome_eq_false_iff, Option.isNone_iff_eq_none]

theorem inWritten_eq_true {s : State} {k : Nat} : s.inWritten k = true ↔ s.inBuf.read k ≠ none := by
  rw [State.inWritten, Option.isSome_iff_ne_none]

/-- Settles O10: of the cases of the execution frame, only the one with an unwritten byte is no completion. -/
theorem faultsExactlyOnUnwrittenInput : Obligations.FaultsExactlyOnUnwrittenInput := by
  unfold Obligations.FaultsExactlyOnUnwrittenInput
  intro i s
  refine ⟨⟨?_, ?_⟩, fun r h => ?_⟩
  · rintro ⟨f, h⟩
    rcases exec_cases i s with ⟨-, he⟩ | ⟨hl, hr, ⟨k, hk, hn⟩, -⟩ | ⟨t, -, -, he⟩ | ⟨-, -, he⟩
    · cases h.symm.trans he
    · exact ⟨hr, hl, k, hk, inWritten_eq_false.mpr hn⟩
    · cases h.symm.trans he
    · cases h.symm.trans he
  · rintro ⟨hr, hl, k, hk, hn⟩
    exact ⟨_, exec_of_unwritten hr hl hk (inWritten_eq_false.mp hn)⟩
  · rcases exec_cases i s with ⟨-, he⟩ | ⟨-, -, -, he⟩ | ⟨t, -, -, he⟩ | ⟨-, -, he⟩ <;> cases h.symm.trans he

/-! ### Writes while BUSY -/

section
variable {s : State} (hp : s.phase = .busy)
include hp

theorem writeByte_of_busy {off : Offset} {i : Nat} (b : Byte) (ho : off.toNat = 0x400 + i) (hi : i < 0x400)
    (hc : i < s.cfg.bufCap) : s.writeByte off b = s.dropWrite := by
  simp only [State.writeByte, regionOf_inWindow ho hi, if_pos hc, if_pos (s.busy_iff.mpr hp)]

/-- After a dropped write, another byte is dropped too or ignored, and OVERRUN stays set. -/
theorem writeByte_dropWrite (off : Offset) (b : Byte) : s.dropWrite.writeByte off b = s.dropWrite := by
  rcases writeByte_cases s.dropWrite off b with h | ⟨-, h⟩ | ⟨hi, -⟩
  · exact h
  · exact h
  · cases hp.symm.trans hi

theorem writeLanes_of_busy {off : Offset} {i : Nat} (v : Word) (ho : off.toNat = 0x400 + i) (hi : i < 0x400)
    (hc : i < s.cfg.bufCap) : s.writeLanes off v = s.dropWrite := by
  rw [State.writeLanes, writeByte_of_busy hp _ ho hi hc, writeByte_dropWrite hp, writeByte_dropWrite hp,
    writeByte_dropWrite hp]

end

/-- Settles O48: the registers that hold operands drop the write, and so does the first byte of the IN window it
meets. -/
theorem writesWhileBusyAreDropped : Obligations.WritesWhileBusyAreDropped := by
  unfold Obligations.WritesWhileBusyAreDropped
  intro s v hr hp
  constructor
  · intro r hm
    rw [hostAccess_write_regOffset hr, writeReg_of_busy hp hm]
    rfl
  · intro off hl hc hu
    have ho : off.toNat = 0x400 + (off.toNat - 0x400) := by omega
    constructor
    · rw [hostAccess_writeByte v hr hl, writeByte_of_busy hp _ ho (by omega) (by omega)]
      rfl
    · intro ha
      rw [hostAccess_writeWord v hr hl ha, writeLanes_of_busy hp v ho (by omega) (by omega)]
      rfl

/-! ### Free OUT bytes -/

/-- `b` is what a read of the OUT window from offset `i` on answers: the result below OUT_LEN, zero at or beyond
BUF_CAP, and between them free bytes, drawn in order (10_state.md R36; log 7). -/
structure OutLanes (s : State) (i : Nat) (b : Nat → Byte) : Prop where
  result : ∀ k, k < s.outLen.toNat → s.outBuf.read k = some (b k)
  free : ∀ k, s.outLen.toNat ≤ k → k < s.cfg.bufCap → b k = Config.anyByte (s.drawn + (k - max i s.outLen.toNat))
  beyond : ∀ k, s.cfg.bufCap ≤ k → b k = 0

/-- How many of the OUT bytes from `i` up to, but not including, `k` are free. -/
def freeOutBytes (s : State) (i k : Nat) : Nat := min k s.cfg.bufCap - max i s.outLen.toNat

/-- The state after so many draws. -/
def State.afterDraws (s : State) (n : Nat) : State := { s with drawn := s.drawn + n }

section
variable {s : State} (h : s.Inv)
include h

theorem outBuf_read_of_ge {k : Nat} (hk : s.outLen.toNat ≤ k) : s.outBuf.read k = none := by
  have hd := h.outDefined k
  rw [decide_eq_false (Nat.not_lt.mpr hk)] at hd
  simpa using hd

/-- The byte at `k`, when the free bytes before it have been drawn. -/
theorem OutLanes.readByte {i k : Nat} {b : Nat → Byte} {o : Offset} (hb : OutLanes s i b) (ho : o.toNat = 0x800 + k)
    (hk : k < 0x400) (hik : i ≤ k) :
    (s.afterDraws (freeOutBytes s i k)).readByte o = (b k, s.afterDraws (freeOutBytes s i (k + 1))) := by
  have hfits := h.outFits
  rcases Nat.lt_or_ge k s.outLen.toNat with hlt | hge
  · have hn : freeOutBytes s i (k + 1) = freeOutBytes s i k := by unfold freeOutBytes; omega
    rw [hn]
    exact readByte_outWindow_defined ho hk (hlt.trans_le hfits) (hb.result k hlt)
  · rcases Nat.lt_or_ge k s.cfg.bufCap with hc | hc
    · have hn : freeOutBytes s i (k + 1) = freeOutBytes s i k + 1 := by unfold freeOutBytes; omega
      have hd : k - max i s.outLen.toNat = freeOutBytes s i k := by unfold freeOutBytes; omega
      rw [hn, hb.free k hge hc, hd]
      exact readByte_outWindow_free ho hk hc (outBuf_read_of_ge h hge)
    · have hn : freeOutBytes s i (k + 1) = freeOutBytes s i k := by unfold freeOutBytes; omega
      rw [hn, hb.beyond k hc]
      exact readByte_outWindow_beyond ho hk hc

/-- The four lanes of an aligned read, each with the next draws. -/
theorem OutLanes.readLanes {i : Nat} {b : Nat → Byte} {off : Offset} (hb : OutLanes s i b)
    (ho : off.toNat = 0x800 + i) (hi : i < 0x400) (ha : i % 4 = 0) :
    s.readLanes off =
      (wordOfLanes (b i) (b (i + 1)) (b (i + 2)) (b (i + 3)), s.afterDraws (freeOutBytes s i (i + 4))) := by
  have hlane : ∀ j < 4, (off + BitVec.ofNat 12 j).toNat = 0x800 + (i + j) := fun j hj => by
    rw [toNat_add_lane (by omega) hj]; omega
  have hzero : freeOutBytes s i i = 0 := by unfold freeOutBytes; omega
  have hstart : s.afterDraws (freeOutBytes s i i) = s := by rw [hzero]; rfl
  have h0 : s.readByte off = (b i, s.afterDraws (freeOutBytes s i (i + 1))) := by
    have hfirst := hb.readByte h ho hi (Nat.le_refl i)
    rwa [hstart] at hfirst
  have h1 : (s.afterDraws (freeOutBytes s i (i + 1))).readByte (off + 1) =
      (b (i + 1), s.afterDraws (freeOutBytes s i (i + 2))) :=
    hb.readByte h (hlane 1 (by decide)) (by omega) (by omega)
  have h2 : (s.afterDraws (freeOutBytes s i (i + 2))).readByte (off + 2) =
      (b (i + 2), s.afterDraws (freeOutBytes s i (i + 3))) :=
    hb.readByte h (hlane 2 (by decide)) (by omega) (by omega)
  have h3 : (s.afterDraws (freeOutBytes s i (i + 3))).readByte (off + 3) =
      (b (i + 3), s.afterDraws (freeOutBytes s i (i + 4))) :=
    hb.readByte h (hlane 3 (by decide)) (by omega) (by omega)
  simp only [State.readLanes, h0, h1, h2, h3]

end

/-- Settles O52: a byte alone, or four lanes, with the invariant telling which OUT bytes are defined. -/
theorem undefinedOutByteIsFree : Obligations.UndefinedOutByteIsFree := by
  unfold Obligations.UndefinedOutByteIsFree
  intro s off i h hr ho
  constructor
  · intro hc hge
    have hi : i < 0x400 := by have := (Config.wf_bounds h.config).2.1; omega
    rw [hostAccess_read hr ((admitted_iff _ _).mpr (.inr ⟨rfl, by omega⟩)), State.hostRead, if_neg (by omega),
      if_neg (by decide), readByte_outWindow_free ho hi hc (outBuf_read_of_ge h hge)]
  · intro b hresult hfree hbeyond hi ha
    have hb : OutLanes s i b := ⟨hresult, hfree, hbeyond⟩
    rw [hostAccess_read hr ((admitted_iff _ _).mpr (.inl ⟨rfl, by omega⟩)), State.hostRead, if_neg (by omega),
      if_pos rfl, hb.readLanes h ho hi ha]
    rfl

/-! ### A started command completes -/

/-- A run of any machine goes on from the next state. -/
theorem run_succ_of_step (M : Host.Core) {s t : M.State} (h : M.step s = .next t) (n : Nat) :
    M.run (n + 1) s = M.run n t := by
  rw [Host.Core.run, h]

theorem run_core_succ {s t : State} (h : step s = .next t) (n : Nat) :
    Host.Core.run Sys2Proof.core (n + 1) s = Host.Core.run Sys2Proof.core n t :=
  run_succ_of_step Sys2Proof.core h n

/-- If IN_LEN fits, every input byte of the command in flight is written. -/
def State.InputWritten (s : State) : Prop :=
  s.snap.inLen.toNat ≤ s.cfg.bufCap → ∀ k < s.snap.inLen.toNat, s.inWritten k = true

/-- With its input written, a command in flight completes at the engine's turn: there is nothing to fault on. -/
theorem exists_complete_of_inputWritten {s : State} (hw : s.InputWritten) :
    ∃ t, complete s = .next t ∧ t.phase = .idle ∧ t.done = true := by
  cases hd : decode s.snap.word with
  | error e => exact ⟨_, complete_of_error hd, rfl, rfl⟩
  | ok i =>
    have hnext : ∃ t, exec i s = .next t := by
      rcases exec_cases i s with ⟨-, he⟩ | ⟨hl, -, ⟨k, hk, hn⟩, -⟩ | ⟨bs, -, -, he⟩ | ⟨-, -, he⟩
      · exact ⟨_, he⟩
      · exact absurd hn (inWritten_eq_true.mp (hw hl k hk))
      · exact ⟨_, he⟩
      · exact ⟨_, he⟩
    obtain ⟨t, ht⟩ := hnext
    refine ⟨t, (complete_of_ok hd).trans ht, ?_⟩
    rcases exec_next_cases ht with ⟨k, rfl⟩ | ⟨out, val, -, rfl⟩ <;> exact ⟨rfl, rfl⟩

/-- An admitted access, with RESET released and a command in flight, is performed and leaves the command in flight. -/
theorem exists_hostAccess_of_ordinary {s : State} {a : Access} (hr : s.resetAsserted = false) (hp : s.phase = .busy)
    (ha : isOrdinary (.access a) = true) :
    ∃ t, hostAccess a s = .next t ∧ t.resetAsserted = false ∧ t.phase = .busy ∧ t.inbox = s.inbox ∧
      (s.InputWritten → t.InputWritten) := by
  have hnext : ∃ t, hostAccess a s = .next t := by
    cases a with
    | read n off => exact ⟨_, hostAccess_read hr ha⟩
    | write n off v => exact ⟨_, hostAccess_write v hr ha⟩
  obtain ⟨t, ht⟩ := hnext
  have hframe := hostAccess_busy ht hp
  refine ⟨t, ht, ?_⟩
  rw [hframe]
  exact ⟨hr, hp, rfl, id⟩

/-- A step that is the engine's turn ends a command whose input is written. -/
theorem exists_run_one_of_engineTurn {s u : State} (hs : step s = engineTurn u) (hr : u.resetAsserted = false)
    (hp : u.phase = .busy) (hw : u.InputWritten) :
    ∃ t, Host.Core.run Sys2Proof.core 1 s = .next t ∧ t.phase = .idle ∧ t.done = true := by
  obtain ⟨t, ht, hend⟩ := exists_complete_of_inputWritten hw
  have hstep : step s = .next t := hs.trans ((engineTurn_of_busy hr hp).trans ht)
  exact ⟨t, run_core_succ hstep 0, hend⟩

/-- A command in flight ends within the inbox's length plus one step: an access leaves it in flight and the inbox
shorter, and the engine's turn, at the latest when the inbox is empty, ends it. -/
theorem exists_run_of_inbox (inbox : List Event) {s : State} (hi : s.inbox = inbox) (hr : s.resetAsserted = false)
    (hp : s.phase = .busy) (hord : ∀ e ∈ inbox, isOrdinary e = true) (hw : s.InputWritten) :
    ∃ n t, n ≤ inbox.length + 1 ∧ Host.Core.run Sys2Proof.core n s = .next t ∧ t.phase = .idle ∧ t.done = true := by
  induction inbox generalizing s with
  | nil =>
    obtain ⟨t, ht⟩ := exists_run_one_of_engineTurn (step_of_empty hi) hr hp hw
    exact ⟨1, t, Nat.le_refl 1, ht⟩
  | cons e rest ih =>
    obtain ⟨he, hrest⟩ := List.forall_mem_cons.mp hord
    cases e with
    | engine =>
      obtain ⟨t, ht⟩ := exists_run_one_of_engineTurn (u := { s with inbox := rest }) (step_of_event hi) hr hp hw
      exact ⟨1, t, Nat.le_add_left 1 _, ht⟩
    | access a =>
      obtain ⟨u, hu, hru, hpu, hiu, hwu⟩ := exists_hostAccess_of_ordinary (s := { s with inbox := rest }) hr hp he
      obtain ⟨n, t, hn, ht, hend⟩ := ih hiu hru hpu hrest (hwu hw)
      exact ⟨n + 1, t, Nat.succ_le_succ hn, (run_core_succ ((step_access hi).trans hu) n).trans ht, hend⟩
    | assertReset | releaseReset => cases he

/-- Settles O56, by the induction over the inbox. -/
theorem startedCommandCompletes : Obligations.StartedCommandCompletes := by
  unfold Obligations.StartedCommandCompletes
  intro s hr hp hord hw
  exact exists_run_of_inbox s.inbox rfl hr hp hord hw

/-! ### Reset -/

/-- Settles O55: with RESET asserted an access is refused and the engine's turn changes nothing; the release leaves the
reset values. -/
theorem resetAbandonsCommand : Obligations.ResetAbandonsCommand := by
  unfold Obligations.ResetAbandonsCommand
  intro s hr
  have hturn : ∀ u : State, u.resetAsserted = true → engineTurn u = .next u := fun u hu => if_pos hu
  refine ⟨fun a rest hi => ?_, fun hi => ?_, fun rest hi => ?_, fun rest hi => ?_⟩
  · exact (step_access hi).trans (if_pos hr)
  · exact (step_of_empty hi).trans (hturn s hr)
  · exact (step_of_event hi).trans (hturn _ hr)
  · refine ⟨_, step_of_event hi, ?_⟩
    rw [State.releaseReset_of_asserted (s := { s with inbox := rest }) hr]
    exact ⟨rfl, rfl, rfl, rfl⟩

theorem status_eq_zero {s : State} (hp : s.phase = .idle) (hd : s.done = false) (he : s.errcode = 0)
    (ho : s.overrun = false) : s.status = 0 := by
  have hb : s.busy = false := s.busy_eq_false.mpr hp
  rw [State.status, State.err, hb, hd, he, ho]
  rfl

/-- Right after reset, whatever the parameters and the model's own records are. -/
theorem resetValues_of_records (c : Config) (ib : List Event) (rd : Option Word) (dr ep : Nat) {s : State}
    (hs : s = { State.reset with cfg := c, inbox := ib, readData := rd, drawn := dr, epoch := ep }) :
    s.regRead .id = 0x58323343 ∧ s.regRead .cap = BitVec.ofNat 32 s.cfg.bufCap ∧
    (∀ r ∈ [Reg.ctrl, .cmd, .status, .errcode, .argA, .argB, .inLen, .outLen, .outVal], s.regRead r = 0) ∧
    s.phase = .idle ∧ (∀ k, s.inWritten k = false) ∧ (∀ k, s.outBuf.read k = none) ∧ s.irq = false := by
  subst hs
  refine ⟨rfl, rfl, fun r hm => ?_, rfl, fun _ => rfl, Memory.read_nil, rfl⟩
  cases r with
  | id | cap => simp at hm
  | status => exact status_eq_zero rfl rfl rfl rfl
  | _ => rfl

/-- Settles O54: both states have the reset values, and differ only in the parameters and the model's own records. -/
theorem resetValues : Obligations.ResetValues := by
  unfold Obligations.ResetValues
  rintro s (rfl | ⟨u, hu, rfl⟩)
  · exact resetValues_of_records _ _ _ _ _ rfl
  · exact resetValues_of_records _ _ _ _ _ (State.releaseReset_of_asserted hu)

/-- Settles O59: both buffers are empty and no result is there, and the parameters of the reset state are in range. -/
theorem resetMeetsInvariant : Obligations.ResetMeetsInvariant := by
  unfold Obligations.ResetMeetsInvariant
  exact {
    config := by decide
    inForm := rfl
    inRange := fun _ _ => rfl
    outForm := rfl
    outDefined := fun _ => by simp [State.reset]
    outFits := Nat.zero_le _
    errKnown := Nat.zero_le _
    errNoResult := fun _ => ⟨rfl, rfl⟩
    busyNoResult := fun hp => nomatch hp
    busySnap := fun hp => nomatch hp }

end Sys2Proof.Machine
end
